-- ==== Sys2Proof/Word.lean ====
section
/-! DEFINITION. The words of the machine, the names of channels and operators, and the two fixed-size
banks (four operators of a channel, eight channels) that the state is built of. -/

namespace Sys2Proof

/-- One byte of a port (30_encoding.md R65). -/
abbrev Byte := BitVec 8

/-- A trace word of format T, 18 bits, kind and payload (30_encoding.md R68). -/
abbrev TraceWord := BitVec 18

/-- A channel number, 0 to 7 (10_state.md R10). -/
abbrev Chan := Fin 8

/-- One sample: a signed 16-bit number, held as the integer it is (00_scope.md R4, 20_memory.md R64). -/
abbrev Sample := Int

/-- The four operators of a channel, in the order of their numbers 0 to 3 (10_state.md R11). -/
inductive Slot where
  | m1
  | m2
  | c1
  | c2
deriving DecidableEq, Repr

/-- The complement `~a` of a two's-complement number of unbounded width (00_scope.md R5). -/
def bnot (a : Int) : Int := -a - 1

/-- `a >> k` of a signed number: an arithmetic shift, `floor(a / 2^k)` (00_scope.md R5). -/
def shr (a : Int) (k : Nat) : Int := a / 2 ^ k

/-- `a << k` of a signed number (00_scope.md R5). -/
def shl (a : Int) (k : Nat) : Int := a * 2 ^ k

/-- Four like things, one for each operator of a channel. -/
structure Four (α : Type) where
  m1 : α
  m2 : α
  c1 : α
  c2 : α
deriving DecidableEq, Repr

/-- The entry of a slot. -/
def Four.get {α : Type} (v : Four α) : Slot → α
  | .m1 => v.m1
  | .m2 => v.m2
  | .c1 => v.c1
  | .c2 => v.c2

/-- The bank whose entry at each slot is given by a rule. -/
def Four.tab {α : Type} (f : Slot → α) : Four α := ⟨f .m1, f .m2, f .c1, f .c2⟩

/-- The bank with one entry replaced. -/
def Four.set {α : Type} (v : Four α) (s : Slot) (a : α) : Four α :=
  Four.tab fun t => if t = s then a else v.get t

/-- Eight like things, one for each channel. -/
structure Eight (α : Type) where
  ch0 : α
  ch1 : α
  ch2 : α
  ch3 : α
  ch4 : α
  ch5 : α
  ch6 : α
  ch7 : α
deriving DecidableEq, Repr

/-- The entry of a channel. -/
def Eight.get {α : Type} (v : Eight α) : Chan → α
  | 0 => v.ch0
  | 1 => v.ch1
  | 2 => v.ch2
  | 3 => v.ch3
  | 4 => v.ch4
  | 5 => v.ch5
  | 6 => v.ch6
  | 7 => v.ch7

/-- The bank whose entry at each channel is given by a rule. -/
def Eight.tab {α : Type} (f : Chan → α) : Eight α :=
  ⟨f 0, f 1, f 2, f 3, f 4, f 5, f 6, f 7⟩

/-- The bank with one entry replaced. -/
def Eight.set {α : Type} (v : Eight α) (c : Chan) (a : α) : Eight α :=
  Eight.tab fun d => if d = c then a else v.get d

end Sys2Proof
end

