-- ==== Sys2Proof/Syntax.lean ====
section
/-! DEFINITION. The instructions: one constructor per row of spec/opcode_table.json, its operands the
named bits of 30_encoding.md R71. A bit that no field covers is ignored (R73) and is no operand; the
address bits and the value of a write to an undefined address are kept as operands. -/

namespace Sys2Proof

/-- The port operations that have a trace word (30_encoding.md R66, R68, R74). -/
inductive Instr where
  /-- TEST, 0x01 (R111) -/
  | test (v : Byte)
  /-- KON, 0x08: the channel and one bit per operator (R112) -/
  | kon (ch : Chan) (m1 c1 m2 c2 : Bool)
  /-- NOISE, 0x0F (R113) -/
  | noise (ne : Bool) (nfrq : BitVec 5)
  /-- CLKA1, 0x10: bits 9:2 of the Timer A index (R114) -/
  | clka1 (hi : BitVec 8)
  /-- CLKA2, 0x11: bits 1:0 of the Timer A index (R115) -/
  | clka2 (lo : BitVec 2)
  /-- CLKB, 0x12 (R116) -/
  | clkb (tb : BitVec 8)
  /-- TCTL, 0x14, the control byte (R117) -/
  | tctl (csm clrB clrA runB runA : Bool)
  /-- LFRQ, 0x18 (R119) -/
  | lfrq (f : BitVec 8)
  /-- CTW, 0x1B (R122) -/
  | ctw (ct w : BitVec 2)
  /-- PMD, 0x19 with bit 7 of the value 1 (R120) -/
  | pmd (d : BitVec 7)
  /-- AMD, 0x19 with bit 7 of the value 0 (R121) -/
  | amd (d : BitVec 7)
  /-- RLFBCON, 0x20 + c (R123) -/
  | rlfbcon (c : Chan) (panR panL : Bool) (fb con : BitVec 3)
  /-- KC, 0x28 + c (R124) -/
  | kc (c : Chan) (code : BitVec 7)
  /-- KF, 0x30 + c (R125) -/
  | kf (c : Chan) (frac : BitVec 6)
  /-- PMSAMS, 0x38 + c (R126) -/
  | pmsams (c : Chan) (pms : BitVec 3) (ams : BitVec 2)
  /-- DT1MUL, 0x40 + 8*s + c (R127) -/
  | dt1mul (sl : Slot) (c : Chan) (dt1 : BitVec 3) (mul : BitVec 4)
  /-- TL, 0x60 + 8*s + c (R128) -/
  | tl (sl : Slot) (c : Chan) (level : BitVec 7)
  /-- KSAR, 0x80 + 8*s + c (R129) -/
  | ksar (sl : Slot) (c : Chan) (ks : BitVec 2) (ar : BitVec 5)
  /-- AMSEND1R, 0xA0 + 8*s + c (R130) -/
  | amsend1r (sl : Slot) (c : Chan) (amsen : Bool) (d1r : BitVec 5)
  /-- DT2D2R, 0xC0 + 8*s + c (R131) -/
  | dt2d2r (sl : Slot) (c : Chan) (dt2 : BitVec 2) (d2r : BitVec 5)
  /-- D1LRR, 0xE0 + 8*s + c (R132) -/
  | d1lrr (sl : Slot) (c : Chan) (d1l rr : BitVec 4)
  /-- undefined address 0x00 (R118) -/
  | undef00 (v : Byte)
  /-- undefined addresses 0x02-0x03 (R118); `a` is the low address bit -/
  | undef02 (a : BitVec 1) (v : Byte)
  /-- undefined addresses 0x04-0x07 (R118); `a` is the two low address bits -/
  | undef04 (a : BitVec 2) (v : Byte)
  /-- undefined address 0x09 (R118) -/
  | undef09 (v : Byte)
  /-- undefined addresses 0x0A-0x0B (R118) -/
  | undef0a (a : BitVec 1) (v : Byte)
  /-- undefined addresses 0x0C-0x0D (R118) -/
  | undef0c (a : BitVec 1) (v : Byte)
  /-- undefined address 0x0E (R118) -/
  | undef0e (v : Byte)
  /-- undefined address 0x13 (R118) -/
  | undef13 (v : Byte)
  /-- undefined address 0x15 (R118) -/
  | undef15 (v : Byte)
  /-- undefined addresses 0x16-0x17 (R118) -/
  | undef16 (a : BitVec 1) (v : Byte)
  /-- undefined address 0x1A (R118) -/
  | undef1a (v : Byte)
  /-- undefined addresses 0x1C-0x1F (R118) -/
  | undef1c (a : BitVec 2) (v : Byte)
  /-- RDS, the status read (R252) -/
  | rds
  /-- TICK n: n consecutive sample ticks (R230, R241) -/
  | tick (n : Nat)
  /-- RST, the reset (R270) -/
  | rst
deriving DecidableEq, Repr

end Sys2Proof
end

