-- ==== Sys2Proof/WellFormed.lean ====
section
/-! DEFINITION. Which instructions have a trace word. The widths of the register fields, the channel and
the slot are in the operand types; the one operand that is a plain number is the tick count. -/

namespace Sys2Proof

/-- The tick count of `TICK n` fits the 16-bit payload: `0 .. 65535` (30_encoding.md R68). -/
def tickCountFits (n : Nat) : Bool := n < 65536

/-- An instruction is well-formed when it has a trace word (30_encoding.md R68, R71). -/
def Instr.wellFormed : Instr → Bool
  | .tick n => tickCountFits n
  | .test _ | .kon _ _ _ _ _ | .noise _ _ | .clka1 _ | .clka2 _ | .clkb _ | .tctl _ _ _ _ _
  | .lfrq _ | .ctw _ _ | .pmd _ | .amd _ | .rlfbcon _ _ _ _ _ | .kc _ _ | .kf _ _ | .pmsams _ _ _
  | .dt1mul _ _ _ _ | .tl _ _ _ | .ksar _ _ _ _ | .amsend1r _ _ _ _ | .dt2d2r _ _ _ _
  | .d1lrr _ _ _ _ | .undef00 _ | .undef02 _ _ | .undef04 _ _ | .undef09 _ | .undef0a _ _
  | .undef0c _ _ | .undef0e _ | .undef13 _ | .undef15 _ | .undef16 _ _ | .undef1a _ | .undef1c _ _
  | .rds | .rst => true

end Sys2Proof
end

