-- ==== Sys2Proof/Decode.lean ====
section
/-! DEFINITION. The decoder of trace words, total, rejecting by name; then the encoder and the
pseudo-operations, written from the same tables (30_encoding.md R67 to R74, R78). -/

namespace Sys2Proof

/-- `n` bits of a number from bit `lo` up: `v[lo+n-1:lo]` (00_scope.md R4). -/
def bits (v lo n : Nat) : BitVec n := BitVec.ofNat n (v / 2 ^ lo)

/-- One bit of a number, `v[i]` (00_scope.md R4). -/
def bit (v i : Nat) : Bool := v / 2 ^ i % 2 == 1

/-- The value of a one-bit field. -/
def ofBit (b : Bool) : Nat := if b then 1 else 0

/-- The channel in three bits of a number (30_encoding.md R70). -/
def chanAt (v lo : Nat) : Chan := (bits v lo 3).toFin

/-- The operator a slot number selects: 00 M1, 01 M2, 10 C1, 11 C2 (10_state.md R11). -/
def slotOfNumber : Nat → Slot
  | 0 => .m1
  | 1 => .m2
  | 2 => .c1
  | _ => .c2

/-- The number of an operator (10_state.md R11). -/
def slotNumber : Slot → Nat
  | .m1 => 0
  | .m2 => 1
  | .c1 => 2
  | .c2 => 3

/-- The operator number in two bits of a number (30_encoding.md R70). -/
def slotAt (v lo : Nat) : Slot := slotOfNumber (v / 2 ^ lo % 4)

/-- Why a word is not a trace word. -/
inductive DecodeError where
  /-- kind 01 or 11 with a non-zero payload (30_encoding.md R68) -/
  | payloadNotZero
deriving DecidableEq, Repr

/-- The global registers 0x00-0x1F: the whole address selects (30_encoding.md R70, 20_memory.md R56).
At 0x19 bit 7 of the value chooses between PMD and AMD (R79). -/
def decodeGlobal (addr v : Nat) : Instr :=
  match addr with
  | 0x00 => .undef00 (bits v 0 8)
  | 0x01 => .test (bits v 0 8)
  | 0x02 => .undef02 (bits addr 0 1) (bits v 0 8)
  | 0x03 => .undef02 (bits addr 0 1) (bits v 0 8)
  | 0x04 => .undef04 (bits addr 0 2) (bits v 0 8)
  | 0x05 => .undef04 (bits addr 0 2) (bits v 0 8)
  | 0x06 => .undef04 (bits addr 0 2) (bits v 0 8)
  | 0x07 => .undef04 (bits addr 0 2) (bits v 0 8)
  | 0x08 => .kon (chanAt v 0) (bit v 3) (bit v 4) (bit v 5) (bit v 6)
  | 0x09 => .undef09 (bits v 0 8)
  | 0x0A => .undef0a (bits addr 0 1) (bits v 0 8)
  | 0x0B => .undef0a (bits addr 0 1) (bits v 0 8)
  | 0x0C => .undef0c (bits addr 0 1) (bits v 0 8)
  | 0x0D => .undef0c (bits addr 0 1) (bits v 0 8)
  | 0x0E => .undef0e (bits v 0 8)
  | 0x0F => .noise (bit v 7) (bits v 0 5)
  | 0x10 => .clka1 (bits v 0 8)
  | 0x11 => .clka2 (bits v 0 2)
  | 0x12 => .clkb (bits v 0 8)
  | 0x13 => .undef13 (bits v 0 8)
  | 0x14 => .tctl (bit v 7) (bit v 5) (bit v 4) (bit v 1) (bit v 0)
  | 0x15 => .undef15 (bits v 0 8)
  | 0x16 => .undef16 (bits addr 0 1) (bits v 0 8)
  | 0x17 => .undef16 (bits addr 0 1) (bits v 0 8)
  | 0x18 => .lfrq (bits v 0 8)
  | 0x19 => if bit v 7 then .pmd (bits v 0 7) else .amd (bits v 0 7)
  | 0x1A => .undef1a (bits v 0 8)
  | 0x1B => .ctw (bits v 6 2) (bits v 0 2)
  | _ => .undef1c (bits addr 0 2) (bits v 0 8)

/-- The per-channel registers 0x20-0x3F: `addr[4:3]` the kind, `addr[2:0]` the channel
(30_encoding.md R70, R71). -/
def decodeChannel (addr v : Nat) : Instr :=
  let c := chanAt addr 0
  match addr / 8 % 4 with
  | 0 => .rlfbcon c (bit v 7) (bit v 6) (bits v 3 3) (bits v 0 3)
  | 1 => .kc c (bits v 0 7)
  | 2 => .kf c (bits v 2 6)
  | _ => .pmsams c (bits v 4 3) (bits v 0 2)

/-- The per-operator registers 0x40-0xFF: `addr[7:5]` the kind, `addr[4:3]` the operator, `addr[2:0]`
the channel (30_encoding.md R70, R71). -/
def decodeOperator (addr v : Nat) : Instr :=
  let c := chanAt addr 0
  let sl := slotAt addr 3
  match addr / 32 with
  | 2 => .dt1mul sl c (bits v 4 3) (bits v 0 4)
  | 3 => .tl sl c (bits v 0 7)
  | 4 => .ksar sl c (bits v 6 2) (bits v 0 5)
  | 5 => .amsend1r sl c (bit v 7) (bits v 0 5)
  | 6 => .dt2d2r sl c (bits v 6 2) (bits v 0 5)
  | _ => .d1lrr sl c (bits v 4 4) (bits v 0 4)

/-- Format W: the register write of an address and a value; total, no state, no error
(30_encoding.md R67, R69, R75, R79). -/
def decodeWrite (addr v : Nat) : Instr :=
  match addr / 32 with
  | 0 => decodeGlobal addr v
  | 1 => decodeChannel addr v
  | _ => decodeOperator addr v

/-- Format T: kind in bits 17:16, payload in bits 15:0 (30_encoding.md R68, R74). Every word of kind 00
or 10 decodes; of kinds 01 and 11 only the word with payload 0. -/
def decode (w : TraceWord) : Except DecodeError Instr :=
  let payload := w.toNat % 65536
  match w.toNat / 65536 with
  | 0 => .ok (decodeWrite (payload / 256) (payload % 256))
  | 1 => if payload = 0 then .ok .rds else .error .payloadNotZero
  | 2 => .ok (.tick payload)
  | _ => if payload = 0 then .ok .rst else .error .payloadNotZero

/-- The trace word whose bits are the low 18 bits of the number the opcode table's numbering gives: bit 0
is the least significant bit, and bits above `nbits` are 0. A trace word is one word, carried by no port and
laid out in no bytes (30_encoding.md R68; log 19). -/
def tableWord (nbits w : Nat) : TraceWord := BitVec.ofNat 18 (w % 2 ^ nbits)

/-- The instruction the decoder reads from a word of the opcode table. -/
def decodeTableWord (nbits w : Nat) : Option Instr :=
  match decode (tableWord nbits w) with
  | .ok i => some i
  | .error _ => none

/-! ### The encoder -/

/-- The trace word of a register write, `{00, addr, v}` (30_encoding.md R67, R68). -/
def writeWord (addr v : Nat) : TraceWord := BitVec.ofNat 18 (256 * addr + v)

/-- The address of a per-operator register from its kind's first address: `base + 8*s + c`
(20_memory.md R56). -/
def operatorAddr (base : Nat) (sl : Slot) (c : Chan) : Nat := base + 8 * slotNumber sl + c.val

/-- The word of an instruction, ignored bits 0 (30_encoding.md R71). A tick count that does not fit its
payload is reduced modulo 65536: `TICK n` has a word only when well-formed. -/
def encode : Instr → TraceWord
  | .test v => writeWord 0x01 v.toNat
  | .kon ch m1 c1 m2 c2 =>
      writeWord 0x08 (64 * ofBit c2 + 32 * ofBit m2 + 16 * ofBit c1 + 8 * ofBit m1 + ch.val)
  | .noise ne nfrq => writeWord 0x0F (128 * ofBit ne + nfrq.toNat)
  | .clka1 hi => writeWord 0x10 hi.toNat
  | .clka2 lo => writeWord 0x11 lo.toNat
  | .clkb tb => writeWord 0x12 tb.toNat
  | .tctl csm clrB clrA runB runA =>
      writeWord 0x14 (128 * ofBit csm + 32 * ofBit clrB + 16 * ofBit clrA + 2 * ofBit runB + ofBit runA)
  | .lfrq f => writeWord 0x18 f.toNat
  | .ctw ct w => writeWord 0x1B (64 * ct.toNat + w.toNat)
  | .pmd d => writeWord 0x19 (128 + d.toNat)
  | .amd d => writeWord 0x19 d.toNat
  | .rlfbcon c panR panL fb con =>
      writeWord (0x20 + c.val) (128 * ofBit panR + 64 * ofBit panL + 8 * fb.toNat + con.toNat)
  | .kc c code => writeWord (0x28 + c.val) code.toNat
  | .kf c frac => writeWord (0x30 + c.val) (4 * frac.toNat)
  | .pmsams c pms ams => writeWord (0x38 + c.val) (16 * pms.toNat + ams.toNat)
  | .dt1mul sl c dt1 mul => writeWord (operatorAddr 0x40 sl c) (16 * dt1.toNat + mul.toNat)
  | .tl sl c level => writeWord (operatorAddr 0x60 sl c) level.toNat
  | .ksar sl c ks ar => writeWord (operatorAddr 0x80 sl c) (64 * ks.toNat + ar.toNat)
  | .amsend1r sl c amsen d1r => writeWord (operatorAddr 0xA0 sl c) (128 * ofBit amsen + d1r.toNat)
  | .dt2d2r sl c dt2 d2r => writeWord (operatorAddr 0xC0 sl c) (64 * dt2.toNat + d2r.toNat)
  | .d1lrr sl c d1l rr => writeWord (operatorAddr 0xE0 sl c) (16 * d1l.toNat + rr.toNat)
  | .undef00 v => writeWord 0x00 v.toNat
  | .undef02 a v => writeWord (0x02 + a.toNat) v.toNat
  | .undef04 a v => writeWord (0x04 + a.toNat) v.toNat
  | .undef09 v => writeWord 0x09 v.toNat
  | .undef0a a v => writeWord (0x0A + a.toNat) v.toNat
  | .undef0c a v => writeWord (0x0C + a.toNat) v.toNat
  | .undef0e v => writeWord 0x0E v.toNat
  | .undef13 v => writeWord 0x13 v.toNat
  | .undef15 v => writeWord 0x15 v.toNat
  | .undef16 a v => writeWord (0x16 + a.toNat) v.toNat
  | .undef1a v => writeWord 0x1A v.toNat
  | .undef1c a v => writeWord (0x1C + a.toNat) v.toNat
  | .rds => 0x10000#18
  | .tick n => BitVec.ofNat 18 (0x20000 + n % 65536)
  | .rst => 0x30000#18

/-! ### Pseudo-operations that expand to register writes (30_encoding.md R78) -/

/-- `WR addr, v`: the pair of format W offered by a host, its value reduced modulo 256
(41_register_writes.md R110). -/
def pseudoWR (addr : Byte) (v : Nat) : TraceWord := writeWord addr.toNat (v % 256)

/-- `KEYON c, m1 m2 c1 c2` -/
def pseudoKeyOn (c : Chan) (m1 m2 c1 c2 : Bool) : List TraceWord :=
  [writeWord 0x08 (64 * ofBit c2 + 32 * ofBit m2 + 16 * ofBit c1 + 8 * ofBit m1 + c.val)]

/-- `KEYOFF c` -/
def pseudoKeyOff (c : Chan) : List TraceWord := [writeWord 0x08 c.val]

/-- `TIMERA n`: `0x10 = n >> 2` then `0x11 = n & 3` -/
def pseudoTimerA (n : BitVec 10) : List TraceWord :=
  [writeWord 0x10 (n.toNat / 4), writeWord 0x11 (n.toNat % 4)]

/-- `TIMERB n` -/
def pseudoTimerB (n : BitVec 8) : List TraceWord := [writeWord 0x12 n.toNat]

/-- `PMD d`: `0x19 = 0x80 or d` -/
def pseudoPMD (d : BitVec 7) : List TraceWord := [writeWord 0x19 (128 + d.toNat)]

/-- `AMD d`: `0x19 = d` -/
def pseudoAMD (d : BitVec 7) : List TraceWord := [writeWord 0x19 d.toNat]

/-! ### The opcode table (spec/opcode_table.json) -/

/-- The `match` of an instruction's row. -/
def rowMatch : Instr → TraceWord
  | .test _ => 0x00100#18
  | .kon _ _ _ _ _ => 0x00800#18
  | .noise _ _ => 0x00F00#18
  | .clka1 _ => 0x01000#18
  | .clka2 _ => 0x01100#18
  | .clkb _ => 0x01200#18
  | .tctl _ _ _ _ _ => 0x01400#18
  | .lfrq _ => 0x01800#18
  | .ctw _ _ => 0x01B00#18
  | .pmd _ => 0x01980#18
  | .amd _ => 0x01900#18
  | .rlfbcon _ _ _ _ _ => 0x02000#18
  | .kc _ _ => 0x02800#18
  | .kf _ _ => 0x03000#18
  | .pmsams _ _ _ => 0x03800#18
  | .dt1mul _ _ _ _ => 0x04000#18
  | .tl _ _ _ => 0x06000#18
  | .ksar _ _ _ _ => 0x08000#18
  | .amsend1r _ _ _ _ => 0x0A000#18
  | .dt2d2r _ _ _ _ => 0x0C000#18
  | .d1lrr _ _ _ _ => 0x0E000#18
  | .undef00 _ => 0x00000#18
  | .undef02 _ _ => 0x00200#18
  | .undef04 _ _ => 0x00400#18
  | .undef09 _ => 0x00900#18
  | .undef0a _ _ => 0x00A00#18
  | .undef0c _ _ => 0x00C00#18
  | .undef0e _ => 0x00E00#18
  | .undef13 _ => 0x01300#18
  | .undef15 _ => 0x01500#18
  | .undef16 _ _ => 0x01600#18
  | .undef1a _ => 0x01A00#18
  | .undef1c _ _ => 0x01C00#18
  | .rds => 0x10000#18
  | .tick _ => 0x20000#18
  | .rst => 0x30000#18

/-- The `mask` of an instruction's row: the bits `match` fixes. -/
def rowMask : Instr → TraceWord
  | .test _ => 0x3FF00#18
  | .kon _ _ _ _ _ => 0x3FF00#18
  | .noise _ _ => 0x3FF00#18
  | .clka1 _ => 0x3FF00#18
  | .clka2 _ => 0x3FF00#18
  | .clkb _ => 0x3FF00#18
  | .tctl _ _ _ _ _ => 0x3FF00#18
  | .lfrq _ => 0x3FF00#18
  | .ctw _ _ => 0x3FF00#18
  | .pmd _ => 0x3FF80#18
  | .amd _ => 0x3FF80#18
  | .rlfbcon _ _ _ _ _ => 0x3F800#18
  | .kc _ _ => 0x3F800#18
  | .kf _ _ => 0x3F800#18
  | .pmsams _ _ _ => 0x3F800#18
  | .dt1mul _ _ _ _ => 0x3E000#18
  | .tl _ _ _ => 0x3E000#18
  | .ksar _ _ _ _ => 0x3E000#18
  | .amsend1r _ _ _ _ => 0x3E000#18
  | .dt2d2r _ _ _ _ => 0x3E000#18
  | .d1lrr _ _ _ _ => 0x3E000#18
  | .undef00 _ => 0x3FF00#18
  | .undef02 _ _ => 0x3FE00#18
  | .undef04 _ _ => 0x3FC00#18
  | .undef09 _ => 0x3FF00#18
  | .undef0a _ _ => 0x3FE00#18
  | .undef0c _ _ => 0x3FE00#18
  | .undef0e _ => 0x3FF00#18
  | .undef13 _ => 0x3FF00#18
  | .undef15 _ => 0x3FF00#18
  | .undef16 _ _ => 0x3FE00#18
  | .undef1a _ => 0x3FF00#18
  | .undef1c _ _ => 0x3FC00#18
  | .rds => 0x3FFFF#18
  | .tick _ => 0x30000#18
  | .rst => 0x3FFFF#18

/-- The bits that some field of an instruction's row names. The address bits of the undefined blocks are
neither fixed nor named there. -/
def fieldMask : Instr → TraceWord
  | .test _ => 0x000FF#18
  | .kon _ _ _ _ _ => 0x0007F#18
  | .noise _ _ => 0x0009F#18
  | .clka1 _ => 0x000FF#18
  | .clka2 _ => 0x00003#18
  | .clkb _ => 0x000FF#18
  | .tctl _ _ _ _ _ => 0x000B3#18
  | .lfrq _ => 0x000FF#18
  | .ctw _ _ => 0x000C3#18
  | .pmd _ => 0x0007F#18
  | .amd _ => 0x0007F#18
  | .rlfbcon _ _ _ _ _ => 0x007FF#18
  | .kc _ _ => 0x0077F#18
  | .kf _ _ => 0x007FC#18
  | .pmsams _ _ _ => 0x00773#18
  | .dt1mul _ _ _ _ => 0x01F7F#18
  | .tl _ _ _ => 0x01F7F#18
  | .ksar _ _ _ _ => 0x01FDF#18
  | .amsend1r _ _ _ _ => 0x01F9F#18
  | .dt2d2r _ _ _ _ => 0x01FDF#18
  | .d1lrr _ _ _ _ => 0x01FFF#18
  | .undef00 _ => 0x000FF#18
  | .undef02 _ _ => 0x000FF#18
  | .undef04 _ _ => 0x000FF#18
  | .undef09 _ => 0x000FF#18
  | .undef0a _ _ => 0x000FF#18
  | .undef0c _ _ => 0x000FF#18
  | .undef0e _ => 0x000FF#18
  | .undef13 _ => 0x000FF#18
  | .undef15 _ => 0x000FF#18
  | .undef16 _ _ => 0x000FF#18
  | .undef1a _ => 0x000FF#18
  | .undef1c _ _ => 0x000FF#18
  | .rds => 0x00000#18
  | .tick _ => 0x0FFFF#18
  | .rst => 0x00000#18

/-- The low address bits of a block of undefined addresses, which its row neither fixes nor names
(30_encoding.md R74). -/
def blockMask : Instr → TraceWord
  | .test _ => 0x00000#18
  | .kon _ _ _ _ _ => 0x00000#18
  | .noise _ _ => 0x00000#18
  | .clka1 _ => 0x00000#18
  | .clka2 _ => 0x00000#18
  | .clkb _ => 0x00000#18
  | .tctl _ _ _ _ _ => 0x00000#18
  | .lfrq _ => 0x00000#18
  | .ctw _ _ => 0x00000#18
  | .pmd _ => 0x00000#18
  | .amd _ => 0x00000#18
  | .rlfbcon _ _ _ _ _ => 0x00000#18
  | .kc _ _ => 0x00000#18
  | .kf _ _ => 0x00000#18
  | .pmsams _ _ _ => 0x00000#18
  | .dt1mul _ _ _ _ => 0x00000#18
  | .tl _ _ _ => 0x00000#18
  | .ksar _ _ _ _ => 0x00000#18
  | .amsend1r _ _ _ _ => 0x00000#18
  | .dt2d2r _ _ _ _ => 0x00000#18
  | .d1lrr _ _ _ _ => 0x00000#18
  | .undef00 _ => 0x00000#18
  | .undef02 _ _ => 0x00100#18
  | .undef04 _ _ => 0x00300#18
  | .undef09 _ => 0x00000#18
  | .undef0a _ _ => 0x00100#18
  | .undef0c _ _ => 0x00100#18
  | .undef0e _ => 0x00000#18
  | .undef13 _ => 0x00000#18
  | .undef15 _ => 0x00000#18
  | .undef16 _ _ => 0x00100#18
  | .undef1a _ => 0x00000#18
  | .undef1c _ _ => 0x00300#18
  | .rds => 0x00000#18
  | .tick _ => 0x00000#18
  | .rst => 0x00000#18

/-- The bits of an instruction's word that are not ignored (30_encoding.md R71, R73). -/
def usedBits (i : Instr) : TraceWord := rowMask i ||| fieldMask i ||| blockMask i

end Sys2Proof
end

