-- ==== Sys2Proof/Config.lean ====
section
/-! DEFINITION. What an implementation fixes: the parameters of 00_scope.md R3, the fixed sizes, and the
two values the spec leaves open (the LFO noise waveform and the frame buffer before its first frame). -/

namespace Sys2Proof

/-- The parameters of 00_scope.md R3 that have a value in the spec. They are fixed before reset, `RATE` and `FPS`
by an `INIT` where the run begins with one (30_encoding.md R78; log 9), and never change afterwards.
DESIGN CHOICE, safe: they are held as data beside the state, so that statements hold for every choice
(log 3). `OUT_GAIN` is the rational `gainNum / gainDen`. -/
structure Params where
  clock : Nat
  rate : Nat
  fps : Nat
  gainNum : Nat
  gainDen : Nat
  phaseincBase : List Nat
deriving DecidableEq, Repr

namespace Config

/-- The parameter `LFO_NOISE_WAVE` (40_tables.md R103, 43_lfo.md R166): 256 bytes that the spec does not
print and forbids to invent. A free value: no body, nothing is provable of a byte of it but its range
(log 4, safe). -/
opaque lfoNoiseWave : BitVec 8 → Byte

/-- What a sample of `H.buffer` holds before any `FRAME` has written it (10_state.md R46: undefined, no
value may be assumed). A free value, one signed 16-bit pattern per index (log 5, safe). -/
opaque unwrittenSample : Nat → BitVec 16

/-- `CLOCK`, default 4 000 000 Hz (00_scope.md R3; DESIGN CHOICE, log 3). -/
def defaultClock : Nat := 4000000

/-- `RATE`, the value of every example of the spec (00_scope.md R3; DESIGN CHOICE, log 3). -/
def defaultRate : Nat := 44100

/-- `FPS`, the value of every example of the spec (00_scope.md R3; DESIGN CHOICE, log 3). -/
def defaultFps : Nat := 60

end Config

end Sys2Proof
end

