-- ==== Sys2Proof/Machine/Tables.lean ====
section
/-! DEFINITION. Every lookup table `T.*` of 40_tables.md, as a function of the parameters: read-only,
no state (10_state.md R49, 40_tables.md R85, R104). The three tables with a real-valued formula are the literal
integers of 48_table_values.md, row by row (R105). Every index a rule forms is in range (20_memory.md R63);
outside a table's range a lookup gives 0, which nothing relies on (log 18). -/

namespace Sys2Proof.Machine

/-- Entry `i` of a table written in rows of 16. -/
def rowLookup (rows : List (List Nat)) (i : Nat) : Nat := (rows.getD (i / 16) []).getD (i % 16) 0

/-! ### Attenuation and sine -/

/-- `T.tl[2*x]` for `x = 0 .. 255`: tier 0, positive entries (48_table_values.md R290). -/
def tlRows : List (List Nat) := [
    [8168, 8148, 8124, 8104, 8080, 8060, 8040, 8016, 7996, 7972, 7952, 7932, 7908, 7888, 7864, 7844],
    [7824, 7804, 7780, 7760, 7740, 7720, 7696, 7676, 7656, 7636, 7616, 7592, 7572, 7552, 7532, 7512],
    [7492, 7472, 7452, 7432, 7412, 7392, 7372, 7352, 7332, 7312, 7292, 7272, 7252, 7232, 7212, 7192],
    [7176, 7156, 7136, 7116, 7096, 7076, 7060, 7040, 7020, 7000, 6984, 6964, 6944, 6928, 6908, 6888],
    [6868, 6852, 6832, 6816, 6796, 6776, 6760, 6740, 6724, 6704, 6688, 6668, 6652, 6632, 6616, 6596],
    [6580, 6560, 6544, 6524, 6508, 6492, 6472, 6456, 6436, 6420, 6404, 6384, 6368, 6352, 6336, 6316],
    [6300, 6284, 6264, 6248, 6232, 6216, 6200, 6180, 6164, 6148, 6132, 6116, 6100, 6080, 6064, 6048],
    [6032, 6016, 6000, 5984, 5968, 5952, 5936, 5920, 5904, 5888, 5872, 5856, 5840, 5824, 5808, 5792],
    [5776, 5760, 5744, 5732, 5716, 5700, 5684, 5668, 5652, 5636, 5624, 5608, 5592, 5576, 5564, 5548],
    [5532, 5516, 5504, 5488, 5472, 5456, 5444, 5428, 5412, 5400, 5384, 5368, 5356, 5340, 5328, 5312],
    [5296, 5284, 5268, 5256, 5240, 5228, 5212, 5200, 5184, 5168, 5156, 5144, 5128, 5116, 5100, 5088],
    [5072, 5060, 5044, 5032, 5020, 5004, 4992, 4976, 4964, 4952, 4936, 4924, 4912, 4896, 4884, 4872],
    [4856, 4844, 4832, 4820, 4804, 4792, 4780, 4768, 4752, 4740, 4728, 4716, 4704, 4688, 4676, 4664],
    [4652, 4640, 4628, 4616, 4600, 4588, 4576, 4564, 4552, 4540, 4528, 4516, 4504, 4492, 4480, 4468],
    [4456, 4444, 4432, 4420, 4408, 4396, 4384, 4372, 4360, 4348, 4336, 4324, 4312, 4300, 4288, 4276],
    [4264, 4256, 4244, 4232, 4220, 4208, 4196, 4184, 4176, 4164, 4152, 4140, 4128, 4120, 4108, 4096]]

/-- `T.sin[i]` for `i = 0 .. 255` (48_table_values.md R291). -/
def sinRows : List (List Nat) := [
    [4274, 3462, 3086, 2838, 2652, 2504, 2380, 2274, 2182, 2100, 2026, 1958, 1898, 1840, 1788, 1738],
    [1692, 1650, 1608, 1570, 1534, 1498, 1464, 1434, 1402, 1374, 1344, 1318, 1292, 1266, 1242, 1218],
    [1196, 1174, 1152, 1132, 1112, 1092, 1072, 1054, 1036, 1018, 1002, 984, 968, 952, 936, 922],
    [906, 892, 878, 864, 850, 836, 822, 810, 798, 784, 772, 760, 750, 738, 726, 716],
    [704, 694, 682, 672, 662, 652, 642, 632, 622, 614, 604, 594, 586, 578, 568, 560],
    [552, 542, 534, 526, 518, 510, 502, 496, 488, 480, 472, 466, 458, 452, 444, 438],
    [430, 424, 418, 410, 404, 398, 392, 386, 380, 374, 368, 362, 356, 350, 344, 338],
    [334, 328, 322, 318, 312, 306, 302, 296, 292, 286, 282, 276, 272, 268, 262, 258],
    [254, 250, 244, 240, 236, 232, 228, 224, 220, 216, 212, 208, 204, 200, 196, 192],
    [188, 184, 182, 178, 174, 170, 166, 164, 160, 156, 154, 150, 148, 144, 140, 138],
    [134, 132, 128, 126, 124, 120, 118, 114, 112, 110, 106, 104, 102, 98, 96, 94],
    [92, 90, 86, 84, 82, 80, 78, 76, 74, 72, 70, 68, 66, 64, 62, 60],
    [58, 56, 54, 52, 50, 48, 46, 46, 44, 42, 40, 40, 38, 36, 34, 34],
    [32, 30, 30, 28, 26, 26, 24, 24, 22, 20, 20, 18, 18, 16, 16, 14],
    [14, 14, 12, 12, 10, 10, 10, 8, 8, 8, 6, 6, 6, 4, 4, 4],
    [4, 2, 2, 2, 2, 2, 2, 2, 0, 0, 0, 0, 0, 0, 0, 0]]

/-- `TL_TAB_LEN = 13 * 2 * 256` (40_tables.md R87). -/
def tlTabLen : Nat := 13 * 2 * 256

/-- `ENV_QUIET = TL_TAB_LEN >> 3` (40_tables.md R87). -/
def envQuiet : Nat := tlTabLen >>> 3

/-- `T.tl[p]`: tier `p div 512`, fine step `(p mod 512) div 2`, negated at odd `p` (40_tables.md R86, R87). -/
def tlTable (p : Nat) : Int :=
  let magnitude := rowLookup tlRows (p % 512 / 2) >>> (p / 512)
  if p % 2 = 0 then (magnitude : Int) else -(magnitude : Int)

/-- `T.sin[i]` for `i = 0 .. 1023`: the first quarter mirrored, and the second half the first with the
sign bit set (40_tables.md R88, 48_table_values.md R291). -/
def sinTable (i : Nat) : Nat :=
  let half := i % 512
  let quarter := if half < 256 then half else 511 - half
  rowLookup sinRows quarter + i / 512

/-- `T.d1l[i]`: `32 * i`, and 992 for the last (40_tables.md R89). -/
def d1lTable (i : Nat) : Nat := if i = 15 then 992 else 32 * i

/-! ### Frequency -/

/-- Rows 0 to 15 of the default `PHASEINC_BASE` (48_table_values.md R293). -/
def phaseincRows0 : List (List Nat) := [
    [1299, 1300, 1301, 1303, 1304, 1305, 1306, 1307, 1308, 1310, 1311, 1312, 1313, 1314, 1316, 1317],
    [1318, 1319, 1320, 1321, 1323, 1324, 1325, 1326, 1327, 1329, 1330, 1331, 1332, 1333, 1335, 1336],
    [1337, 1338, 1339, 1341, 1342, 1343, 1344, 1346, 1347, 1348, 1349, 1350, 1352, 1353, 1354, 1355],
    [1357, 1358, 1359, 1360, 1361, 1363, 1364, 1365, 1366, 1368, 1369, 1370, 1371, 1373, 1374, 1375],
    [1376, 1377, 1379, 1380, 1381, 1382, 1384, 1385, 1386, 1387, 1389, 1390, 1391, 1392, 1394, 1395],
    [1396, 1398, 1399, 1400, 1401, 1403, 1404, 1405, 1406, 1408, 1409, 1410, 1411, 1413, 1414, 1415],
    [1417, 1418, 1419, 1420, 1422, 1423, 1424, 1426, 1427, 1428, 1429, 1431, 1432, 1433, 1435, 1436],
    [1437, 1438, 1440, 1441, 1442, 1444, 1445, 1446, 1448, 1449, 1450, 1452, 1453, 1454, 1455, 1457],
    [1458, 1459, 1461, 1462, 1463, 1465, 1466, 1467, 1469, 1470, 1471, 1473, 1474, 1475, 1477, 1478],
    [1479, 1481, 1482, 1483, 1485, 1486, 1487, 1489, 1490, 1491, 1493, 1494, 1495, 1497, 1498, 1499],
    [1501, 1502, 1504, 1505, 1506, 1508, 1509, 1510, 1512, 1513, 1514, 1516, 1517, 1519, 1520, 1521],
    [1523, 1524, 1525, 1527, 1528, 1530, 1531, 1532, 1534, 1535, 1536, 1538, 1539, 1541, 1542, 1543],
    [1545, 1546, 1548, 1549, 1550, 1552, 1553, 1555, 1556, 1557, 1559, 1560, 1562, 1563, 1564, 1566],
    [1567, 1569, 1570, 1571, 1573, 1574, 1576, 1577, 1579, 1580, 1581, 1583, 1584, 1586, 1587, 1589],
    [1590, 1591, 1593, 1594, 1596, 1597, 1599, 1600, 1602, 1603, 1604, 1606, 1607, 1609, 1610, 1612],
    [1613, 1615, 1616, 1618, 1619, 1620, 1622, 1623, 1625, 1626, 1628, 1629, 1631, 1632, 1634, 1635]]

/-- Rows 16 to 31 of the default `PHASEINC_BASE` (48_table_values.md R293). -/
def phaseincRows1 : List (List Nat) := [
    [1637, 1638, 1640, 1641, 1643, 1644, 1646, 1647, 1648, 1650, 1651, 1653, 1654, 1656, 1657, 1659],
    [1660, 1662, 1663, 1665, 1666, 1668, 1669, 1671, 1672, 1674, 1675, 1677, 1679, 1680, 1682, 1683],
    [1685, 1686, 1688, 1689, 1691, 1692, 1694, 1695, 1697, 1698, 1700, 1701, 1703, 1704, 1706, 1708],
    [1709, 1711, 1712, 1714, 1715, 1717, 1718, 1720, 1721, 1723, 1725, 1726, 1728, 1729, 1731, 1732],
    [1734, 1736, 1737, 1739, 1740, 1742, 1743, 1745, 1747, 1748, 1750, 1751, 1753, 1754, 1756, 1758],
    [1759, 1761, 1762, 1764, 1766, 1767, 1769, 1770, 1772, 1774, 1775, 1777, 1778, 1780, 1782, 1783],
    [1785, 1786, 1788, 1790, 1791, 1793, 1794, 1796, 1798, 1799, 1801, 1803, 1804, 1806, 1807, 1809],
    [1811, 1812, 1814, 1816, 1817, 1819, 1821, 1822, 1824, 1825, 1827, 1829, 1830, 1832, 1834, 1835],
    [1837, 1839, 1840, 1842, 1844, 1845, 1847, 1849, 1850, 1852, 1854, 1855, 1857, 1859, 1860, 1862],
    [1864, 1865, 1867, 1869, 1871, 1872, 1874, 1876, 1877, 1879, 1881, 1882, 1884, 1886, 1887, 1889],
    [1891, 1893, 1894, 1896, 1898, 1899, 1901, 1903, 1905, 1906, 1908, 1910, 1911, 1913, 1915, 1917],
    [1918, 1920, 1922, 1924, 1925, 1927, 1929, 1931, 1932, 1934, 1936, 1938, 1939, 1941, 1943, 1945],
    [1946, 1948, 1950, 1952, 1953, 1955, 1957, 1959, 1960, 1962, 1964, 1966, 1967, 1969, 1971, 1973],
    [1975, 1976, 1978, 1980, 1982, 1984, 1985, 1987, 1989, 1991, 1993, 1994, 1996, 1998, 2000, 2002],
    [2003, 2005, 2007, 2009, 2011, 2012, 2014, 2016, 2018, 2020, 2021, 2023, 2025, 2027, 2029, 2031],
    [2032, 2034, 2036, 2038, 2040, 2042, 2044, 2045, 2047, 2049, 2051, 2053, 2055, 2056, 2058, 2060]]

/-- Rows 32 to 47 of the default `PHASEINC_BASE` (48_table_values.md R293). -/
def phaseincRows2 : List (List Nat) := [
    [2062, 2064, 2066, 2068, 2069, 2071, 2073, 2075, 2077, 2079, 2081, 2083, 2084, 2086, 2088, 2090],
    [2092, 2094, 2096, 2098, 2100, 2101, 2103, 2105, 2107, 2109, 2111, 2113, 2115, 2117, 2119, 2121],
    [2122, 2124, 2126, 2128, 2130, 2132, 2134, 2136, 2138, 2140, 2142, 2144, 2146, 2148, 2149, 2151],
    [2153, 2155, 2157, 2159, 2161, 2163, 2165, 2167, 2169, 2171, 2173, 2175, 2177, 2179, 2181, 2183],
    [2185, 2187, 2189, 2191, 2193, 2195, 2197, 2198, 2200, 2202, 2204, 2206, 2208, 2210, 2212, 2214],
    [2216, 2218, 2220, 2222, 2224, 2226, 2228, 2230, 2232, 2235, 2237, 2239, 2241, 2243, 2245, 2247],
    [2249, 2251, 2253, 2255, 2257, 2259, 2261, 2263, 2265, 2267, 2269, 2271, 2273, 2275, 2277, 2279],
    [2281, 2283, 2285, 2288, 2290, 2292, 2294, 2296, 2298, 2300, 2302, 2304, 2306, 2308, 2310, 2312],
    [2315, 2317, 2319, 2321, 2323, 2325, 2327, 2329, 2331, 2333, 2336, 2338, 2340, 2342, 2344, 2346],
    [2348, 2350, 2352, 2355, 2357, 2359, 2361, 2363, 2365, 2367, 2370, 2372, 2374, 2376, 2378, 2380],
    [2382, 2385, 2387, 2389, 2391, 2393, 2395, 2397, 2400, 2402, 2404, 2406, 2408, 2410, 2413, 2415],
    [2417, 2419, 2421, 2424, 2426, 2428, 2430, 2432, 2435, 2437, 2439, 2441, 2443, 2446, 2448, 2450],
    [2452, 2454, 2457, 2459, 2461, 2463, 2466, 2468, 2470, 2472, 2474, 2477, 2479, 2481, 2483, 2486],
    [2488, 2490, 2492, 2495, 2497, 2499, 2501, 2504, 2506, 2508, 2510, 2513, 2515, 2517, 2519, 2522],
    [2524, 2526, 2529, 2531, 2533, 2535, 2538, 2540, 2542, 2545, 2547, 2549, 2552, 2554, 2556, 2558],
    [2561, 2563, 2565, 2568, 2570, 2572, 2575, 2577, 2579, 2582, 2584, 2586, 2589, 2591, 2593, 2596]]

/-- The default `PHASEINC_BASE`, 768 entries (40_tables.md R93, 48_table_values.md R293). -/
def defaultPhaseincBase : List Nat := (phaseincRows0 ++ phaseincRows1 ++ phaseincRows2).flatten

/-- The low six bits cleared: `n & ~63` (40_tables.md R91). -/
def clearLow6 (n : Nat) : Nat := n / 64 * 64

/-- `ref[i] = floor(PHASEINC_BASE[i] * CLOCK / RATE) & ~63` (40_tables.md R91). -/
def freqRef (p : Params) (i : Nat) : Nat := clearLow6 (p.phaseincBase.getD i 0 * p.clock / p.rate)

/-- `T.freq[x]`, eleven blocks of 768: one below octave 0, octaves 0 to 7, two above (40_tables.md R91). -/
def freqTable (p : Params) (x : Nat) : Nat :=
  match x / 768 with
  | 0 => clearLow6 (freqRef p 0 >>> 2)
  | 1 => clearLow6 (freqRef p (x % 768) >>> 2)
  | 2 => clearLow6 (freqRef p (x % 768) >>> 1)
  | 3 => freqRef p (x % 768)
  | 4 => freqRef p (x % 768) <<< 1
  | 5 => freqRef p (x % 768) <<< 2
  | 6 => freqRef p (x % 768) <<< 3
  | 7 => freqRef p (x % 768) <<< 4
  | 8 => freqRef p (x % 768) <<< 5
  | 9 => freqRef p 767 <<< 5
  | 10 => freqRef p 767 <<< 5
  | _ => 0

/-- `DT1_BASE`, 4 rows of 32 (40_tables.md R94). -/
def dt1Base : List (List Nat) := [
    [0, 0, 0, 0, 0, 0, 0, 0, 0, 0, 0, 0, 0, 0, 0, 0, 0, 0, 0, 0, 0, 0, 0, 0, 0, 0, 0, 0, 0, 0, 0, 0],
    [0, 0, 0, 0, 1, 1, 1, 1, 1, 1, 1, 1, 2, 2, 2, 2, 2, 3, 3, 3, 4, 4, 4, 5, 5, 6, 6, 7, 8, 8, 8, 8],
    [1, 1, 1, 1, 2, 2, 2, 2, 2, 3, 3, 3, 4, 4, 4, 5, 5, 6, 6, 7, 8, 8, 9, 10, 11, 12, 13, 14, 16, 16, 16, 16],
    [2, 2, 2, 2, 2, 3, 3, 3, 4, 4, 4, 5, 5, 6, 6, 7, 8, 8, 9, 10, 11, 12, 13, 14, 16, 17, 19, 20, 22, 22, 22, 22]]

/-- `T.dt1[32*r + k]`, 4 rows of 32 (40_tables.md R92). -/
def dt1Table (p : Params) (i : Nat) : Nat :=
  (dt1Base.getD (i / 32) []).getD (i % 32) 0 * p.clock / p.rate

/-- `T.dt2[i]` (40_tables.md R95). -/
def dt2Table (i : Nat) : Nat := [0, 384, 500, 608].getD i 0

/-! ### Timers and noise -/

/-- `T.tim_a[i] = floor(64 * (1024 - i) * RATE * 65536 / CLOCK)` (40_tables.md R96). -/
def timATable (p : Params) (i : Nat) : Nat := 64 * (1024 - i) * p.rate * 65536 / p.clock

/-- `T.tim_b[i] = floor(1024 * (256 - i) * RATE * 65536 / CLOCK)` (40_tables.md R96). -/
def timBTable (p : Params) (i : Nat) : Nat := 1024 * (256 - i) * p.rate * 65536 / p.clock

/-- `T.noise[i] = floor(floor(2048 / (32 - min(i, 30))) * CLOCK / RATE)` (40_tables.md R97). -/
def noiseTable (p : Params) (i : Nat) : Nat := 2048 / (32 - min i 30) * p.clock / p.rate

/-! ### Envelope -/

/-- `T.eg_inc`, 19 shapes of 8 increments (40_tables.md R98). -/
def egIncRows : List (List Nat) := [
    [0, 1, 0, 1, 0, 1, 0, 1], [0, 1, 0, 1, 1, 1, 0, 1], [0, 1, 1, 1, 0, 1, 1, 1], [0, 1, 1, 1, 1, 1, 1, 1],
    [1, 1, 1, 1, 1, 1, 1, 1], [1, 1, 1, 2, 1, 1, 1, 2], [1, 2, 1, 2, 1, 2, 1, 2], [1, 2, 2, 2, 1, 2, 2, 2],
    [2, 2, 2, 2, 2, 2, 2, 2], [2, 2, 2, 4, 2, 2, 2, 4], [2, 4, 2, 4, 2, 4, 2, 4], [2, 4, 4, 4, 2, 4, 4, 4],
    [4, 4, 4, 4, 4, 4, 4, 4], [4, 4, 4, 8, 4, 4, 4, 8], [4, 8, 4, 8, 4, 8, 4, 8], [4, 8, 8, 8, 4, 8, 8, 8],
    [8, 8, 8, 8, 8, 8, 8, 8], [16, 16, 16, 16, 16, 16, 16, 16], [0, 0, 0, 0, 0, 0, 0, 0]]

/-- `T.eg_inc[sel][i]` (40_tables.md R98). -/
def egInc (sel i : Nat) : Nat := (egIncRows.getD sel []).getD i 0

/-- `T.eg_sel[idx]`: the shape of a rate (40_tables.md R99). -/
def egSel (idx : Nat) : Nat :=
  if idx < 32 then 18
  else if idx < 80 then (idx - 32) % 4
  else if idx < 92 then idx - 76
  else 16

/-- `T.eg_sh[idx]`: the shift of a rate (40_tables.md R100). -/
def egSh (idx : Nat) : Nat :=
  if idx < 32 then 0
  else if idx < 80 then 11 - (idx - 32) / 4
  else 0

/-- `T.eg_timer_add = floor(65536 * CLOCK / (64 * RATE))` (40_tables.md R101). -/
def egTimerAdd (p : Params) : Nat := 65536 * p.clock / (64 * p.rate)

/-- `T.eg_timer_overflow = 3 * 65536` (40_tables.md R101). -/
def egTimerOverflow : Nat := 3 * 65536

/-! ### LFO -/

/-- `T.lfo_timer_add = floor(1024 * CLOCK / (64 * RATE))` (40_tables.md R102). -/
def lfoTimerAdd (p : Params) : Nat := 1024 * p.clock / (64 * p.rate)

/-- `T.lfo_noise[i] = LFO_NOISE_WAVE[i]` (40_tables.md R103). -/
def lfoNoiseTable (i : BitVec 8) : Nat := (Config.lfoNoiseWave i).toNat

/-! ### Parameters -/

/-- `FRAME = RATE div FPS` (00_scope.md R3). -/
def frameLen (p : Params) : Nat := p.rate / p.fps

/-- The default parameters (00_scope.md R3; DESIGN CHOICE, log 3). -/
def defaultParams : Params :=
  { clock := Config.defaultClock
    rate := Config.defaultRate
    fps := Config.defaultFps
    gainNum := 1
    gainDen := 1
    phaseincBase := defaultPhaseincBase }

end Sys2Proof.Machine
end

