-- ==== Sys2Proof/Machine/State.lean ====
section
/-! DEFINITION. The state of the machine (10_state.md R10) as plain data, the reasons a step can stop,
and the state after reset (10_state.md section 8, 70_reset_and_hazards.md R270, R271). -/

namespace Sys2Proof.Machine

/-- The five envelope states (10_state.md R24). -/
inductive EnvState where
  | off
  | release
  | decay2
  | decay1
  | attack
deriving DecidableEq, Repr

/-- The CSM request latch (10_state.md R44). -/
inductive CsmReq where
  | idle
  | keyOffPending
  | keyOnPending
deriving DecidableEq, Repr

/-- One operator record `OP[c][s]`: the eleven programmable fields (10_state.md R12 to R22) and the
dynamic ones (R23 to R26). -/
structure Operator where
  dt1 : BitVec 3
  mul : BitVec 4
  tl : BitVec 7
  ks : BitVec 2
  ar : BitVec 5
  amsen : Bool
  d1r : BitVec 5
  dt2 : BitVec 2
  d2r : BitVec 5
  d1l : BitVec 4
  rr : BitVec 4
  key : BitVec 2
  env : EnvState
  volume : Nat
  phase : BitVec 32
deriving DecidableEq, Repr

/-- One channel record `CH[c]` (10_state.md R29 to R34, R36), with the feedback history of the channel's
operator M1, `OP[c][M1].fb_prev` and `OP[c][M1].fb_curr`, which no other operator has (R27; log 16). -/
structure Channel where
  con : BitVec 3
  fb : BitVec 3
  panL : Bool
  panR : Bool
  kc : BitVec 7
  kf : BitVec 6
  pms : BitVec 3
  ams : BitVec 2
  mem : Int
  fbPrev : Int
  fbCurr : Int
deriving DecidableEq, Repr

/-- The global record `G` (10_state.md R37 to R45). -/
structure Global where
  egTimer : Nat
  egCnt : BitVec 32
  lfrq : BitVec 8
  pmd : BitVec 7
  amd : BitVec 7
  w : BitVec 2
  lfoTimer : Nat
  lfoCounter : Nat
  lfoPhase : BitVec 8
  lfa : Nat
  lfp : Int
  test : Byte
  ct : BitVec 2
  ne : Bool
  nfrq : BitVec 5
  noiseRng : BitVec 17
  noiseP : Nat
  taIdx : BitVec 10
  taRun : Bool
  taVal : Int
  tbIdx : BitVec 8
  tbRun : Bool
  tbVal : Int
  csmEn : Bool
  csmReq : CsmReq
  status : BitVec 2
deriving DecidableEq, Repr

/-- One cell of the frame buffer: a sample index and the sample written there (20_memory.md R51, R64). -/
abbrev Cell := Nat × Sample

/-- The frame buffer `H.buffer`, the machine's only memory: cells in one canonical form, indices strictly
rising. An index without a cell has no value: nothing has written it (10_state.md R46; log 5, log 6). -/
abbrev Memory := List Cell

/-- The host-side record `H` (10_state.md R46). -/
structure HostRecord where
  ready : Bool
  buffer : Memory
deriving DecidableEq, Repr

/-- A port operation as the host or the sample clock presents it (30_encoding.md R66): a trace word, a
`FRAME` (47_sample_tick.md R240), or the pseudo-operation `INIT rate, fps` (30_encoding.md R78). -/
inductive PortOp where
  | word (w : TraceWord)
  | frame
  | init (rate fps : Nat)
deriving DecidableEq, Repr

/-- One result a run lets the host observe (30_encoding.md R66). -/
inductive Observation where
  /-- the byte an `RDS` returned (60_exceptions.md R252) -/
  | status (value : Byte)
  /-- the pair `(out_l, out_r)` a tick returned (47_sample_tick.md R234) -/
  | sample (left right : Sample)
deriving DecidableEq, Repr

/-- The state of the machine (10_state.md R10): operators, channels, the global record, the host-side
record; then the parameters, which only an `INIT` before the first reset fixes (00_scope.md R3; log 3, log 9); then the model's
own two fields, the operations still to be performed (log 1) and the results observed, newest first
(log 7). -/
structure State where
  op : Eight (Four Operator)
  ch : Eight Channel
  g : Global
  h : HostRecord
  params : Params
  pending : List PortOp
  observed : List Observation
deriving DecidableEq, Repr

/-- The operation a `Fault(UseBeforeInit)` records (60_exceptions.md R251). -/
inductive Attempt where
  | instr (i : Instr)
  | frame
deriving DecidableEq, Repr

/-- What a `ConfigError` records: "the name of the offending parameter" (60_exceptions.md R251, R256). For
`RATE < FPS` with neither 0 the spec does not say which of the two it is: the model names the pair, by a fourth
name (DESIGN CHOICE, unsafe for a claim about the name; log 10). -/
inductive BadParameter where
  | rate
  | fps
  | clock
  /-- `RATE < FPS`, neither of them 0: the model's name for the pair (log 10) -/
  | rateBelowFps
deriving DecidableEq, Repr

/-- The two conditions that stop a run (60_exceptions.md R250, R251). -/
inductive Fault where
  /-- code 1: raised by every port operation but `RST` while `H.ready = 0`; terminal, no state change.
  Safe: the spec names it (60_exceptions.md R255). -/
  | useBeforeInit (attempted : Attempt)
  /-- code 2: raised by `RST` (and `INIT`) on a bad parameter; terminal, no state change. Safe: the spec
  names it (60_exceptions.md R256). -/
  | configError (bad : BadParameter)
deriving DecidableEq, Repr

/-- What the model has no meaning for. -/
inductive Refusal where
  /-- raised by `exec` for an instruction without a meaning yet; safe. No arm raises it. -/
  | notModelled (mnemonic : String)
  /-- raised by `step` for a pending 18-bit word of kind 01 or 11 with a non-zero payload, which is no trace
  word and is never executed (30_encoding.md R68); safe. -/
  | notATraceWord (w : TraceWord)
  /-- raised by `step` for an `INIT` with other values on a machine already reset, whose parameters never change
  (00_scope.md R3); safe: no run of one hardware holds such an operation (log 9). -/
  | parametersFixed (rate fps : Nat)
deriving DecidableEq, Repr

/-- An operator after reset: every field 0, state Off, volume 1023 (10_state.md section 8). -/
def Operator.reset : Operator :=
  { dt1 := 0, mul := 0, tl := 0, ks := 0, ar := 0, amsen := false, d1r := 0, dt2 := 0, d2r := 0, d1l := 0,
    rr := 0, key := 0, env := .off, volume := 1023, phase := 0 }

/-- A channel after reset: every field 0 (10_state.md section 8). -/
def Channel.reset : Channel :=
  { con := 0, fb := 0, panL := false, panR := false, kc := 0, kf := 0, pms := 0, ams := 0, mem := 0,
    fbPrev := 0, fbCurr := 0 }

/-- The global record after reset: every field 0 (10_state.md section 8). -/
def Global.reset : Global :=
  { egTimer := 0, egCnt := 0, lfrq := 0, pmd := 0, amd := 0, w := 0, lfoTimer := 0, lfoCounter := 0,
    lfoPhase := 0, lfa := 0, lfp := 0, test := 0, ct := 0, ne := false, nfrq := 0, noiseRng := 0,
    noiseP := 0, taIdx := 0, taRun := false, taVal := 0, tbIdx := 0, tbRun := false, tbVal := 0,
    csmEn := false, csmReq := .idle, status := 0 }

/-- The machine right after `RST` from power-up, at the default parameters (70_reset_and_hazards.md R270,
R271): `H.ready = 1`, nothing written to the frame buffer, no operation pending and nothing observed
(log 1, log 3, log 5, log 7, log 21). -/
def State.reset : State :=
  { op := Eight.tab fun _ => Four.tab fun _ => Operator.reset
    ch := Eight.tab fun _ => Channel.reset
    g := Global.reset
    h := { ready := true, buffer := [] }
    params := defaultParams
    pending := []
    observed := [] }

end Sys2Proof.Machine
end

