-- ==== Sys2Proof/Machine/Ops.lean ====
section
/-! DEFINITION. The named operations of the machine: the two faults, the frame buffer as memory, the
parameter check of reset, and the recording of a result. The hardware has no trap entry and no return from one
(60_exceptions.md R258, R259): what stands in their place is the fault of an operation before reset. -/

namespace Sys2Proof.Machine

/-- What one operation of the machine answers. -/
abbrev Result := Host.Outcome State Fault Refusal

/-! ### Faults -/

/-- The codes of the two faults (60_exceptions.md R251). -/
def faultCode : Fault → Nat
  | .useBeforeInit _ => 1
  | .configError _ => 2

/-- The head of every operation but `RST`: `if H.ready = 0 then raise Fault(UseBeforeInit)`
(60_exceptions.md R255). The one shared entry of a fault: terminal, no state change. -/
def whenReady (attempted : Attempt) (s : State) (next : State) : Result :=
  if s.h.ready then .next next else .fault (.useBeforeInit attempted)

/-- The parameter check at the head of `RST` (60_exceptions.md R256). That it names the first bad parameter in
the order of the rule where several are bad, and the pair where `RATE < FPS` and neither is 0, is the model's
choice (DESIGN CHOICE, unsafe for a claim about the name; log 10). -/
def badParameter (p : Params) : Option BadParameter :=
  if p.rate = 0 then some .rate
  else if p.fps = 0 then some .fps
  else if p.clock = 0 then some .clock
  else if p.rate < p.fps then some .rateBelowFps
  else none

/-! ### The frame buffer -/

/-- The sample written at an index, if any `FRAME` has written it (20_memory.md R64). -/
def Memory.read : Memory → Nat → Option Sample
  | [], _ => none
  | (j, v) :: rest, i => if j = i then some v else Memory.read rest i

/-- The buffer with the sample at one index written; the form stays canonical (20_memory.md R51). -/
def Memory.write : Memory → Nat → Sample → Memory
  | [], i, v => [(i, v)]
  | (j, u) :: rest, i, v =>
      if i < j then (i, v) :: (j, u) :: rest
      else if i = j then (i, v) :: rest
      else (j, u) :: Memory.write rest i v

/-- The canonical form: indices strictly rising. An index without a cell has no value, so no cell can equal
what an unlisted index reads as. -/
def Memory.wf : Memory → Bool
  | [] => true
  | [_] => true
  | (i, _) :: (j, v) :: rest => decide (i < j) && Memory.wf ((j, v) :: rest)

/-- The host's read of `H.buffer[i]` (47_sample_tick.md R243): the sample written there, or a free value
where no `FRAME` has written (10_state.md R46; log 5). -/
def getBufferAt (s : State) (i : Nat) : Sample :=
  match Memory.read s.h.buffer i with
  | some v => v
  | none => (Config.unwrittenSample i).toInt

/-- `get_buffer`: `H.buffer[0 .. 2*FRAME - 1]`; no effect on the hardware (47_sample_tick.md R243). -/
def getBuffer (s : State) : List Sample :=
  (List.range (2 * frameLen s.params)).map (getBufferAt s)

/-! ### Results -/

/-- Record a result for the host (30_encoding.md R66). -/
def observe (o : Observation) (s : State) : State := { s with observed := o :: s.observed }

/-- The results of a run in the order they were observed (30_encoding.md R66). -/
def results (s : State) : List Observation := s.observed.reverse

/-! ### Loops -/

/-- `k` repetitions of an action (00_scope.md R6: a rule's pseudocode runs top to bottom). -/
def iter {α : Type} (f : α → α) : Nat → α → α
  | 0, a => a
  | k + 1, a => iter f k (f a)

end Sys2Proof.Machine
end

