-- ==== Sys2Proof/Machine/Operands.lean ====
section
/-! DEFINITION. The operands: how an instruction reaches the operator `OP[c][s]`, the channel `CH[c]` and the
global record `G` that its word selects (00_scope.md R6, 30_encoding.md R70). There are no immediates to
extend or assemble (R72); the one value built from two writes is the Timer A index. -/

namespace Sys2Proof.Machine

/-- The operator `OP[c][s]` (00_scope.md R6). -/
def State.opAt (s : State) (c : Chan) (sl : Slot) : Operator := (s.op.get c).get sl

/-- The channel `CH[c]` (00_scope.md R6). -/
def State.chAt (s : State) (c : Chan) : Channel := s.ch.get c

/-- The state with one operator changed. -/
def onOp (c : Chan) (sl : Slot) (f : Operator → Operator) (s : State) : State :=
  { s with op := s.op.set c ((s.op.get c).set sl (f (s.opAt c sl))) }

/-- The state with every operator changed by a rule that may read its channel and slot:
`for every c in 0..7, s in 0..3`. -/
def onAllOps (f : Chan → Slot → Operator → Operator) (s : State) : State :=
  { s with op := Eight.tab fun c => Four.tab fun sl => f c sl (s.opAt c sl) }

/-- The state with one channel changed. -/
def onCh (c : Chan) (f : Channel → Channel) (s : State) : State :=
  { s with ch := s.ch.set c (f (s.chAt c)) }

/-- The state with every channel changed by a rule that may read its number: `for c in 0..7`. -/
def onAllChs (f : Chan → Channel → Channel) (s : State) : State :=
  { s with ch := Eight.tab fun c => f c (s.chAt c) }

/-- The state with the global record changed. -/
def onG (f : Global → Global) (s : State) : State := { s with g := f s.g }

/-- The Timer A index with its bits 9:2 replaced: `{ v[7:0], ta_idx[1:0] }` (41_register_writes.md R114). -/
def taIdxHigh (idx : BitVec 10) (hi : BitVec 8) : BitVec 10 :=
  BitVec.ofNat 10 (4 * hi.toNat + idx.toNat % 4)

/-- The Timer A index with its bits 1:0 replaced: `{ ta_idx[9:2], v[1:0] }` (41_register_writes.md R115). -/
def taIdxLow (idx : BitVec 10) (lo : BitVec 2) : BitVec 10 :=
  BitVec.ofNat 10 (4 * (idx.toNat / 4) + lo.toNat)

end Sys2Proof.Machine
end

