-- ==== Sys2Proof/Machine/ChannelRegs.lean ====
section
/-! DEFINITION. The writes to the per-channel registers 0x20-0x3F (41_register_writes.md section 3). Each
stores its fields in one channel and does nothing else (R133). -/

namespace Sys2Proof.Machine

/-- RLFBCON, 0x20 + c: pan, feedback, algorithm; MEM and the feedback history are not cleared (R123). -/
def execRlfbcon (c : Chan) (panR panL : Bool) (fb con : BitVec 3) (s : State) : Result :=
  whenReady (.instr (.rlfbcon c panR panL fb con)) s <|
    onCh c (fun ch => { ch with panR := panR, panL := panL, fb := fb, con := con }) s

/-- KC, 0x28 + c (R124). -/
def execKc (c : Chan) (code : BitVec 7) (s : State) : Result :=
  whenReady (.instr (.kc c code)) s <| onCh c (fun ch => { ch with kc := code }) s

/-- KF, 0x30 + c (R125). -/
def execKf (c : Chan) (frac : BitVec 6) (s : State) : Result :=
  whenReady (.instr (.kf c frac)) s <| onCh c (fun ch => { ch with kf := frac }) s

/-- PMSAMS, 0x38 + c (R126). -/
def execPmsams (c : Chan) (pms : BitVec 3) (ams : BitVec 2) (s : State) : Result :=
  whenReady (.instr (.pmsams c pms ams)) s <| onCh c (fun ch => { ch with pms := pms, ams := ams }) s

end Sys2Proof.Machine
end

