-- ==== Sys2Proof/Machine/Flags.lean ====
section
/-! DEFINITION. The flag-like state (10_state.md R48): the two status bits and what they drive, and the two
bits of an operator's key mask. There are no arithmetic condition codes. -/

namespace Sys2Proof.Machine

/-! ### Status bits (10_state.md R45) -/

/-- `G.status[0]`, Timer A pending. -/
def statusA (g : Global) : Bool := g.status.getLsbD 0

/-- `G.status[1]`, Timer B pending. -/
def statusB (g : Global) : Bool := g.status.getLsbD 1

/-- `G.status[0] <- 1` (46_timers_csm.md R216). -/
def setStatusA (g : Global) : Global := { g with status := g.status ||| 1#2 }

/-- `G.status[1] <- 1` (46_timers_csm.md R217). -/
def setStatusB (g : Global) : Global := { g with status := g.status ||| 2#2 }

/-- `G.status[0] <- 0` (41_register_writes.md R117). -/
def clearStatusA (g : Global) : Global := { g with status := g.status &&& 2#2 }

/-- `G.status[1] <- 0` (41_register_writes.md R117). -/
def clearStatusB (g : Global) : Global := { g with status := g.status &&& 1#2 }

/-- The byte a status read returns: bits 1:0 are the status, bits 7:2 are 0 (60_exceptions.md R252). -/
def statusByte (g : Global) : Byte := g.status.setWidth 8

/-- The level output `irq`: the logical OR of the two pending bits (60_exceptions.md R253). -/
def irq (s : State) : Bool := s.g.status != 0

/-- The output port `ct[1:0]`: it follows `G.CT` at once (30_encoding.md R65, 41_register_writes.md R122). -/
def ctPort (s : State) : BitVec 2 := s.g.ct

/-! ### Key mask (10_state.md R23) -/

/-- The two sources of a key-on: the register KON (key bit value 1) and CSM (value 2). -/
inductive KeySource where
  | kon
  | csm
deriving DecidableEq, Repr

/-- The key-mask bit of a source (42_envelope_generator.md R146). -/
def keyBit : KeySource → BitVec 2
  | .kon => 1#2
  | .csm => 2#2

/-- `key | b` -/
def setKey (b : KeySource) (key : BitVec 2) : BitVec 2 := key ||| keyBit b

/-- `key & ~b` -/
def clearKey (b : KeySource) (key : BitVec 2) : BitVec 2 := key &&& ~~~ keyBit b

end Sys2Proof.Machine
end

