-- ==== Sys2Proof/Machine/Envelope.lean ====
section
/-! DEFINITION. The envelope generator: rate lookup, key-on and key-off, the EG clock and the step of each
state (42_envelope_generator.md). -/

namespace Sys2Proof.Machine

/-! ### Rate lookup -/

/-- `ksr(c, s) = CH[c].KC >> (5 - OP[c][s].KS)` (R141). -/
def ksr (kc : BitVec 7) (ks : BitVec 2) : Nat := kc.toNat >>> (5 - ks.toNat)

/-- A rate: the shift and the shape (a row of `T.eg_inc`) (R142). -/
structure Rate where
  sh : Nat
  sel : Nat
deriving DecidableEq, Repr

/-- `base = 0` if `R = 0`, else `32 + 2*R` (R142, R143). -/
def rateBase (r : BitVec 5) : Nat := if r = 0 then 0 else 32 + 2 * r.toNat

/-- The rate the two 128-entry tables give at an index (R142 to R144). -/
def tableRate (idx : Nat) : Rate := { sh := egSh idx, sel := egSel idx }

/-- `eg_rate(c, s, AR)`: the instant shape 17 from index 94 up (R142). -/
def attackRate (kc : BitVec 7) (o : Operator) : Rate :=
  let idx := rateBase o.ar + ksr kc o.ks
  if idx ≥ 94 then { sh := 0, sel := 17 } else tableRate idx

/-- `eg_rate(c, s, D1R)` (R143). -/
def decay1Rate (kc : BitVec 7) (o : Operator) : Rate := tableRate (rateBase o.d1r + ksr kc o.ks)

/-- `eg_rate(c, s, D2R)` (R143). -/
def decay2Rate (kc : BitVec 7) (o : Operator) : Rate := tableRate (rateBase o.d2r + ksr kc o.ks)

/-- `eg_rate(c, s, RR)`: index `34 + 4*RR + ksr` (R144). -/
def releaseRate (kc : BitVec 7) (o : Operator) : Rate := tableRate (34 + 4 * o.rr.toNat + ksr kc o.ks)

/-- The increment at the current position of the 8-phase pattern: `T.eg_inc[sel][(eg_cnt >> sh) & 7]`
(R146, R149). -/
def rateInc (cnt : BitVec 32) (r : Rate) : Nat := egInc r.sel ((cnt.toNat >>> r.sh) &&& 7)

/-- Whether a step applies: `(eg_cnt & ((1 << sh) - 1)) = 0` (R149). -/
def rateApplies (cnt : BitVec 32) (r : Rate) : Bool := (cnt.toNat &&& (1 <<< r.sh - 1)) == 0

/-! ### Key-on and key-off -/

/-- `volume + ((~volume * inc) >> 4)`, on integers, floor shift (R150). -/
def attackVolume (volume inc : Nat) : Int := (volume : Int) + shr (bnot volume * inc) 4

/-- The attack step: clamp at 0 and go to Decay1 on reaching it (R150). -/
def attackStep (inc : Nat) (o : Operator) : Operator :=
  let v := attackVolume o.volume inc
  if v ≤ 0 then { o with volume := 0, env := .decay1 } else { o with volume := v.toNat }

/-- `key_on(c, s, b)`: an operator that is not keyed on restarts at Attack with phase 0 and takes the first
attack step at once, ungated; then the key bit is set (R146). -/
def keyOn (cnt : BitVec 32) (kc : BitVec 7) (b : KeySource) (o : Operator) : Operator :=
  let o' :=
    if o.key = 0 then
      attackStep (rateInc cnt (attackRate kc o)) { o with phase := 0, env := .attack }
    else o
  { o' with key := setKey b o'.key }

/-- `state > Release`: Attack, Decay1 or Decay2 (10_state.md R24). -/
def aboveRelease : EnvState → Bool
  | .attack | .decay1 | .decay2 => true
  | .release | .off => false

/-- `key_off(c, s, b)`: the key bit is cleared; an operator no longer keyed on goes to Release from any state
above it (R147). -/
def keyOff (b : KeySource) (o : Operator) : Operator :=
  let key := clearKey b o.key
  if key = 0 ∧ aboveRelease o.env then { o with key := key, env := .release } else { o with key := key }

/-! ### The EG step -/

/-- The decay1 step (R151). -/
def decay1Step (inc : Nat) (o : Operator) : Operator :=
  let v := o.volume + inc
  if v ≥ d1lTable o.d1l.toNat then { o with volume := v, env := .decay2 } else { o with volume := v }

/-- The decay2 and the release step: clamp at 1023 and go to Off on reaching it (R152, R153). -/
def fallStep (inc : Nat) (o : Operator) : Operator :=
  let v := o.volume + inc
  if v ≥ 1023 then { o with volume := 1023, env := .off } else { o with volume := v }

/-- A step of a state at a rate: it applies only where the gate of R149 lets it. -/
def gated (cnt : BitVec 32) (r : Rate) (stepOf : Nat → Operator → Operator) (o : Operator) : Operator :=
  if rateApplies cnt r then stepOf (rateInc cnt r) o else o

/-- `eg_step(c, s)`: one EG step of one operator (R149 to R154). -/
def egStep (cnt : BitVec 32) (kc : BitVec 7) (o : Operator) : Operator :=
  match o.env with
  | .attack => gated cnt (attackRate kc o) attackStep o
  | .decay1 => gated cnt (decay1Rate kc o) decay1Step o
  | .decay2 => gated cnt (decay2Rate kc o) fallStep o
  | .release => gated cnt (releaseRate kc o) fallStep o
  | .off => o

/-! ### The EG clock -/

/-- One pass of the overflow loop: the timer drops by one overflow, the counter advances, and every operator
takes one EG step with the new counter (R148). -/
def egPass (s : State) : State :=
  let s := onG (fun g => { g with egTimer := g.egTimer - egTimerOverflow, egCnt := g.egCnt + 1 }) s
  onAllOps (fun c _ o => egStep s.g.egCnt (s.chAt c).kc o) s

/-- The EG tick, step 1 of a sample tick: the accumulator advances and the loop runs while it holds an
overflow, which is as many passes as it holds overflows (R148, 47_sample_tick.md R236). -/
def egTick (s : State) : State :=
  let s := onG (fun g => { g with egTimer := g.egTimer + egTimerAdd s.params }) s
  iter egPass (s.g.egTimer / egTimerOverflow) s

end Sys2Proof.Machine
end

