-- ==== Sys2Proof/Machine/GlobalRegs.lean ====
section
/-! DEFINITION. The writes to the global registers 0x00-0x1F (41_register_writes.md section 2). -/

namespace Sys2Proof.Machine

/-- TEST, 0x01: the byte is stored; bit 1 clears the LFO phase (R111). -/
def execTest (v : Byte) (s : State) : Result :=
  whenReady (.instr (.test v)) s <|
    onG (fun g => { g with test := v, lfoPhase := if v.getLsbD 1 then 0 else g.lfoPhase }) s

/-- KON's action on one operator: key-on for a 1 bit, key-off for a 0 bit (R112). -/
def konOp (cnt : BitVec 32) (kc : BitVec 7) (on : Bool) (o : Operator) : Operator :=
  if on then keyOn cnt kc .kon o else keyOff .kon o

/-- KON, 0x08: each of the channel's four operators keyed on or off by its bit (R112). -/
def execKon (ch : Chan) (m1 c1 m2 c2 : Bool) (s : State) : Result :=
  whenReady (.instr (.kon ch m1 c1 m2 c2)) s <|
    let act := konOp s.g.egCnt (s.chAt ch).kc
    onOp ch .c2 (act c2) (onOp ch .c1 (act c1) (onOp ch .m2 (act m2) (onOp ch .m1 (act m1) s)))

/-- NOISE, 0x0F (R113). -/
def execNoise (ne : Bool) (nfrq : BitVec 5) (s : State) : Result :=
  whenReady (.instr (.noise ne nfrq)) s <| onG (fun g => { g with ne := ne, nfrq := nfrq }) s

/-- CLKA1, 0x10: the running value is not touched (R114). -/
def execClka1 (hi : BitVec 8) (s : State) : Result :=
  whenReady (.instr (.clka1 hi)) s <| onG (fun g => { g with taIdx := taIdxHigh g.taIdx hi }) s

/-- CLKA2, 0x11 (R115). -/
def execClka2 (lo : BitVec 2) (s : State) : Result :=
  whenReady (.instr (.clka2 lo)) s <| onG (fun g => { g with taIdx := taIdxLow g.taIdx lo }) s

/-- CLKB, 0x12 (R116). -/
def execClkb (tb : BitVec 8) (s : State) : Result :=
  whenReady (.instr (.clkb tb)) s <| onG (fun g => { g with tbIdx := tb }) s

/-- The run bit of Timer B: a stopped timer starts and loads its value, a running one goes on, 0 stops it
(R117). -/
def runTimerB (p : Params) (run : Bool) (g : Global) : Global :=
  if run then
    if g.tbRun then g else { g with tbRun := true, tbVal := timBTable p g.tbIdx.toNat }
  else { g with tbRun := false }

/-- The run bit of Timer A (R117). -/
def runTimerA (p : Params) (run : Bool) (g : Global) : Global :=
  if run then
    if g.taRun then g else { g with taRun := true, taVal := timATable p g.taIdx.toNat }
  else { g with taRun := false }

/-- TCTL, 0x14, the control byte: CSM enable, then the clear bits, then the run bits (R117). -/
def execTctl (csm clrB clrA runB runA : Bool) (s : State) : Result :=
  whenReady (.instr (.tctl csm clrB clrA runB runA)) s <|
    onG (fun g =>
      let g := { g with csmEn := csm }
      let g := if clrA then clearStatusA g else g
      let g := if clrB then clearStatusB g else g
      runTimerA s.params runA (runTimerB s.params runB g)) s

/-- LFRQ, 0x18: the LFO timer is not cleared (R119). -/
def execLfrq (f : BitVec 8) (s : State) : Result :=
  whenReady (.instr (.lfrq f)) s <| onG (fun g => { g with lfrq := f }) s

/-- PMD, 0x19 with bit 7 of the value 1 (R120). -/
def execPmd (d : BitVec 7) (s : State) : Result :=
  whenReady (.instr (.pmd d)) s <| onG (fun g => { g with pmd := d }) s

/-- AMD, 0x19 with bit 7 of the value 0 (R121). -/
def execAmd (d : BitVec 7) (s : State) : Result :=
  whenReady (.instr (.amd d)) s <| onG (fun g => { g with amd := d }) s

/-- CTW, 0x1B (R122). -/
def execCtw (ct w : BitVec 2) (s : State) : Result :=
  whenReady (.instr (.ctw ct w)) s <| onG (fun g => { g with ct := ct, w := w }) s

end Sys2Proof.Machine
end

