-- ==== Sys2Proof/Machine/OperatorRegs.lean ====
section
/-! DEFINITION. The writes to the per-operator registers 0x40-0xFF (41_register_writes.md section 4). Each
stores its fields in one operator and does nothing else (R133). -/

namespace Sys2Proof.Machine

/-- DT1MUL, 0x40 + 8*s + c (R127). -/
def execDt1mul (sl : Slot) (c : Chan) (dt1 : BitVec 3) (mul : BitVec 4) (s : State) : Result :=
  whenReady (.instr (.dt1mul sl c dt1 mul)) s <| onOp c sl (fun o => { o with dt1 := dt1, mul := mul }) s

/-- TL, 0x60 + 8*s + c (R128). -/
def execTl (sl : Slot) (c : Chan) (level : BitVec 7) (s : State) : Result :=
  whenReady (.instr (.tl sl c level)) s <| onOp c sl (fun o => { o with tl := level }) s

/-- KSAR, 0x80 + 8*s + c (R129). -/
def execKsar (sl : Slot) (c : Chan) (ks : BitVec 2) (ar : BitVec 5) (s : State) : Result :=
  whenReady (.instr (.ksar sl c ks ar)) s <| onOp c sl (fun o => { o with ks := ks, ar := ar }) s

/-- AMSEND1R, 0xA0 + 8*s + c (R130). -/
def execAmsend1r (sl : Slot) (c : Chan) (amsen : Bool) (d1r : BitVec 5) (s : State) : Result :=
  whenReady (.instr (.amsend1r sl c amsen d1r)) s <|
    onOp c sl (fun o => { o with amsen := amsen, d1r := d1r }) s

/-- DT2D2R, 0xC0 + 8*s + c (R131). -/
def execDt2d2r (sl : Slot) (c : Chan) (dt2 : BitVec 2) (d2r : BitVec 5) (s : State) : Result :=
  whenReady (.instr (.dt2d2r sl c dt2 d2r)) s <| onOp c sl (fun o => { o with dt2 := dt2, d2r := d2r }) s

/-- D1LRR, 0xE0 + 8*s + c (R132). -/
def execD1lrr (sl : Slot) (c : Chan) (d1l rr : BitVec 4) (s : State) : Result :=
  whenReady (.instr (.d1lrr sl c d1l rr)) s <| onOp c sl (fun o => { o with d1l := d1l, rr := rr }) s

end Sys2Proof.Machine
end

