-- ==== Sys2Proof/Machine/Lfo.lean ====
section
/-! DEFINITION. The low-frequency oscillator: phase, waveforms and depth scaling (43_lfo.md). -/

namespace Sys2Proof.Machine

/-- The overflow threshold of a frequency: `(1 << (18 - hi)) << 10` with `hi = LFRQ >> 4` (R162). -/
def lfoOverflow (lfrq : BitVec 8) : Nat := (1 <<< (18 - lfrq.toNat >>> 4)) <<< 10

/-- The rate accumulator step; the overflow test is made once per tick (R162). -/
def lfoAccumulate (p : Params) (g : Global) : Global :=
  let timer := g.lfoTimer + lfoTimerAdd p
  let ovf := lfoOverflow g.lfrq
  if timer ≥ ovf then
    let counter := g.lfoCounter + 16 + (g.lfrq.toNat &&& 15)
    { g with
      lfoTimer := timer - ovf
      lfoPhase := g.lfoPhase + BitVec.ofNat 8 (counter >>> 4)
      lfoCounter := counter &&& 15 }
  else { g with lfoTimer := timer }

/-- Phase hold and advance: while bit 1 of TEST is 1 the phase is held at 0, timer and counter untouched
(R161). -/
def lfoPhaseStep (p : Params) (g : Global) : Global :=
  if g.test.getLsbD 1 then { g with lfoPhase := 0 } else lfoAccumulate p g

/-- The raw AM value of a waveform at a phase, 0 to 255 (R163 to R166). -/
def lfoRawAm (w : BitVec 2) (phase : BitVec 8) : Nat :=
  let i := phase.toNat
  match w.toNat with
  | 0 => 255 - i
  | 1 => if i < 128 then 255 else 0
  | 2 => if i < 128 then 255 - 2 * i else 2 * i - 256
  | _ => lfoNoiseTable phase

/-- The raw PM value of a waveform at a phase, -128 to 127 (R163 to R166). -/
def lfoRawPm (w : BitVec 2) (phase : BitVec 8) : Int :=
  let i : Int := phase.toNat
  match w.toNat with
  | 0 => if i < 128 then i else i - 255
  | 1 => if i < 128 then 127 else -128
  | 2 =>
      if i < 64 then 2 * i
      else if i < 128 then 255 - 2 * i
      else if i < 192 then 256 - 2 * i
      else 2 * i - 511
  | _ => (lfoNoiseTable phase : Int) - 128

/-- Depth scaling: AM floors, PM rounds toward zero (R167). -/
def lfoOutputs (g : Global) : Global :=
  { g with
    lfa := lfoRawAm g.w g.lfoPhase * g.amd.toNat / 128
    lfp := Int.tdiv (lfoRawPm g.w g.lfoPhase * g.pmd.toNat) 128 }

/-- The LFO's part of a tick, step 5a: the phase, then the outputs from the new phase (R160). -/
def lfoTick (s : State) : State := onG (fun g => lfoOutputs (lfoPhaseStep s.params g)) s

end Sys2Proof.Machine
end

