-- ==== Sys2Proof/Machine/Mixer.lean ====
section
/-! DEFINITION. The operator output, the routing of a channel's four operators, the MEM cell and the noise
path (45_mixer.md). -/

namespace Sys2Proof.Machine

/-! ### One operator -/

/-- The AM term: `lfa << (AMS - 1)` when AMS is not 0 and the operator's AM enable is set (R191). -/
def amTerm (lfa : Nat) (ch : Channel) (o : Operator) : Nat :=
  if ch.ams ≠ 0 ∧ o.amsen then lfa <<< (ch.ams.toNat - 1) else 0

/-- `env(c, s) = (TL << 3) + volume + am`, the total attenuation, not clamped (R191). -/
def attenuation (lfa : Nat) (ch : Channel) (o : Operator) : Nat :=
  (o.tl.toNat <<< 3) + o.volume + amTerm lfa ch o

/-- `lookup(e, k)`: attenuation and sine added as logarithms, then back to a linear amplitude (R192). -/
def lookup (e k : Nat) : Int :=
  let p := (e <<< 3) + sinTable k
  if p ≥ tlTabLen then 0 else tlTable p

/-- `phase & ~0xFFFF`: the integer part of the phase in place, the fraction cleared (R193). -/
def phaseInt (o : Operator) : Int := ((o.phase.toNat / 65536 * 65536 : Nat) : Int)

/-- The sine index of a phase moved by an offset in `2^-16` steps: `(x >> 16) & 1023` (R193, R194). -/
def sineIndex (x : Int) : Nat := (shr x 16 % 1024).toNat

/-- `op_out(c, s, pm)`: the output of a modulated operator (R193). -/
def opOut (e : Nat) (o : Operator) (pm : Int) : Int := lookup e (sineIndex (phaseInt o + pm * 32768))

/-- `op_out_fb(c, pmf)`: the output of M1 at a feedback offset (R194). -/
def opOutFb (e : Nat) (o : Operator) (pmf : Int) : Int := lookup e (sineIndex (phaseInt o + pmf))

/-- What an operator adds to its target: nothing from `ENV_QUIET` up (R195, R201 to R203). -/
def gatedOut (e : Nat) (o : Operator) (pm : Int) : Int := if e < envQuiet then opOut e o pm else 0

/-! ### Routing -/

/-- The five nodes of a channel computation (R196, R197). -/
inductive Node where
  | m2
  | c1
  | c2
  | mem
  | out
deriving DecidableEq, Repr

/-- A row of the routing table: where M1, C1, M2 and the delay cell go; C2 always goes to `out` (R196). -/
structure Route where
  m1Targets : List Node
  c1Target : Node
  m2Target : Node
  memTarget : Node
deriving DecidableEq, Repr

/-- `ROUTE[CON]` (R196). -/
def route (con : BitVec 3) : Route :=
  match con.toNat with
  | 0 => { m1Targets := [.c1], c1Target := .mem, m2Target := .c2, memTarget := .m2 }
  | 1 => { m1Targets := [.mem], c1Target := .mem, m2Target := .c2, memTarget := .m2 }
  | 2 => { m1Targets := [.c2], c1Target := .mem, m2Target := .c2, memTarget := .m2 }
  | 3 => { m1Targets := [.c1], c1Target := .mem, m2Target := .c2, memTarget := .c2 }
  | 4 => { m1Targets := [.c1], c1Target := .out, m2Target := .c2, memTarget := .mem }
  | 5 => { m1Targets := [.c1, .mem, .m2], c1Target := .out, m2Target := .out, memTarget := .c2 }
  | 6 => { m1Targets := [.c1], c1Target := .out, m2Target := .out, memTarget := .mem }
  | _ => { m1Targets := [.out], c1Target := .out, m2Target := .out, memTarget := .mem }

/-- The values of the five nodes: work variables of one channel computation, not state (R197). -/
structure Nodes where
  m2 : Int
  c1 : Int
  c2 : Int
  mem : Int
  out : Int
deriving DecidableEq, Repr

/-- All nodes 0 (R197). -/
def nodesZero : Nodes := { m2 := 0, c1 := 0, c2 := 0, mem := 0, out := 0 }

/-- `node[t] <- node[t] + v` -/
def addNode (t : Node) (v : Int) (n : Nodes) : Nodes :=
  match t with
  | .m2 => { n with m2 := n.m2 + v }
  | .c1 => { n with c1 := n.c1 + v }
  | .c2 => { n with c2 := n.c2 + v }
  | .mem => { n with mem := n.mem + v }
  | .out => { n with out := n.out + v }

/-- Add one value to every node of a list (R200). -/
def addNodes (ts : List Node) (v : Int) (n : Nodes) : Nodes := ts.foldl (fun n t => addNode t v n) n

/-! ### M1 and its feedback -/

/-- The feedback offset of M1: 0 at `FB = 0`, else `fbsum << (FB + 7)` (R199, 10_state.md R30). -/
def feedbackOffset (fb : BitVec 3) (fbsum : Int) : Int :=
  if fb = 0 then 0 else shl fbsum (fb.toNat + 7)

/-- M1's new output, the value `fb_curr` takes: 0 when quiet (R199). -/
def m1Output (lfa : Nat) (ch : Channel) (m1 : Operator) : Int :=
  let e := attenuation lfa ch m1
  if e < envQuiet then opOutFb e m1 (feedbackOffset ch.fb (ch.fbPrev + ch.fbCurr)) else 0

/-! ### Noise -/

/-- The level of the noise output at an attenuation: `(e ^ 0x3FF) * 2` below 1023, else 0 (R205). -/
def noiseLevel (e : Nat) : Int := if e < 0x3FF then (((e ^^^ 0x3FF) * 2 : Nat) : Int) else 0

/-- What C2 of channel 7 adds with noise enabled: the level, its sign from bit 16 of the shift register; not
subject to the quiet gate (R205). -/
def noiseOut (e : Nat) (rng : BitVec 17) : Int :=
  if rng.getLsbD 16 then noiseLevel e else -(noiseLevel e)

/-- What C2 adds to the channel output: the noise path on channel 7 with noise enabled, else its own output
(R203, R205). -/
def c2Output (g : Global) (c : Chan) (ch : Channel) (o : Operator) (pm : Int) : Int :=
  let e := attenuation g.lfa ch o
  if c = 7 ∧ g.ne then noiseOut e g.noiseRng else gatedOut e o pm

/-! ### The channel computation -/

/-- The nodes after the channel computation: MEM restored to its target, then M1's previous output routed,
then M2, C1 and C2 in this order (R197 to R203, R205). After the shift of R199 `fb_prev` is the old
`fb_curr`, which is what M1 hands on (R200). -/
def chanNodes (g : Global) (c : Chan) (ch : Channel) (ops : Four Operator) : Nodes :=
  let r := route ch.con
  let n := addNode r.memTarget ch.mem nodesZero
  let n := addNodes r.m1Targets ch.fbCurr n
  let n := addNode r.m2Target (gatedOut (attenuation g.lfa ch ops.m2) ops.m2 n.m2) n
  let n := addNode r.c1Target (gatedOut (attenuation g.lfa ch ops.c1) ops.c1 n.c1) n
  addNode .out (c2Output g c ch ops.c2 n.c2) n

/-- `chan_out(c)`, the channel output (R190, R197). -/
def chanOut (s : State) (c : Chan) : Int := (chanNodes s.g c (s.chAt c) (s.op.get c)).out

/-- What a channel computation leaves in the channel: the feedback history shifted with M1's new output, and
the delay cell stored from its node (R199, R204). -/
def chanStore (s : State) (c : Chan) (ch : Channel) : Channel :=
  { ch with
    mem := (chanNodes s.g c ch (s.op.get c)).mem
    fbPrev := ch.fbCurr
    fbCurr := m1Output s.g.lfa ch (s.op.get c).m1 }

/-- The stored part of the eight channel computations, step 2 of a tick; they are independent (R190). -/
def mixerTick (s : State) : State := onAllChs (chanStore s) s

/-! ### The noise shift register -/

/-- One shift: right, the new bit 16 the XNOR of bits 0 and 3 (R206). -/
def noiseShift (rng : BitVec 17) : BitVec 17 :=
  let j := ((rng.toNat ^^^ (rng.toNat >>> 3)) &&& 1) ^^^ 1
  BitVec.ofNat 17 ((j <<< 16) ||| (rng.toNat >>> 1))

/-- The noise register's part of a tick: as many shifts as the accumulator holds whole units, whether or not
noise is enabled (R206). -/
def noiseAdvance (params : Params) (g : Global) : Global :=
  let p := g.noiseP + noiseTable params g.nfrq.toNat
  { g with noiseP := p &&& 0xFFFF, noiseRng := iter noiseShift (p >>> 16) g.noiseRng }

/-- Step 5b of a tick (R206, 47_sample_tick.md R230). -/
def noiseTick (s : State) : State := onG (noiseAdvance s.params) s

end Sys2Proof.Machine
end

