-- ==== Sys2Proof/Machine/Phase.lean ====
section
/-! DEFINITION. The phase and frequency generator (44_phase_generator.md). -/

namespace Sys2Proof.Machine

/-- The channel index `kc_i(c) = 768 + (KC - (KC >> 2)) * 64 + KF` (R176). -/
def kcIndex (ch : Channel) : Nat :=
  768 + (ch.kc.toNat - ch.kc.toNat >>> 2) * 64 + ch.kf.toNat

/-- `dt1_delta(c, s)`: the row in bits 1:0 of DT1, the sign in bit 2 (R177). -/
def dt1Delta (p : Params) (ch : Channel) (o : Operator) : Int :=
  let magnitude : Int := dt1Table p (32 * (o.dt1.toNat &&& 3) + ch.kc.toNat >>> 2)
  if o.dt1.getLsbD 2 then -magnitude else magnitude

/-- `mul(c, s)`: `2 * MUL`, or 1 when `MUL = 0` (R178). -/
def mulFactor (o : Operator) : Nat := if o.mul = 0 then 1 else 2 * o.mul.toNat

/-- The index into `T.freq`: a channel index moved by DT2 (R179, R183). -/
def freqIndex (o : Operator) (x : Int) : Int := x + dt2Table o.dt2.toNat

/-- `inc_at(c, s, x)`: the phase increment at a channel index (R179). The index is in the table's range
(R183). -/
def incAt (p : Params) (ch : Channel) (o : Operator) (x : Int) : Int :=
  shr (((freqTable p (freqIndex o x).toNat : Int) + dt1Delta p ch o) * mulFactor o) 1

/-- `freq(c, s)`: the unmodulated increment (R180). -/
def freq (p : Params) (ch : Channel) (o : Operator) : Int := incAt p ch o (kcIndex ch)

/-- `pm_offset(c)`: none at PMS 0, a floor shift right at 1 to 5, a shift left at 6 and 7 (R182). -/
def pmOffset (ch : Channel) (lfp : Int) : Int :=
  let pms := ch.pms.toNat
  if pms = 0 then 0
  else if pms ≤ 5 then shr lfp (6 - pms)
  else shl lfp (pms - 5)

/-- The increment of one tick, modulation included (R181). -/
def tickInc (p : Params) (lfp : Int) (ch : Channel) (o : Operator) : Int :=
  incAt p ch o (kcIndex ch + pmOffset ch lfp)

/-- The phase advance of one operator, modulo `2^32` (R181). -/
def phaseStep (p : Params) (lfp : Int) (ch : Channel) (o : Operator) : Operator :=
  { o with phase := o.phase + BitVec.ofInt 32 (tickInc p lfp ch o) }

/-- The phase advance of all 32 operators, step 5c of a tick, whatever their envelope state (R181). -/
def phaseTick (s : State) : State :=
  onAllOps (fun c _ o => phaseStep s.params s.g.lfp (s.chAt c) o) s

end Sys2Proof.Machine
end

