-- ==== Sys2Proof/Machine/Timers.lean ====
section
/-! DEFINITION. Timer A, Timer B and the CSM key trigger (46_timers_csm.md). -/

namespace Sys2Proof.Machine

/-- Timer A, once per tick: one tick off; at or below zero it reloads keeping the remainder, sets its status
bit, and with CSM enabled requests the key-on (R216). -/
def timerAStep (p : Params) (g : Global) : Global :=
  if g.taRun then
    let v := g.taVal - 65536
    if v ≤ 0 then
      let g := setStatusA { g with taVal := v + timATable p g.taIdx.toNat }
      if g.csmEn then { g with csmReq := .keyOnPending } else g
    else { g with taVal := v }
  else g

/-- Timer B, once per tick (R217). -/
def timerBStep (p : Params) (g : Global) : Global :=
  if g.tbRun then
    let v := g.tbVal - 65536
    if v ≤ 0 then setStatusB { g with tbVal := v + timBTable p g.tbIdx.toNat }
    else { g with tbVal := v }
  else g

/-- Step 4b of a tick: Timer A, then Timer B (47_sample_tick.md R230). -/
def timersTick (s : State) : State := onG (fun g => timerBStep s.params (timerAStep s.params g)) s

/-- The request latch after its resolution: a pending key-on leaves the key-off pending, a pending key-off is
used up (R219). -/
def csmNext : CsmReq → CsmReq
  | .keyOnPending => .keyOffPending
  | .keyOffPending => .idle
  | .idle => .idle

/-- What the resolution of a request does to one operator: key-on or key-off by the CSM bit (R219). -/
def csmOp (req : CsmReq) (cnt : BitVec 32) (kc : BitVec 7) (o : Operator) : Operator :=
  match req with
  | .keyOnPending => keyOn cnt kc .csm o
  | .keyOffPending => keyOff .csm o
  | .idle => o

/-- CSM resolution, step 5d of a tick, on all 32 operators (R219). -/
def csmTick (s : State) : State :=
  onG (fun g => { g with csmReq := csmNext g.csmReq })
    (onAllOps (fun c _ o => csmOp s.g.csmReq s.g.egCnt (s.chAt c).kc o) s)

end Sys2Proof.Machine
end

