-- ==== Sys2Proof/Machine/Tick.lean ====
section
/-! DEFINITION. The sample tick and the frame: the order of the steps, the pan sum, the clip and the gain
(47_sample_tick.md). -/

namespace Sys2Proof.Machine

/-! ### The output sample -/

/-- The sum over the eight channels of a value of each. -/
def sumChans (f : Chan → Int) : Int := f 0 + f 1 + f 2 + f 3 + f 4 + f 5 + f 6 + f 7

/-- `sum_l`: the outputs of the channels whose left pan bit is 1 (R233). -/
def sumLeft (s : State) : Int := sumChans fun c => if (s.chAt c).panL then chanOut s c else 0

/-- `sum_r` (R233). -/
def sumRight (s : State) : Int := sumChans fun c => if (s.chAt c).panR then chanOut s c else 0

/-- `clip(x)`: to the int16 range (R234). -/
def clip (x : Int) : Int := if x > 32767 then 32767 else if x < -32768 then -32768 else x

/-- `tdiv(clip(x) * g_num, g_den)`: clip, then scale by `OUT_GAIN`, rounding toward zero (R234). -/
def outSample (p : Params) (x : Int) : Sample := Int.tdiv (clip x * p.gainNum) p.gainDen

/-- The pair `(out_l, out_r)` of a state whose envelopes have taken this tick's EG steps (R230, R233, R234). -/
def samplePair (s : State) : Sample × Sample :=
  (outSample s.params (sumLeft s), outSample s.params (sumRight s))

/-! ### The tick -/

/-- Steps 4b and 5 of a tick: timers, LFO, noise register, phase advance, CSM resolution (R230). -/
def advance (s : State) : State := csmTick (phaseTick (noiseTick (lfoTick (timersTick s))))

/-- The pair a tick of this state returns: from the phases, LFO outputs and noise register as they stand and
the volumes after this tick's EG steps (R230, R231). -/
def tickSample (s : State) : Sample × Sample := samplePair (egTick s)

/-- One `TICK`: EG tick; channel computations; the sample pair, given to the host; timers, LFO, noise, phase
and CSM (R230). -/
def tick (s : State) : State :=
  let s1 := egTick s
  let out := samplePair s1
  advance (observe (.sample out.1 out.2) (mixerTick s1))

/-- `TICK n`: `n` consecutive ticks (R241). -/
def ticks (n : Nat) (s : State) : State := iter tick n s

/-! ### The frame -/

/-- `H.buffer[2*n] <- l ; H.buffer[2*n + 1] <- r` (R240). -/
def storePair (n : Nat) (out : Sample × Sample) (s : State) : State :=
  { s with h := { s.h with
      buffer := Memory.write (Memory.write s.h.buffer (2 * n) out.1) (2 * n + 1) out.2 } }

/-- The loop of a frame from tick `n` on, `k` ticks left (R240). -/
def frameFrom : Nat → Nat → State → State
  | _, 0, s => s
  | n, k + 1, s => frameFrom (n + 1) k (storePair n (tickSample s) (tick s))

/-- `FRAME`: `FRAME` ticks, each pair also stored in the frame buffer (R240). -/
def execFrame (s : State) : Result := whenReady .frame s (frameFrom 0 (frameLen s.params) s)

end Sys2Proof.Machine
end

