-- ==== Sys2Proof/Machine/System.lean ====
section
/-! DEFINITION. The port operations that are not register writes: the status read, the tick, the reset, and
the host's `INIT` (60_exceptions.md R252, R267; 47_sample_tick.md R241; 70_reset_and_hazards.md R270;
30_encoding.md R78). -/

namespace Sys2Proof.Machine

/-- RDS: the status byte is returned to the host; no side effect (R252). -/
def execRds (s : State) : Result :=
  whenReady (.instr .rds) s (observe (.status (statusByte s.g)) s)

/-- TICK n: `n` consecutive ticks; on a reset machine `TICK 0` does nothing (R230, R241). Before the first reset
the word faults for every `n`, 0 included: 30_encoding.md R68 says that `n = 0` does nothing and 60_exceptions.md
R255 that every operation but `RST` faults, and that the second holds of a word for no tick is the model's choice
(DESIGN CHOICE, unsafe for a claim about that word; log 31). -/
def execTick (n : Nat) (s : State) : Result := whenReady (.instr (.tick n)) s (ticks n s)

/-- What `RST` does to a state whose parameters it accepts: every field of `OP`, `CH` and `G` takes its reset
value and `H.ready` becomes 1; `H.buffer` is not written. The tables are functions of the parameters, so
building them changes no state (R270, 10_state.md R49). -/
def resetAll (s : State) : State :=
  { s with
    op := Eight.tab fun _ => Four.tab fun _ => Operator.reset
    ch := Eight.tab fun _ => Channel.reset
    g := Global.reset
    h := { s.h with ready := true } }

/-- RST: the parameter check, then the reset (R256, R270). -/
def execRst (s : State) : Result :=
  match badParameter s.params with
  | some bad => .fault (.configError bad)
  | none => .next (resetAll s)

/-- The parameters with `RATE` and `FPS` fixed by an `INIT` (30_encoding.md R78). -/
def initParams (rate fps : Nat) (p : Params) : Params := { p with rate := rate, fps := fps }

/-- `INIT rate, fps`: fix the two parameters, then `RST` (30_encoding.md R78). A parameter is fixed before reset
and never changes (00_scope.md R3): on a machine already reset an `INIT` with the values it has is a further
`RST`, and one with other values is refused by name (DEDUCED, safe; log 9). -/
def execInit (rate fps : Nat) (s : State) : Result :=
  if s.h.ready = true ∧ ¬ (rate = s.params.rate ∧ fps = s.params.fps) then .refused (.parametersFixed rate fps)
  else execRst { s with params := initParams rate fps s.params }

/-- The machine before its first reset: `H.ready = 0`. Every other field is undefined by the spec and no
operation but `RST` reads it (70_reset_and_hazards.md R273); here it stands at its reset value. -/
def powerUp (p : Params) : State :=
  { State.reset with params := p, h := { ready := false, buffer := [] } }

end Sys2Proof.Machine
end

