-- ==== Sys2Proof/Machine/Undefined.lean ====
section
/-! DEFINITION. The writes to undefined addresses: no state changes, no flag, no fault once the hardware is
reset (41_register_writes.md R118, 30_encoding.md R75). -/

namespace Sys2Proof.Machine

/-- A write to an undefined address does nothing (R118). -/
def noRegister (i : Instr) (s : State) : Result := whenReady (.instr i) s s

/-- 0x00 (R118). -/
def execUndef00 (v : Byte) (s : State) : Result := noRegister (.undef00 v) s

/-- 0x02-0x03 (R118). -/
def execUndef02 (a : BitVec 1) (v : Byte) (s : State) : Result := noRegister (.undef02 a v) s

/-- 0x04-0x07 (R118). -/
def execUndef04 (a : BitVec 2) (v : Byte) (s : State) : Result := noRegister (.undef04 a v) s

/-- 0x09 (R118). -/
def execUndef09 (v : Byte) (s : State) : Result := noRegister (.undef09 v) s

/-- 0x0A-0x0B (R118). -/
def execUndef0a (a : BitVec 1) (v : Byte) (s : State) : Result := noRegister (.undef0a a v) s

/-- 0x0C-0x0D (R118). -/
def execUndef0c (a : BitVec 1) (v : Byte) (s : State) : Result := noRegister (.undef0c a v) s

/-- 0x0E (R118). -/
def execUndef0e (v : Byte) (s : State) : Result := noRegister (.undef0e v) s

/-- 0x13 (R118). -/
def execUndef13 (v : Byte) (s : State) : Result := noRegister (.undef13 v) s

/-- 0x15 (R118). -/
def execUndef15 (v : Byte) (s : State) : Result := noRegister (.undef15 v) s

/-- 0x16-0x17 (R118). -/
def execUndef16 (a : BitVec 1) (v : Byte) (s : State) : Result := noRegister (.undef16 a v) s

/-- 0x1A (R118). -/
def execUndef1a (v : Byte) (s : State) : Result := noRegister (.undef1a v) s

/-- 0x1C-0x1F (R118). -/
def execUndef1c (a : BitVec 2) (v : Byte) (s : State) : Result := noRegister (.undef1c a v) s

end Sys2Proof.Machine
end

