-- ==== Sys2Proof/Machine/Dispatch.lean ====
section
/-! DEFINITION. The dispatch: one arm per instruction, each one call of its meaning (30_encoding.md R74). -/

namespace Sys2Proof.Machine

def exec (i : Instr) (s : State) : Host.Outcome State Fault Refusal :=
  match i with
  | .test v => Sys2Proof.Machine.execTest v s
  | .kon ch m1 c1 m2 c2 => Sys2Proof.Machine.execKon ch m1 c1 m2 c2 s
  | .noise ne nfrq => Sys2Proof.Machine.execNoise ne nfrq s
  | .clka1 hi => Sys2Proof.Machine.execClka1 hi s
  | .clka2 lo => Sys2Proof.Machine.execClka2 lo s
  | .clkb tb => Sys2Proof.Machine.execClkb tb s
  | .tctl csm clrB clrA runB runA => Sys2Proof.Machine.execTctl csm clrB clrA runB runA s
  | .lfrq f => Sys2Proof.Machine.execLfrq f s
  | .ctw ct w => Sys2Proof.Machine.execCtw ct w s
  | .pmd d => Sys2Proof.Machine.execPmd d s
  | .amd d => Sys2Proof.Machine.execAmd d s
  | .rlfbcon c panR panL fb con => Sys2Proof.Machine.execRlfbcon c panR panL fb con s
  | .kc c code => Sys2Proof.Machine.execKc c code s
  | .kf c frac => Sys2Proof.Machine.execKf c frac s
  | .pmsams c pms ams => Sys2Proof.Machine.execPmsams c pms ams s
  | .dt1mul sl c dt1 mul => Sys2Proof.Machine.execDt1mul sl c dt1 mul s
  | .tl sl c level => Sys2Proof.Machine.execTl sl c level s
  | .ksar sl c ks ar => Sys2Proof.Machine.execKsar sl c ks ar s
  | .amsend1r sl c amsen d1r => Sys2Proof.Machine.execAmsend1r sl c amsen d1r s
  | .dt2d2r sl c dt2 d2r => Sys2Proof.Machine.execDt2d2r sl c dt2 d2r s
  | .d1lrr sl c d1l rr => Sys2Proof.Machine.execD1lrr sl c d1l rr s
  | .undef00 v => Sys2Proof.Machine.execUndef00 v s
  | .undef02 a v => Sys2Proof.Machine.execUndef02 a v s
  | .undef04 a v => Sys2Proof.Machine.execUndef04 a v s
  | .undef09 v => Sys2Proof.Machine.execUndef09 v s
  | .undef0a a v => Sys2Proof.Machine.execUndef0a a v s
  | .undef0c a v => Sys2Proof.Machine.execUndef0c a v s
  | .undef0e v => Sys2Proof.Machine.execUndef0e v s
  | .undef13 v => Sys2Proof.Machine.execUndef13 v s
  | .undef15 v => Sys2Proof.Machine.execUndef15 v s
  | .undef16 a v => Sys2Proof.Machine.execUndef16 a v s
  | .undef1a v => Sys2Proof.Machine.execUndef1a v s
  | .undef1c a v => Sys2Proof.Machine.execUndef1c a v s
  | .rds => Sys2Proof.Machine.execRds s
  | .tick n => Sys2Proof.Machine.execTick n s
  | .rst => Sys2Proof.Machine.execRst s

end Sys2Proof.Machine
end

