-- ==== Sys2Proof/Machine/Step.lean ====
section
/-! DEFINITION. One step: one whole port operation, taken from the operations still to be performed
(00_scope.md R2, 30_encoding.md R66, 10_state.md R35). -/

namespace Sys2Proof.Machine

/-- Perform one port operation: a trace word by its instruction, `FRAME`, or `INIT`. A word of kind 01 or 11 with
a non-zero payload is not a trace word and is never executed (30_encoding.md R68). -/
def perform (op : PortOp) (s : State) : Host.Outcome State Fault Refusal :=
  match op with
  | .word w =>
      match decode w with
      | .ok i => exec i s
      | .error .payloadNotZero => .refused (.notATraceWord w)
  | .frame => execFrame s
  | .init rate fps => execInit rate fps s

/-- One step of the machine: the next pending operation is performed on the state that no longer holds it.
With nothing pending the hardware holds its state unchanged (30_encoding.md R66; log 1, log 2). -/
def step (s : State) : Host.Outcome State Fault Refusal :=
  match s.pending with
  | [] => .next s
  | op :: rest => perform op { s with pending := rest }

/-- The state to which the trace word of an opcode-table row is presented as the very next operation (log 1). -/
def State.withFetchWord (s : State) (nbits w : Nat) : State :=
  { s with pending := .word (tableWord nbits w) :: s.pending }

end Sys2Proof.Machine
end

