-- ==== Sys2Proof/Safety.lean ====
section
/-! DEFINITION. The terms that statements about the machine are made of: the parameters a reset accepts, the
invariant of a state between two port operations, and the parts of the state a class of operations may
touch. -/

namespace Sys2Proof.Machine

/-! ### Parameters and operations -/

/-- The parameters a reset accepts: `RATE >= FPS >= 1` and `CLOCK >= 1` (60_exceptions.md R256,
70_reset_and_hazards.md R279). -/
def paramsAccepted (p : Params) : Prop := 1 ≤ p.fps ∧ p.fps ≤ p.rate ∧ 1 ≤ p.clock

/-- `0 <= OUT_GAIN <= 1` (00_scope.md R3). -/
def gainOk (p : Params) : Prop := 1 ≤ p.gainDen ∧ p.gainNum ≤ p.gainDen

/-- The register writes: the rows of kind 00 (30_encoding.md R68). -/
def isWrite : Instr → Bool
  | .rds | .tick _ | .rst => false
  | _ => true

/-- The register writes that do more than store fields: TEST, KON, TCTL (41_register_writes.md R133). -/
def hasSideEffect : Instr → Bool
  | .test _ | .kon _ _ _ _ _ | .tctl _ _ _ _ _ => true
  | _ => false

/-- An operation of a legal run of a machine that is reset with these parameters: a trace word, a `FRAME`, or an
`INIT` with the values the parameters have, since they never change (30_encoding.md R66, R68, R78; 00_scope.md R3;
log 9). -/
def PortOp.legal (p : Params) : PortOp → Prop
  | .word w => ∃ i, decode w = .ok i
  | .frame => True
  | .init rate fps => rate = p.rate ∧ fps = p.fps

/-! ### Parts of the state -/

/-- The programmable fields of an operator (10_state.md R12 to R22): the record with the others cleared. -/
def Operator.programmed (o : Operator) : Operator :=
  { o with key := 0, env := .off, volume := 0, phase := 0 }

/-- The programmable fields of a channel (10_state.md R29 to R34): the record with the others cleared. -/
def Channel.programmed (ch : Channel) : Channel := { ch with mem := 0, fbPrev := 0, fbCurr := 0 }

/-- The control fields of the global record, those only a register write changes: the record with the others
cleared. -/
def Global.programmed (g : Global) : Global :=
  { g with
    egTimer := 0, egCnt := 0, lfoTimer := 0, lfoCounter := 0, lfoPhase := 0, lfa := 0, lfp := 0,
    noiseRng := 0, noiseP := 0, taVal := 0, tbVal := 0, csmReq := .idle, status := 0 }

/-- The dynamic fields of an operator (10_state.md R23 to R26): key, state, volume, phase. -/
def Operator.dynamic (o : Operator) : BitVec 2 × EnvState × Nat × BitVec 32 :=
  (o.key, o.env, o.volume, o.phase)

/-- The dynamic fields of a channel (10_state.md R27, R36): MEM and M1's history. -/
def Channel.dynamic (ch : Channel) : Int × Int × Int := (ch.mem, ch.fbPrev, ch.fbCurr)

/-- The dynamic fields of the global record: the record with the control fields cleared. -/
def Global.dynamic (g : Global) : Global :=
  { g with
    lfrq := 0, pmd := 0, amd := 0, w := 0, test := 0, ct := 0, ne := false, nfrq := 0, taIdx := 0,
    taRun := false, tbIdx := 0, tbRun := false, csmEn := false }

/-! ### Frames -/

/-- Every part of the state but the operators, the channels and the global record is as before: the host-side
record with the frame buffer, the parameters, the operations pending and the results observed. -/
def sameRest (s t : State) : Prop :=
  t.h = s.h ∧ t.params = s.params ∧ t.pending = s.pending ∧ t.observed = s.observed

/-- Only the operator `OP[c][s]` may differ. -/
def onlyOperator (c : Chan) (sl : Slot) (s t : State) : Prop :=
  (∀ d k, ¬ (d = c ∧ k = sl) → t.opAt d k = s.opAt d k) ∧ t.ch = s.ch ∧ t.g = s.g ∧ sameRest s t

/-- Only the four operators of channel `c` may differ. -/
def onlyOperatorsOf (c : Chan) (s t : State) : Prop :=
  (∀ d k, d ≠ c → t.opAt d k = s.opAt d k) ∧ t.ch = s.ch ∧ t.g = s.g ∧ sameRest s t

/-- Only the channel `CH[c]` may differ. -/
def onlyChannel (c : Chan) (s t : State) : Prop :=
  t.op = s.op ∧ (∀ d, d ≠ c → t.chAt d = s.chAt d) ∧ t.g = s.g ∧ sameRest s t

/-- Only the global record may differ. -/
def onlyGlobal (s t : State) : Prop := t.op = s.op ∧ t.ch = s.ch ∧ sameRest s t

/-! ### The invariant -/

/-- What holds of every operator between two port operations: the volume is in `0 .. 1023`
(10_state.md R47 (a)), below the highest threshold in Decay1 (42_envelope_generator.md R151), 1023 in Off (R154),
and an operator that is not keyed on is in Off or Release (R155). -/
def Operator.ok (o : Operator) : Prop :=
  o.volume ≤ 1023 ∧ (o.env = .decay1 → o.volume < 992) ∧ (o.env = .off → o.volume = 1023) ∧
    (o.key = 0 → o.env = .off ∨ o.env = .release)

/-- What holds of every channel: the ranges of M1's history and of MEM (10_state.md R27, R36). -/
def Channel.ok (ch : Channel) : Prop :=
  (-8168 ≤ ch.fbPrev ∧ ch.fbPrev ≤ 8168) ∧ (-8168 ≤ ch.fbCurr ∧ ch.fbCurr ≤ 8168) ∧
    (-16336 ≤ ch.mem ∧ ch.mem ≤ 16336)

/-- What holds of the global record: the ranges of the accumulators and of the LFO outputs
(10_state.md R37, R39, R41), and no key-on left pending between ticks (46_timers_csm.md R219). -/
def Global.ok (g : Global) : Prop :=
  g.egTimer < 196608 ∧ g.lfoCounter < 16 ∧ g.lfa ≤ 253 ∧ (-127 ≤ g.lfp ∧ g.lfp ≤ 126) ∧
    g.noiseP < 65536 ∧ g.csmReq ≠ .keyOnPending

/-- The invariant of a state between two port operations: every record is in range, the frame buffer is
canonical, and the CSM key bit of every operator is set exactly while its key-off is pending
(10_state.md R23, R47). -/
structure State.Inv (s : State) : Prop where
  ops : ∀ c sl, (s.opAt c sl).ok
  chs : ∀ c, (s.chAt c).ok
  glob : s.g.ok
  buffer : Memory.wf s.h.buffer = true
  csm : ∀ c sl, (s.opAt c sl).key.getLsbD 1 = decide (s.g.csmReq = .keyOffPending)

/-- A signed 16-bit sample (00_scope.md R4). -/
def inRange16 (x : Sample) : Prop := -32768 ≤ x ∧ x ≤ 32767

/-- An observation whose samples are signed 16-bit. -/
def Observation.inRange : Observation → Prop
  | .status _ => True
  | .sample l r => inRange16 l ∧ inRange16 r

end Sys2Proof.Machine
end

