-- ==== Sys2Proof/Certificates/Slice0/Obligations.lean ====
section
/-! DEFINITION. The statements for the provers, one definition each, in the order of OBLIGATIONS.json. Each
docstring names the rule of spec/ that the statement formalises or rests on. -/

section

open Sys2Proof Sys2Proof.Machine

/-! ### Words and decoding -/

/-- Every well-formed instruction is read back from its word (30_encoding.md R67 to R74). -/
def Obligations.DecodeReadsBackEveryEncodedInstruction : Prop :=
  ∀ i : Instr, i.wellFormed = true → decode (encode i) = .ok i

/-- R68: the kind of a trace word and what each kind stands for; the words that are no trace words. -/
def Obligations.TraceWordKindsDecode : Prop :=
  ∀ w : TraceWord,
    (w.toNat / 65536 = 0 → ∃ i, decode w = .ok i ∧ isWrite i = true ∧
      decode w = .ok (decodeWrite (w.toNat / 256) (w.toNat % 256))) ∧
    (w.toNat / 65536 = 1 →
      decode w = if w.toNat % 65536 = 0 then .ok .rds else .error .payloadNotZero) ∧
    (w.toNat / 65536 = 2 → decode w = .ok (.tick (w.toNat % 65536))) ∧
    (w.toNat / 65536 = 3 →
      decode w = if w.toNat % 65536 = 0 then .ok .rst else .error .payloadNotZero)

/-- R74, R79: a word selects the row of the instruction it decodes to, and no other row. -/
def Obligations.DecodeFollowsTheOpcodeTable : Prop :=
  ∀ (w : TraceWord) (i j : Instr), decode w = .ok j →
    (w &&& rowMask i = rowMatch i ↔ rowMask i = rowMask j ∧ rowMatch i = rowMatch j)

/-- R73: the bits of a word that its instruction does not use have no effect: encoding again clears them, and a
word that differs in them only decodes to the same instruction. That the low address bits and the value of a write
to an undefined address count as used, although they have no effect either (R118), so that its word can be written
back, is the model's choice (log 25). -/
def Obligations.IgnoredBitsHaveNoEffect : Prop :=
  ∀ (w : TraceWord) (i : Instr), decode w = .ok i →
    encode i = w &&& usedBits i ∧ ∀ x : TraceWord, x &&& usedBits i = w &&& usedBits i → decode x = .ok i

/-- Words written out from the encodings of 30_encoding.md R70, R71 decode to the instructions they stand
for. -/
def Obligations.SampleWordsDecode : Prop :=
  decode 0x00878#18 = .ok (.kon 0 true true true true) ∧
  decode 0x014B3#18 = .ok (.tctl true true true true true) ∧
  decode 0x019FF#18 = .ok (.pmd 127) ∧
  decode 0x01940#18 = .ok (.amd 64) ∧
  decode 0x023C7#18 = .ok (.rlfbcon 3 true true 0 7) ∧
  decode 0x05E5A#18 = .ok (.dt1mul .c2 6 5 10) ∧
  decode 0x0EAF8#18 = .ok (.d1lrr .m2 2 15 8) ∧
  decode 0x007FF#18 = .ok (.undef04 3 0xFF) ∧
  decode 0x10000#18 = .ok .rds ∧
  decode 0x202DF#18 = .ok (.tick 735) ∧
  decode 0x30000#18 = .ok .rst

/-! ### The step -/

/-- A step performs the next pending operation on the state that no longer holds it: a trace word runs the
instruction it decodes to (30_encoding.md R66, R68; 10_state.md R35). -/
def Obligations.StepRunsTheDecodedInstruction : Prop :=
  ∀ (s : State) (w : TraceWord) (rest : List PortOp) (i : Instr),
    s.pending = .word w :: rest → decode w = .ok i → step s = exec i { s with pending := rest }

/-- The other steps: `FRAME`, `INIT`, a word that is no trace word, and nothing pending (R66, R68, R78, R3). Three
clauses rest on the model's choices: that nothing happens with nothing pending (log 2), that an `INIT` is a reset
at its values before the first reset and with unchanged values, and refused by name with other values on a machine
already reset (log 9), and that a word that is no trace word is refused by name (log 22). -/
def Obligations.StepOnOtherOperations : Prop :=
  ∀ (s : State) (rest : List PortOp),
    (s.pending = [] → step s = .next s) ∧
    (s.pending = .frame :: rest → step s = execFrame { s with pending := rest }) ∧
    (∀ rate fps, s.pending = .init rate fps :: rest →
      ((s.h.ready = false ∨ (rate = s.params.rate ∧ fps = s.params.fps)) →
        step s = exec .rst { s with pending := rest, params := { s.params with rate := rate, fps := fps } }) ∧
      (s.h.ready = true → (rate ≠ s.params.rate ∨ fps ≠ s.params.fps) →
        step s = .refused (.parametersFixed rate fps))) ∧
    (∀ w, s.pending = .word w :: rest → decode w = .error .payloadNotZero →
      step s = .refused (.notATraceWord w))

/-! ### Faults -/

/-- R255, R256: before the first reset every operation but `RST` faults and records itself; `RST` faults exactly on a
bad parameter and otherwise completes. A fault carries no state: nothing has changed. That the word `TICK 0`, zero
ticks, faults before the first reset like the others is the model's choice (log 31). -/
def Obligations.TheTwoFaultsAndTheirConditions : Prop :=
  ∀ s : State,
    (s.h.ready = false → (∀ i : Instr, i ≠ .rst → exec i s = .fault (.useBeforeInit (.instr i))) ∧
      execFrame s = .fault (.useBeforeInit .frame)) ∧
    ((s.params.rate = 0 ∨ s.params.fps = 0 ∨ s.params.clock = 0 ∨ s.params.rate < s.params.fps) →
      ∃ bad, exec .rst s = .fault (.configError bad)) ∧
    (¬ (s.params.rate = 0 ∨ s.params.fps = 0 ∨ s.params.clock = 0 ∨ s.params.rate < s.params.fps) →
      ∃ t, exec .rst s = .next t)

/-- R250, R236: on a reset machine every register write, status read, tick and frame completes, and the machine
stays reset. -/
def Obligations.EveryOperationCompletesAfterReset : Prop :=
  ∀ s : State, s.h.ready = true →
    (∀ i : Instr, i ≠ .rst → ∃ t, exec i s = .next t ∧ t.h.ready = true) ∧
    ∃ t, execFrame s = .next t ∧ t.h.ready = true

/-- R66, R250: a run of legal operations never stops, from a reset machine with accepted parameters, and from one
not yet reset whose first operation is `RST`, or an `INIT` that fixes accepted values. That the steps go on, idle,
once the operations are used up is the model's choice (log 2), and so is which `INIT` is legal where: any accepted
values first, and afterwards the values the machine has (log 9). -/
def Obligations.LegalRunsNeverStop : Prop :=
  (∀ s : State, s.h.ready = true → paramsAccepted s.params → (∀ op ∈ s.pending, op.legal s.params) →
    ∀ k, ∃ t, Host.Core.run core k s = .next t) ∧
  ∀ (s : State) (rate fps : Nat) (rest : List PortOp), s.h.ready = false →
    paramsAccepted { s.params with rate := rate, fps := fps } →
    (∀ op ∈ rest, op.legal { s.params with rate := rate, fps := fps }) →
    (s.pending = .init rate fps :: rest ∨
      (s.pending = .word 0x30000#18 :: rest ∧ rate = s.params.rate ∧ fps = s.params.fps)) →
    ∀ k, ∃ t, Host.Core.run core k s = .next t

/-! ### Reset -/

/-- R270, R271: what `RST` leaves, field by field; the frame buffer is not written, and the model's own fields
`pending` and `observed` stay (log 28). -/
def Obligations.ResetSetsEveryField : Prop :=
  ∀ s : State, paramsAccepted s.params →
    ∃ t, exec .rst s = .next t ∧
      (∀ c sl, t.opAt c sl =
        { dt1 := 0, mul := 0, tl := 0, ks := 0, ar := 0, amsen := false, d1r := 0, dt2 := 0, d2r := 0, d1l := 0,
          rr := 0, key := 0, env := .off, volume := 1023, phase := 0 }) ∧
      (∀ c, t.chAt c =
        { con := 0, fb := 0, panL := false, panR := false, kc := 0, kf := 0, pms := 0, ams := 0, mem := 0,
          fbPrev := 0, fbCurr := 0 }) ∧
      t.g =
        { egTimer := 0, egCnt := 0, lfrq := 0, pmd := 0, amd := 0, w := 0, lfoTimer := 0, lfoCounter := 0,
          lfoPhase := 0, lfa := 0, lfp := 0, test := 0, ct := 0, ne := false, nfrq := 0, noiseRng := 0,
          noiseP := 0, taIdx := 0, taRun := false, taVal := 0, tbIdx := 0, tbRun := false, tbVal := 0,
          csmEn := false, csmReq := .idle, status := 0 } ∧
      t.h = { ready := true, buffer := s.h.buffer } ∧
      t.params = s.params ∧ t.pending = s.pending ∧ t.observed = s.observed

/-- R272, R273: whatever a machine has done, a further `RST` makes it one that cannot be told from another machine
reset with the same parameters, the host's own record apart; at power-up `RST` leads to the reset state at the
parameters the machine was given (the start of a run is the model's: log 21). -/
def Obligations.ResetForgetsTheRunBefore : Prop :=
  (∀ p : Params, paramsAccepted p → exec .rst (powerUp p) = .next { State.reset with params := p }) ∧
  ∀ s u : State, s.params = u.params → paramsAccepted s.params →
    ∃ t v, exec .rst s = .next t ∧ exec .rst u = .next v ∧ t.op = v.op ∧ t.ch = v.ch ∧ t.g = v.g ∧
      t.h.ready = v.h.ready ∧ exec .rst t = .next t

/-! ### Register writes, global -/

/-- R118: a write to an undefined address does nothing, whatever its value. -/
def Obligations.UndefinedAddressWritesDoNothing : Prop :=
  ∀ s : State, s.h.ready = true →
    (∀ v, exec (.undef00 v) s = .next s) ∧ (∀ a v, exec (.undef02 a v) s = .next s) ∧
    (∀ a v, exec (.undef04 a v) s = .next s) ∧ (∀ v, exec (.undef09 v) s = .next s) ∧
    (∀ a v, exec (.undef0a a v) s = .next s) ∧ (∀ a v, exec (.undef0c a v) s = .next s) ∧
    (∀ v, exec (.undef0e v) s = .next s) ∧ (∀ v, exec (.undef13 v) s = .next s) ∧
    (∀ v, exec (.undef15 v) s = .next s) ∧ (∀ a v, exec (.undef16 a v) s = .next s) ∧
    (∀ v, exec (.undef1a v) s = .next s) ∧ (∀ a v, exec (.undef1c a v) s = .next s) ∧
    ∀ addr ∈ [0x00, 0x02, 0x03, 0x04, 0x05, 0x06, 0x07, 0x09, 0x0A, 0x0B, 0x0C, 0x0D, 0x0E, 0x13, 0x15, 0x16,
        0x17, 0x1A, 0x1C, 0x1D, 0x1E, 0x1F],
      ∀ v : Byte, ∃ i, decode (writeWord addr v.toNat) = .ok i ∧ exec i s = .next s

/-- R111: TEST stores its byte; bit 1 clears the LFO phase; nothing else changes. -/
def Obligations.TestWriteStoresItsByteAndClearsTheLfoPhase : Prop :=
  ∀ (v : Byte) (s : State), s.h.ready = true →
    decode (writeWord 0x01 v.toNat) = .ok (.test v) ∧
    exec (.test v) s =
      .next { s with g := { s.g with test := v, lfoPhase := if v.getLsbD 1 then 0 else s.g.lfoPhase } }

/-- R112: KON keys each of the four operators of its channel on or off by its own bit, by the KON bit of the key
mask; every other operator and everything else is unchanged. -/
def Obligations.KonKeysTheFourOperatorsOfItsChannel : Prop :=
  (∀ v : Byte, decode (writeWord 0x08 v.toNat) =
    .ok (.kon (v.extractLsb' 0 3).toFin (v.getLsbD 3) (v.getLsbD 4) (v.getLsbD 5) (v.getLsbD 6))) ∧
  ∀ (c : Chan) (m1 c1 m2 c2 : Bool) (s : State), s.h.ready = true →
    ∃ t, exec (.kon c m1 c1 m2 c2) s = .next t ∧ onlyOperatorsOf c s t ∧
      ∀ sl on, (sl, on) ∈ [(Slot.m1, m1), (Slot.m2, m2), (Slot.c1, c1), (Slot.c2, c2)] →
        t.opAt c sl =
          if on then keyOn s.g.egCnt (s.chAt c).kc .kon (s.opAt c sl) else keyOff .kon (s.opAt c sl)

/-- R114 to R116: CLKA1 and CLKA2 replace the two parts of the Timer A index, CLKB the Timer B index; the running
values are not touched. -/
def Obligations.TimerIndexWritesReplaceTheirBits : Prop :=
  ∀ (v hi : Byte) (lo : BitVec 2) (s : State), s.h.ready = true →
    decode (writeWord 0x10 v.toNat) = .ok (.clka1 v) ∧
    decode (writeWord 0x11 v.toNat) = .ok (.clka2 (v.extractLsb' 0 2)) ∧
    exec (.clka1 hi) s = .next { s with g := { s.g with taIdx := hi ++ s.g.taIdx.extractLsb' 0 2 } } ∧
    exec (.clka2 lo) s = .next { s with g := { s.g with taIdx := s.g.taIdx.extractLsb' 2 8 ++ lo } } ∧
    decode (writeWord 0x12 v.toNat) = .ok (.clkb v) ∧
    exec (.clkb v) s = .next { s with g := { s.g with tbIdx := v } }

/-- R117: the control byte stores the CSM enable, clears the status bits its clear bits name, and starts, keeps
or stops each timer by its run bit; a timer that starts loads its value from its index. -/
def Obligations.ControlByteDrivesTimersAndStatus : Prop :=
  (∀ v : Byte, decode (writeWord 0x14 v.toNat) =
    .ok (.tctl (v.getLsbD 7) (v.getLsbD 5) (v.getLsbD 4) (v.getLsbD 1) (v.getLsbD 0))) ∧
  ∀ (csm clrB clrA runB runA : Bool) (s : State), s.h.ready = true →
    ∃ t, exec (.tctl csm clrB clrA runB runA) s = .next t ∧ onlyGlobal s t ∧
      t.g = { s.g with
        csmEn := csm
        status := t.g.status
        taRun := runA
        taVal := if runA && !s.g.taRun then (timATable s.params s.g.taIdx.toNat : Int) else s.g.taVal
        tbRun := runB
        tbVal := if runB && !s.g.tbRun then (timBTable s.params s.g.tbIdx.toNat : Int) else s.g.tbVal } ∧
      t.g.status.getLsbD 0 = (s.g.status.getLsbD 0 && !clrA) ∧
      t.g.status.getLsbD 1 = (s.g.status.getLsbD 1 && !clrB)

/-- R113, R119 to R122: NOISE, LFRQ, PMD, AMD and CTW store their fields in the global record, and nothing else
changes; at address 0x19 bit 7 of the value tells PMD from AMD; the `ct` port follows its bits at once. -/
def Obligations.NoiseAndLfoWritesStoreTheirFields : Prop :=
  (∀ v : Byte,
    decode (writeWord 0x0F v.toNat) = .ok (.noise (v.getLsbD 7) (v.extractLsb' 0 5)) ∧
    decode (writeWord 0x18 v.toNat) = .ok (.lfrq v) ∧
    (v.getLsbD 7 = true → decode (writeWord 0x19 v.toNat) = .ok (.pmd (v.extractLsb' 0 7))) ∧
    (v.getLsbD 7 = false → decode (writeWord 0x19 v.toNat) = .ok (.amd (v.extractLsb' 0 7))) ∧
    decode (writeWord 0x1B v.toNat) = .ok (.ctw (v.extractLsb' 6 2) (v.extractLsb' 0 2))) ∧
  ∀ s : State, s.h.ready = true →
    (∀ ne nfrq, exec (.noise ne nfrq) s = .next { s with g := { s.g with ne := ne, nfrq := nfrq } }) ∧
    (∀ f, exec (.lfrq f) s = .next { s with g := { s.g with lfrq := f } }) ∧
    (∀ d, exec (.pmd d) s = .next { s with g := { s.g with pmd := d } }) ∧
    (∀ d, exec (.amd d) s = .next { s with g := { s.g with amd := d } }) ∧
    ∀ ct w, ∃ t, exec (.ctw ct w) s = .next t ∧ t = { s with g := { s.g with ct := ct, w := w } } ∧
      ctPort t = ct

/-! ### Register writes, per channel and per operator -/

/-- R123 to R126: each per-channel write stores its fields in the channel its address names, and nothing else
changes. -/
def Obligations.ChannelWritesStoreTheirFields : Prop :=
  ∀ (c : Chan) (s : State), s.h.ready = true →
    (∀ v : Byte,
      decode (writeWord (0x20 + c.val) v.toNat) =
        .ok (.rlfbcon c (v.getLsbD 7) (v.getLsbD 6) (v.extractLsb' 3 3) (v.extractLsb' 0 3)) ∧
      decode (writeWord (0x28 + c.val) v.toNat) = .ok (.kc c (v.extractLsb' 0 7)) ∧
      decode (writeWord (0x30 + c.val) v.toNat) = .ok (.kf c (v.extractLsb' 2 6)) ∧
      decode (writeWord (0x38 + c.val) v.toNat) = .ok (.pmsams c (v.extractLsb' 4 3) (v.extractLsb' 0 2))) ∧
    (∀ panR panL fb con, ∃ t, exec (.rlfbcon c panR panL fb con) s = .next t ∧ onlyChannel c s t ∧
      t.chAt c = { s.chAt c with panR := panR, panL := panL, fb := fb, con := con }) ∧
    (∀ code, ∃ t, exec (.kc c code) s = .next t ∧ onlyChannel c s t ∧
      t.chAt c = { s.chAt c with kc := code }) ∧
    (∀ frac, ∃ t, exec (.kf c frac) s = .next t ∧ onlyChannel c s t ∧
      t.chAt c = { s.chAt c with kf := frac }) ∧
    (∀ pms ams, ∃ t, exec (.pmsams c pms ams) s = .next t ∧ onlyChannel c s t ∧
      t.chAt c = { s.chAt c with pms := pms, ams := ams })

/-- R127 to R132: each per-operator write stores its fields in the operator its address names, and nothing else
changes. -/
def Obligations.OperatorWritesStoreTheirFields : Prop :=
  ∀ (sl : Slot) (c : Chan) (s : State), s.h.ready = true →
    (∀ v : Byte,
      decode (writeWord (0x40 + 8 * slotNumber sl + c.val) v.toNat) =
        .ok (.dt1mul sl c (v.extractLsb' 4 3) (v.extractLsb' 0 4)) ∧
      decode (writeWord (0x60 + 8 * slotNumber sl + c.val) v.toNat) = .ok (.tl sl c (v.extractLsb' 0 7)) ∧
      decode (writeWord (0x80 + 8 * slotNumber sl + c.val) v.toNat) =
        .ok (.ksar sl c (v.extractLsb' 6 2) (v.extractLsb' 0 5)) ∧
      decode (writeWord (0xA0 + 8 * slotNumber sl + c.val) v.toNat) =
        .ok (.amsend1r sl c (v.getLsbD 7) (v.extractLsb' 0 5)) ∧
      decode (writeWord (0xC0 + 8 * slotNumber sl + c.val) v.toNat) =
        .ok (.dt2d2r sl c (v.extractLsb' 6 2) (v.extractLsb' 0 5)) ∧
      decode (writeWord (0xE0 + 8 * slotNumber sl + c.val) v.toNat) =
        .ok (.d1lrr sl c (v.extractLsb' 4 4) (v.extractLsb' 0 4))) ∧
    (∀ dt1 mul, ∃ t, exec (.dt1mul sl c dt1 mul) s = .next t ∧ onlyOperator c sl s t ∧
      t.opAt c sl = { s.opAt c sl with dt1 := dt1, mul := mul }) ∧
    (∀ level, ∃ t, exec (.tl sl c level) s = .next t ∧ onlyOperator c sl s t ∧
      t.opAt c sl = { s.opAt c sl with tl := level }) ∧
    (∀ ks ar, ∃ t, exec (.ksar sl c ks ar) s = .next t ∧ onlyOperator c sl s t ∧
      t.opAt c sl = { s.opAt c sl with ks := ks, ar := ar }) ∧
    (∀ amsen d1r, ∃ t, exec (.amsend1r sl c amsen d1r) s = .next t ∧ onlyOperator c sl s t ∧
      t.opAt c sl = { s.opAt c sl with amsen := amsen, d1r := d1r }) ∧
    (∀ dt2 d2r, ∃ t, exec (.dt2d2r sl c dt2 d2r) s = .next t ∧ onlyOperator c sl s t ∧
      t.opAt c sl = { s.opAt c sl with dt2 := dt2, d2r := d2r }) ∧
    (∀ d1l rr, ∃ t, exec (.d1lrr sl c d1l rr) s = .next t ∧ onlyOperator c sl s t ∧
      t.opAt c sl = { s.opAt c sl with d1l := d1l, rr := rr })

/-- R133: apart from KON, TEST and TCTL a register write touches no dynamic field. -/
def Obligations.StoreOnlyWritesTouchNoDynamicField : Prop :=
  ∀ (i : Instr) (s t : State), isWrite i = true → hasSideEffect i = false → exec i s = .next t →
    (∀ c sl, (t.opAt c sl).dynamic = (s.opAt c sl).dynamic) ∧
    (∀ c, (t.chAt c).dynamic = (s.chAt c).dynamic) ∧ t.g.dynamic = s.g.dynamic

/-- R55: repeating a register write at once changes nothing the second time. -/
def Obligations.RepeatedWriteChangesNothing : Prop :=
  ∀ (i : Instr) (s t : State), isWrite i = true → exec i s = .next t → exec i t = .next t

/-- R64, R243, R3: no instruction writes the frame buffer, changes the parameters or the operations still
pending; only `FRAME` writes the buffer. On a machine that is reset no step at all changes a parameter, and it
stays reset. -/
def Obligations.InstructionsLeaveBufferAndParameters : Prop :=
  (∀ (i : Instr) (s t : State), exec i s = .next t →
    t.h.buffer = s.h.buffer ∧ t.params = s.params ∧ t.pending = s.pending) ∧
  ∀ s t : State, s.h.ready = true → step s = .next t → t.params = s.params ∧ t.h.ready = true

/-! ### Key-on, key-off and the envelope -/

/-- R146: key-on. An operator keyed on already gets the key bit only; any other restarts at phase 0 in Attack and
takes one ungated attack step. -/
def Obligations.KeyOnRestartsAnUnkeyedOperator : Prop :=
  ∀ (cnt : BitVec 32) (kc : BitVec 7) (b : KeySource) (o : Operator),
    (o.key ≠ 0 → keyOn cnt kc b o = { o with key := o.key ||| keyBit b }) ∧
    (o.key = 0 →
      ∀ (inc : Nat) (v : Int),
        inc = egInc (attackRate kc o).sel (cnt.toNat / 2 ^ (attackRate kc o).sh % 8) →
        v = o.volume + ((-o.volume - 1 : Int) * inc) / 16 →
        keyOn cnt kc b o =
          if v ≤ 0 then { o with key := keyBit b, phase := 0, volume := 0, env := .decay1 }
          else { o with key := keyBit b, phase := 0, volume := v.toNat, env := .attack }) ∧
    keyBit .kon = 1#2 ∧ keyBit .csm = 2#2

/-- R147: key-off clears the key bit; an operator no longer keyed on goes to Release from the three states above
it; volume and phase are untouched. -/
def Obligations.KeyOffReleasesFromStatesAboveRelease : Prop :=
  ∀ (b : KeySource) (o : Operator) (k : BitVec 2), k = o.key &&& ~~~ keyBit b →
    keyOff b o =
      { o with
        key := k
        env := if k = 0 ∧ (o.env = .attack ∨ o.env = .decay1 ∨ o.env = .decay2) then .release else o.env }

/-- R141 to R144: the four rates, their table index and its range. -/
def Obligations.RateLookupFollowsKeyScaling : Prop :=
  ∀ (kc : BitVec 7) (o : Operator) (k : Nat), k = kc.toNat / 2 ^ (5 - o.ks.toNat) →
    k ≤ 31 ∧
    (∀ (base : Nat), base = (if o.ar = 0 then 0 else 32 + 2 * o.ar.toNat) → base + k ≤ 125 ∧
      attackRate kc o =
        if 94 ≤ base + k then { sh := 0, sel := 17 } else { sh := egSh (base + k), sel := egSel (base + k) }) ∧
    (∀ (base : Nat), base = (if o.d1r = 0 then 0 else 32 + 2 * o.d1r.toNat) → base + k ≤ 125 ∧
      decay1Rate kc o = { sh := egSh (base + k), sel := egSel (base + k) }) ∧
    (∀ (base : Nat), base = (if o.d2r = 0 then 0 else 32 + 2 * o.d2r.toNat) → base + k ≤ 125 ∧
      decay2Rate kc o = { sh := egSh (base + k), sel := egSel (base + k) }) ∧
    34 + 4 * o.rr.toNat + k ≤ 125 ∧
    releaseRate kc o =
      { sh := egSh (34 + 4 * o.rr.toNat + k), sel := egSel (34 + 4 * o.rr.toNat + k) }

/-- R142 to R144: a rate field of 0 never moves the envelope in Attack and the decays; the release rate always
moves within its pattern of eight increments. -/
def Obligations.ZeroRatesHoldAndReleaseMoves : Prop :=
  ∀ (cnt : BitVec 32) (kc : BitVec 7) (o : Operator),
    (o.ar = 0 → o.env = .attack → 1 ≤ o.volume → egStep cnt kc o = o) ∧
    (o.d2r = 0 → o.env = .decay2 → o.volume < 1023 → egStep cnt kc o = o) ∧
    (o.d1r = 0 → o.env = .decay1 → (egStep cnt kc o).volume = o.volume) ∧
    ∃ i < 8, 1 ≤ egInc (releaseRate kc o).sel i

/-- R149 to R154: one EG step of one operator, state by state. A step that its gate does not let through leaves
the operator unchanged. -/
def Obligations.EgStepFollowsTheStateMachine : Prop :=
  ∀ (cnt : BitVec 32) (kc : BitVec 7) (o : Operator) (r : Rate) (inc : Nat),
    (o.env = .off → egStep cnt kc o = o) ∧
    (((o.env = .attack ∧ r = attackRate kc o) ∨ (o.env = .decay1 ∧ r = decay1Rate kc o) ∨
        (o.env = .decay2 ∧ r = decay2Rate kc o) ∨ (o.env = .release ∧ r = releaseRate kc o)) →
      inc = egInc r.sel (cnt.toNat / 2 ^ r.sh % 8) →
      (cnt.toNat % 2 ^ r.sh ≠ 0 → egStep cnt kc o = o) ∧
      (cnt.toNat % 2 ^ r.sh = 0 →
        (o.env = .attack → ∀ v : Int, v = o.volume + ((-o.volume - 1 : Int) * inc) / 16 →
          egStep cnt kc o =
            if v ≤ 0 then { o with volume := 0, env := .decay1 } else { o with volume := v.toNat }) ∧
        (o.env = .decay1 →
          egStep cnt kc o =
            { o with
              volume := o.volume + inc
              env := if d1lTable o.d1l.toNat ≤ o.volume + inc then .decay2 else .decay1 }) ∧
        (o.env = .decay2 ∨ o.env = .release →
          egStep cnt kc o =
            { o with
              volume := min 1023 (o.volume + inc)
              env := if 1023 ≤ o.volume + inc then .off else o.env })))

/-- R156, R150: within Attack the volume never rises, and an applied step with an increment of at least 1 lowers it
or ends the attack, the instant shape from any volume; within Decay1, Decay2 and Release it never falls; the volume
stays in `0 .. 1023`. -/
def Obligations.EnvelopeIsMonotoneAndBounded : Prop :=
  ∀ (cnt : BitVec 32) (kc : BitVec 7) (o : Operator), o.ok →
    (egStep cnt kc o).volume ≤ 1023 ∧
    (o.env ≠ .attack → o.volume ≤ (egStep cnt kc o).volume) ∧
    (o.env = .attack → (egStep cnt kc o).volume ≤ o.volume ∧
      (rateApplies cnt (attackRate kc o) = true → 1 ≤ rateInc cnt (attackRate kc o) →
        ((egStep cnt kc o).volume < o.volume ∨
          ((egStep cnt kc o).volume = 0 ∧ (egStep cnt kc o).env = .decay1)) ∧
        ((attackRate kc o).sel = 17 → (egStep cnt kc o).volume = 0 ∧ (egStep cnt kc o).env = .decay1)))

/-- R155: the envelope state of an operator within its invariant changes along the listed edges only, each under
its condition. That an operator without a key bit is in Off or Release is the spec's own inference, and here part
of the premise (EveryStepKeepsTheInvariant keeps it). -/
def Obligations.EnvelopeTransitionsAreComplete : Prop :=
  ∀ (cnt : BitVec 32) (kc : BitVec 7) (b : KeySource) (o e on f : Operator), o.ok →
    e = egStep cnt kc o → on = keyOn cnt kc b o → f = keyOff b o →
    (e.env = o.env ∨ (o.env = .attack ∧ e.env = .decay1 ∧ e.volume = 0) ∨
      (o.env = .decay1 ∧ e.env = .decay2 ∧ d1lTable o.d1l.toNat ≤ e.volume) ∨
      ((o.env = .decay2 ∨ o.env = .release) ∧ e.env = .off ∧ e.volume = 1023)) ∧
    ((o.key ≠ 0 ∧ on.env = o.env) ∨
      (o.key = 0 ∧ (o.env = .off ∨ o.env = .release) ∧ on.phase = 0 ∧
        ((on.env = .attack ∧ 0 < on.volume) ∨ (on.env = .decay1 ∧ on.volume = 0)))) ∧
    (f.env = o.env ∨
      ((o.env = .attack ∨ o.env = .decay1 ∨ o.env = .decay2) ∧ f.env = .release ∧ f.key = 0))

/-- R148: the EG tick runs one EG step of every operator for each whole overflow the accumulator holds, with the
counter one higher each time, and keeps the remainder. -/
def Obligations.EgClockStepsOncePerOverflow : Prop :=
  ∀ (s : State) (k r : Nat), s.g.egTimer + 65536 * s.params.clock / (64 * s.params.rate) = k * 196608 + r →
    r < 196608 →
    (egTick s).g = { s.g with egTimer := r, egCnt := s.g.egCnt + BitVec.ofNat 32 k } ∧
    (∀ c sl, (egTick s).opAt c sl =
      (List.range k).foldl (fun o n => egStep (s.g.egCnt + BitVec.ofNat 32 (n + 1)) (s.chAt c).kc o)
        (s.opAt c sl)) ∧
    (egTick s).ch = s.ch ∧ sameRest s (egTick s)

/-! ### The LFO -/

/-- R161, R162: the LFO phase is held at 0 while bit 1 of TEST is set; otherwise the timer advances and one
overflow steps the phase. -/
def Obligations.LfoPhaseIsHeldOrAdvanced : Prop :=
  ∀ (p : Params) (g : Global) (ovf timer counter : Nat),
    ovf = 2 ^ (28 - g.lfrq.toNat / 16) →
    timer = g.lfoTimer + 1024 * p.clock / (64 * p.rate) →
    counter = g.lfoCounter + 16 + g.lfrq.toNat % 16 →
    lfoPhaseStep p g =
      if g.test.getLsbD 1 then { g with lfoPhase := 0 }
      else if ovf ≤ timer then
        { g with
          lfoTimer := timer - ovf
          lfoPhase := g.lfoPhase + BitVec.ofNat 8 (counter / 16)
          lfoCounter := counter % 16 }
      else { g with lfoTimer := timer }

/-- R162, R279: within its range the LFO phase moves by 0, 1 or 2 a tick, and with `CLOCK / RATE < 512` the timer
stays below the threshold. -/
def Obligations.LfoPhaseMovesByAtMostTwo : Prop :=
  ∀ (p : Params) (g g' : Global), g' = lfoPhaseStep p g → g.test.getLsbD 1 = false → g.lfoCounter < 16 →
    (g'.lfoPhase = g.lfoPhase ∨ g'.lfoPhase = g.lfoPhase + 1 ∨ g'.lfoPhase = g.lfoPhase + 2) ∧
    g'.lfoCounter < 16 ∧
    (p.clock < 512 * p.rate → g.lfoTimer < 2 ^ (28 - g.lfrq.toNat / 16) →
      g'.lfoTimer < 2 ^ (28 - g.lfrq.toNat / 16))

/-- R163 to R166: the raw values of the four waveforms at every phase. -/
def Obligations.LfoWaveformsFollowTheirFormulas : Prop :=
  ∀ (ph : BitVec 8) (i : Int), i = ph.toNat →
    ((lfoRawAm 0 ph : Int) = 255 - i ∧ lfoRawPm 0 ph = if i < 128 then i else i - 255) ∧
    ((lfoRawAm 1 ph : Int) = (if i < 128 then 255 else 0) ∧ lfoRawPm 1 ph = if i < 128 then 127 else -128) ∧
    ((lfoRawAm 2 ph : Int) = (if i < 128 then 255 - 2 * i else 2 * i - 256) ∧
      lfoRawPm 2 ph =
        if i < 64 then 2 * i else if i < 128 then 255 - 2 * i else if i < 192 then 256 - 2 * i
        else 2 * i - 511) ∧
    (lfoRawAm 3 ph = (Config.lfoNoiseWave ph).toNat ∧
      lfoRawPm 3 ph = ((Config.lfoNoiseWave ph).toNat : Int) - 128)

/-- R160, R161, R167: a tick performs one phase step of the LFO; the two outputs after it are the raw values of the
new phase scaled by the depths, and stay in their ranges, whatever the noise waveform. -/
def Obligations.LfoOutputsAreScaledAndBounded : Prop :=
  ∀ s t : State, s.h.ready = true → exec (.tick 1) s = .next t →
    t.g.lfoPhase = (lfoPhaseStep s.params s.g).lfoPhase ∧
    t.g.lfoTimer = (lfoPhaseStep s.params s.g).lfoTimer ∧
    t.g.lfoCounter = (lfoPhaseStep s.params s.g).lfoCounter ∧
    t.g.lfa = lfoRawAm s.g.w t.g.lfoPhase * s.g.amd.toNat / 128 ∧
    t.g.lfp = Int.tdiv (lfoRawPm s.g.w t.g.lfoPhase * s.g.pmd.toNat) 128 ∧
    t.g.lfa ≤ 253 ∧ -127 ≤ t.g.lfp ∧ t.g.lfp ≤ 126

/-! ### Phase and frequency -/

/-- R176 to R179, R182: the channel index, the detune delta, the multiple, the increment and the modulation
offset. -/
def Obligations.PhaseIncrementFollowsItsFormula : Prop :=
  ∀ (p : Params) (ch : Channel) (o : Operator) (x lfp : Int) (kc delta : Nat),
    kc = ch.kc.toNat → delta = dt1Table p (32 * (o.dt1.toNat % 4) + kc / 4) →
    kcIndex ch = 768 + (kc - kc / 4) * 64 + ch.kf.toNat ∧
    dt1Delta p ch o = (if o.dt1.getLsbD 2 then -(delta : Int) else delta) ∧
    mulFactor o = (if o.mul = 0 then 1 else 2 * o.mul.toNat) ∧
    incAt p ch o x = ((freqTable p (x + dt2Table o.dt2.toNat).toNat + dt1Delta p ch o) * mulFactor o) / 2 ∧
    (ch.pms = 0 → pmOffset ch lfp = 0) ∧
    (1 ≤ ch.pms.toNat → ch.pms.toNat ≤ 5 → pmOffset ch lfp = lfp / 2 ^ (6 - ch.pms.toNat)) ∧
    (6 ≤ ch.pms.toNat → pmOffset ch lfp = lfp * 2 ^ (ch.pms.toNat - 5))

/-- R183: with the LFO output in its range every index into the frequency table is between 260 and 8087. -/
def Obligations.FrequencyIndexStaysInTheTable : Prop :=
  ∀ (ch : Channel) (o : Operator) (lfp : Int), -127 ≤ lfp → lfp ≤ 126 →
    260 ≤ (kcIndex ch : Int) + pmOffset ch lfp + dt2Table o.dt2.toNat ∧
    (kcIndex ch : Int) + pmOffset ch lfp + dt2Table o.dt2.toNat ≤ 8087

/-- R181: in a tick whose CSM resolution keys nothing on, every phase advances by the increment at the modulated
index, modulo `2^32`, with the LFO output of this very tick. -/
def Obligations.TickAdvancesEveryPhase : Prop :=
  ∀ s t : State, s.h.ready = true → exec (.tick 1) s = .next t →
    ¬ (s.g.taRun = true ∧ s.g.csmEn = true ∧ s.g.taVal ≤ 65536) → s.g.csmReq ≠ .keyOnPending →
    ∀ c sl, ((t.opAt c sl).phase.toNat : Int) =
      ((s.opAt c sl).phase.toNat +
        incAt s.params (s.chAt c) (s.opAt c sl) (kcIndex (s.chAt c) + pmOffset (s.chAt c) t.g.lfp)) % 2 ^ 32

/-! ### The mixer -/

/-- R191, R192, R193: the total attenuation, and its range for a volume and an LFO output in theirs; the lookup of
an attenuation and a sine index, its range, and the five examples of the rule; the output of a modulated operator
reads the lookup at the integer part of the phase moved by half the modulation, modulo the table length. -/
def Obligations.OperatorAttenuationAndOutput : Prop :=
  (∀ (lfa : Nat) (ch : Channel) (o : Operator),
    attenuation lfa ch o =
      8 * o.tl.toNat + o.volume + (if ch.ams ≠ 0 ∧ o.amsen = true then lfa * 2 ^ (ch.ams.toNat - 1) else 0) ∧
    (o.volume ≤ 1023 → lfa ≤ 253 → attenuation lfa ch o ≤ 3051)) ∧
  (∀ e k : Nat, k < 1024 →
    lookup e k = (if 6656 ≤ 8 * e + sinTable k then 0 else tlTable (8 * e + sinTable k)) ∧
    -8168 ≤ lookup e k ∧ lookup e k ≤ 8168) ∧
  (lookup 0 255 = 8168 ∧ lookup 0 767 = -8168 ∧ lookup 0 0 = 25 ∧ lookup 100 255 = 2766 ∧
    lookup 300 100 = 183) ∧
  ∀ (e : Nat) (o : Operator) (pm : Int),
    opOut e o pm = lookup e (((o.phase.toNat / 65536 : Nat) + pm / 2) % 1024).toNat

/-- R86, R87, R88, R192: the amplitude table falls from 8168 to 4096 over its first tier, by the formula of R86 on
integers (`m` is the floor of `65536 / 2^((x+1)/256)`), every further tier halves it, and odd entries are negated;
the second half of the sine is the negative of the first, at every attenuation. -/
def Obligations.SineHalfWavesAreOpposite : Prop :=
  (tlTable 0 = 8168 ∧ tlTable 510 = 4096 ∧
    ∀ x m : Nat, x < 256 → m ^ 256 * 2 ^ (x + 1) ≤ 65536 ^ 256 → 65536 ^ 256 < (m + 1) ^ 256 * 2 ^ (x + 1) →
      tlTable (2 * x) = 4 * ((m / 16 + 1) / 2 : Nat)) ∧
  (∀ x i : Nat, x < 256 → i ≤ 12 →
    tlTable (2 * x + 512 * i) = tlTable (2 * x) / 2 ^ i ∧
    tlTable (2 * x + 1 + 512 * i) = -(tlTable (2 * x) / 2 ^ i)) ∧
  ∀ e k : Nat, k < 512 →
    sinTable (k + 512) = sinTable k + 1 ∧ sinTable k % 2 = 0 ∧ sinTable (511 - k) = sinTable k ∧
      lookup e (k + 512) = -lookup e k

/-- R195 to R205: what each of the eight algorithms sends to the channel output and to MEM, from the delay cell, the
previous output of M1 and the three other operators in their order. M2, C1 and C2 give their output at the input
node, nothing from an attenuation of 832 up; C2 of channel 7 with noise enabled gives the noise value instead. -/
def Obligations.AlgorithmsRouteTheFourOperators : Prop :=
  ∀ (s : State) (c : Chan) (e : Slot → Nat) (n : Int) (m2 c1 c2 : Int → Int) (ch : Channel),
    ch = s.chAt c →
    (∀ sl, e sl = attenuation s.g.lfa ch (s.opAt c sl)) →
    n = 2 * (1023 - e .c2 : Nat) →
    (∀ x, m2 x = if e .m2 < 832 then opOut (e .m2) (s.opAt c .m2) x else 0) →
    (∀ x, c1 x = if e .c1 < 832 then opOut (e .c1) (s.opAt c .c1) x else 0) →
    (∀ x, c2 x =
      if c = 7 ∧ s.g.ne = true then (if s.g.noiseRng.getLsbD 16 then n else -n)
      else if e .c2 < 832 then opOut (e .c2) (s.opAt c .c2) x else 0) →
    (ch.con = 0 → chanOut s c = c2 (m2 ch.mem) ∧ ((mixerTick s).chAt c).mem = c1 ch.fbCurr) ∧
    (ch.con = 1 → chanOut s c = c2 (m2 ch.mem) ∧ ((mixerTick s).chAt c).mem = ch.fbCurr + c1 0) ∧
    (ch.con = 2 → chanOut s c = c2 (ch.fbCurr + m2 ch.mem) ∧ ((mixerTick s).chAt c).mem = c1 0) ∧
    (ch.con = 3 → chanOut s c = c2 (ch.mem + m2 0) ∧ ((mixerTick s).chAt c).mem = c1 ch.fbCurr) ∧
    (ch.con = 4 → chanOut s c = c1 ch.fbCurr + c2 (m2 0) ∧ ((mixerTick s).chAt c).mem = ch.mem) ∧
    (ch.con = 5 → chanOut s c = m2 ch.fbCurr + c1 ch.fbCurr + c2 ch.mem ∧
      ((mixerTick s).chAt c).mem = ch.fbCurr) ∧
    (ch.con = 6 → chanOut s c = m2 0 + c1 ch.fbCurr + c2 0 ∧ ((mixerTick s).chAt c).mem = ch.mem) ∧
    (ch.con = 7 → chanOut s c = ch.fbCurr + m2 0 + c1 0 + c2 0 ∧ ((mixerTick s).chAt c).mem = ch.mem)

/-- R199, R194: M1 shifts its history and computes its new output with the sum of the two old ones as feedback,
nothing when it is quiet. -/
def Obligations.FeedbackOperatorShiftsItsHistory : Prop :=
  ∀ (s : State) (c : Chan) (ch ch' : Channel) (pmf : Int), ch = s.chAt c → ch' = (mixerTick s).chAt c →
    pmf = (if ch.fb = 0 then 0 else (ch.fbPrev + ch.fbCurr) * 2 ^ (ch.fb.toNat + 7)) →
    ch'.fbPrev = ch.fbCurr ∧
    (832 ≤ attenuation s.g.lfa ch (s.opAt c .m1) → ch'.fbCurr = 0) ∧
    (attenuation s.g.lfa ch (s.opAt c .m1) < 832 →
      ch'.fbCurr = lookup (attenuation s.g.lfa ch (s.opAt c .m1))
        (((((s.opAt c .m1).phase.toNat / 65536 * 65536 : Nat) : Int) + pmf) / 65536 % 1024).toNat)

/-- R205: with noise enabled, C2 of channel 7 adds twice the complement of its attenuation, its sign from bit 16
of the shift register, and no input node matters. -/
def Obligations.NoiseReplacesC2OfChannelSeven : Prop :=
  ∀ (g : Global) (ch : Channel) (o : Operator) (pm n : Int), g.ne = true →
    n = 2 * (1023 - attenuation g.lfa ch o : Nat) →
    c2Output g 7 ch o pm = if g.noiseRng.getLsbD 16 then n else -n

/-- R206: the noise register's part of a tick: the accumulator advances and each whole unit shifts the register
right, the new top bit the XNOR of bits 0 and 3. -/
def Obligations.NoiseRegisterShiftsByItsRate : Prop :=
  ∀ (s : State) (p : Nat), p = s.g.noiseP + noiseTable s.params s.g.nfrq.toNat →
    noiseTick s =
      { s with g := { s.g with noiseP := p % 65536, noiseRng := iter noiseShift (p / 65536) s.g.noiseRng } } ∧
    ∀ r : BitVec 17, (noiseShift r).getLsbD 16 = !(r.getLsbD 0 ^^ r.getLsbD 3) ∧
      ∀ i < 16, (noiseShift r).getLsbD i = r.getLsbD (i + 1)

/-- R207, which the spec derives from R192, R196 and R205: the ranges of an operator output, of the noise value
and of the channel outputs. -/
def Obligations.MixerOutputsAreBounded : Prop :=
  (∀ (e : Nat) (o : Operator) (x : Int), -8168 ≤ opOut e o x ∧ opOut e o x ≤ 8168 ∧
    -8168 ≤ opOutFb e o x ∧ opOutFb e o x ≤ 8168) ∧
  (∀ (e : Nat) (r : BitVec 17), -2046 ≤ noiseOut e r ∧ noiseOut e r ≤ 2046) ∧
  ∀ s : State, s.Inv → ∀ c, (-8168 ≤ (s.chAt c).fbPrev ∧ (s.chAt c).fbPrev ≤ 8168) ∧
    (-8168 ≤ (s.chAt c).fbCurr ∧ (s.chAt c).fbCurr ≤ 8168) ∧
    (-16336 ≤ (s.chAt c).mem ∧ (s.chAt c).mem ≤ 16336) ∧ -32672 ≤ chanOut s c ∧ chanOut s c ≤ 32672

/-! ### Timers, status and CSM -/

/-- R216, R217: one tick of the two timers. -/
def Obligations.TimersCountDownAndReload : Prop :=
  ∀ (s : State) (a b : Bool), a = (s.g.taRun && decide (s.g.taVal - 65536 ≤ 0)) →
    b = (s.g.tbRun && decide (s.g.tbVal - 65536 ≤ 0)) →
    timersTick s =
      { s with g := { s.g with
        taVal :=
          if s.g.taRun then s.g.taVal - 65536 + (if a then (timATable s.params s.g.taIdx.toNat : Int) else 0)
          else s.g.taVal
        tbVal :=
          if s.g.tbRun then s.g.tbVal - 65536 + (if b then (timBTable s.params s.g.tbIdx.toNat : Int) else 0)
          else s.g.tbVal
        status := s.g.status ||| (if a then 1#2 else 0#2) ||| (if b then 2#2 else 0#2)
        csmReq := if a && s.g.csmEn then .keyOnPending else s.g.csmReq } }

/-- R218: a timer that runs with its table value `V` loaded and its bit clear sets the bit in exactly the tick
`ceil(V / 65536)`, and with a period of a tick or more its value after `n` ticks is `V - (65536 n mod V)`, so
that it reloads once every `V / 65536` ticks. -/
def Obligations.TimersOverflowAtTheirPeriod : Prop :=
  ∀ (s t : State) (n : Nat), s.h.ready = true → exec (.tick n) s = .next t →
    (∀ V : Nat, V = timATable s.params s.g.taIdx.toNat → 1 ≤ V → s.g.taRun = true → s.g.taVal = V →
      (s.g.status.getLsbD 0 = false → (t.g.status.getLsbD 0 = true ↔ V ≤ 65536 * n)) ∧
      (65536 ≤ V → t.g.taVal = (V : Int) - (65536 * n % V : Nat))) ∧
    (∀ V : Nat, V = timBTable s.params s.g.tbIdx.toNat → 1 ≤ V → s.g.tbRun = true → s.g.tbVal = V →
      (s.g.status.getLsbD 1 = false → (t.g.status.getLsbD 1 = true ↔ V ≤ 65536 * n)) ∧
      (65536 ≤ V → t.g.tbVal = (V : Int) - (65536 * n % V : Nat)))

/-- R221: a status bit is set by ticks only, and cleared by the control byte with its clear bit or by reset
only. -/
def Obligations.StatusBitsChangeOnlyAsStated : Prop :=
  ∀ (i : Instr) (s t : State), exec i s = .next t →
    ((statusA s.g = false → statusA t.g = true → ∃ n, i = .tick n) ∧
      (statusA s.g = true → statusA t.g = false → i = .rst ∨ ∃ m b rb ra, i = .tctl m b true rb ra)) ∧
    ((statusB s.g = false → statusB t.g = true → ∃ n, i = .tick n) ∧
      (statusB s.g = true → statusB t.g = false → i = .rst ∨ ∃ m a rb ra, i = .tctl m true a rb ra))

/-- R219: the tick in which Timer A reaches zero with CSM enabled sets the CSM key bit of all 32 operators, an
operator not keyed on starting at phase 0; the next tick, if Timer A does not reach zero again, clears it. -/
def Obligations.CsmKeysAllOperatorsForOneTick : Prop :=
  ∀ s t u : State, s.h.ready = true → exec (.tick 1) s = .next t → exec (.tick 1) t = .next u →
    s.g.taRun = true → s.g.csmEn = true → s.g.taVal ≤ 65536 →
    t.g.csmReq = .keyOffPending ∧
    (∀ c sl, (t.opAt c sl).key = (s.opAt c sl).key ||| 2#2 ∧
      ((s.opAt c sl).key = 0 → (t.opAt c sl).phase = 0 ∧
        ((t.opAt c sl).env = .attack ∨ (t.opAt c sl).env = .decay1))) ∧
    (65536 < t.g.taVal → u.g.csmReq = .idle ∧
      ∀ c sl, (u.opAt c sl).key = (t.opAt c sl).key &&& 1#2 ∧
        ((u.opAt c sl).key = 0 → (u.opAt c sl).env = .release ∨ (u.opAt c sl).env = .off))

/-- R220 (a), R219: an operator held by the KON register is not retriggered or released by CSM: its state and volume
are those the EG tick gives it, and it stays held. The phase of an operator with any key bit set advances by its
increment in every tick, and is not reset. In a tick with no CSM request the key, state and volume of every
operator are those of the EG tick. -/
def Obligations.HeldOperatorsIgnoreCsm : Prop :=
  ∀ s t : State, s.h.ready = true → exec (.tick 1) s = .next t → ∀ c sl,
    ((s.opAt c sl).key.getLsbD 0 = true →
      (t.opAt c sl).env = ((egTick s).opAt c sl).env ∧ (t.opAt c sl).volume = ((egTick s).opAt c sl).volume ∧
      (t.opAt c sl).key.getLsbD 0 = true) ∧
    ((s.opAt c sl).key ≠ 0 → ((t.opAt c sl).phase.toNat : Int) =
      ((s.opAt c sl).phase.toNat +
        incAt s.params (s.chAt c) (s.opAt c sl) (kcIndex (s.chAt c) + pmOffset (s.chAt c) t.g.lfp)) % 2 ^ 32) ∧
    (¬ (s.g.taRun = true ∧ s.g.csmEn = true ∧ s.g.taVal ≤ 65536) → s.g.csmReq = .idle →
      (t.opAt c sl).key = (s.opAt c sl).key ∧ (t.opAt c sl).env = ((egTick s).opAt c sl).env ∧
      (t.opAt c sl).volume = ((egTick s).opAt c sl).volume)

/-- R252, R253: `RDS` returns the two status bits in a byte whose other bits are 0, and has no other effect; the
level output `irq` is 1 exactly when one of them is. -/
def Obligations.StatusReadReturnsTheTwoBits : Prop :=
  ∀ s : State,
    (s.h.ready = false → exec .rds s = .fault (.useBeforeInit (.instr .rds))) ∧
    irq s = (s.g.status.getLsbD 0 || s.g.status.getLsbD 1) ∧
    (s.h.ready = true → ∃ b : Byte, exec .rds s = .next { s with observed := .status b :: s.observed } ∧
      b.toNat = 2 * (s.g.status.getLsbD 1).toNat + (s.g.status.getLsbD 0).toNat)

/-! ### Ticks and frames -/

/-- R230: one tick performs its steps in the order of the rule, and its result is the sample pair of the state
after the EG tick. -/
def Obligations.TickPerformsItsStepsInOrder : Prop :=
  ∀ s : State, s.h.ready = true →
    exec (.tick 1) s =
      .next (csmTick (phaseTick (noiseTick (lfoTick (timersTick
        (observe (.sample (samplePair (egTick s)).1 (samplePair (egTick s)).2) (mixerTick (egTick s))))))))

/-- R241, R236, R133, R243: `TICK n` completes, records `n` sample pairs, and changes no programmed field, no
parameter and nothing of the host's record. -/
def Obligations.TicksKeepWhatOnlyWritesChange : Prop :=
  ∀ (n : Nat) (s : State), s.h.ready = true →
    ∃ t, exec (.tick n) s = .next t ∧
      (∀ c sl, (t.opAt c sl).programmed = (s.opAt c sl).programmed) ∧
      (∀ c, (t.chAt c).programmed = (s.chAt c).programmed) ∧ t.g.programmed = s.g.programmed ∧
      t.h = s.h ∧ t.params = s.params ∧ t.pending = s.pending ∧
      ∃ l, t.observed = l ++ s.observed ∧ l.length = n ∧ ∀ o ∈ l, ∃ x y, o = .sample x y

/-- R241: `TICK m` then `TICK n` is `TICK (m + n)`, and `TICK 0` does nothing. -/
def Obligations.TicksCompose : Prop :=
  ∀ (m n : Nat) (s : State), s.h.ready = true →
    exec (.tick 0) s = .next s ∧
    ∃ t, exec (.tick m) s = .next t ∧ exec (.tick n) t = exec (.tick (m + n)) s

/-- R233, R234: the left and right sums over the channels whose pan bit is set; each sum is clipped to the signed
16-bit range, then scaled by the gain, rounding toward zero. -/
def Obligations.SamplePairIsPannedClippedAndScaled : Prop :=
  ∀ s : State,
    samplePair s =
      (Int.tdiv (max (-32768) (min 32767 (sumLeft s)) * s.params.gainNum) s.params.gainDen,
        Int.tdiv (max (-32768) (min 32767 (sumRight s)) * s.params.gainNum) s.params.gainDen) ∧
    sumLeft s = ∑ c : Fin 8, (if (s.chAt c).panL then chanOut s c else 0) ∧
    sumRight s = ∑ c : Fin 8, (if (s.chAt c).panR then chanOut s c else 0)

/-- R234: with a gain of at most 1 every sample is a signed 16-bit number. -/
def Obligations.SamplesAreSigned16Bit : Prop :=
  ∀ (s t : State) (n : Nat), gainOk s.params → exec (.tick n) s = .next t →
    (∀ o ∈ s.observed, o.inRange) → ∀ o ∈ t.observed, o.inRange

/-- R240, R241: `FRAME` changes operators, channels and the global record as `TICK FRAME` does, fills the buffer
with the pair of each tick, left first, and leaves the rest of the buffer. -/
def Obligations.FrameFillsTheBufferAsTicks : Prop :=
  ∀ s : State, s.h.ready = true →
    ∃ t u, execFrame s = .next t ∧ exec (.tick (frameLen s.params)) s = .next u ∧
      t.op = u.op ∧ t.ch = u.ch ∧ t.g = u.g ∧ t.params = s.params ∧ t.pending = s.pending ∧ t.h.ready = true ∧
      (∀ n < frameLen s.params, ∃ w, exec (.tick n) s = .next w ∧
        Memory.read t.h.buffer (2 * n) = some (samplePair (egTick w)).1 ∧
        Memory.read t.h.buffer (2 * n + 1) = some (samplePair (egTick w)).2) ∧
      ∀ i, 2 * frameLen s.params ≤ i → Memory.read t.h.buffer i = Memory.read s.h.buffer i

/-- R235: a freshly reset machine is silent for any number of ticks, and a frame after reset reads as zeros. -/
def Obligations.SilenceAfterReset : Prop :=
  ∀ s t : State, exec .rst s = .next t →
    (∀ n, ∃ u, exec (.tick n) t = .next u ∧ u.observed = List.replicate n (.sample 0 0) ++ t.observed) ∧
    ∃ f, execFrame t = .next f ∧ getBuffer f = List.replicate (2 * frameLen t.params) 0

/-! ### The invariant -/

/-- The reset state has the invariant (10_state.md R23 to R27, R36, R37, R39, R41, R47). -/
def Obligations.ResetStateHasTheInvariant : Prop := State.reset.Inv

/-- Every step keeps the invariant: volumes in range, envelope and key mask consistent, the feedback history, MEM
and the accumulators in their ranges, the frame buffer canonical, the CSM key bits set exactly while their key-off
is pending (10_state.md R23, R25, R27, R36, R37, R39, R41, R47; 42_envelope_generator.md R154 to R156). -/
def Obligations.EveryStepKeepsTheInvariant : Prop :=
  ∀ s t : State, s.Inv → step s = .next t → t.Inv

end
end

