-- ==== Sys2Proof/Laws/Decode.lean ====
section
/-! SUPPORT. The lemmas of the field readers and writers of trace words. -/

namespace Sys2Proof

/-- A field reads as the number that stands at its place. -/
theorem bits_eq {n : Nat} (v lo : Nat) (x : BitVec n) (h : v / 2 ^ lo % 2 ^ n = x.toNat) : bits v lo n = x := by
  apply BitVec.eq_of_toNat_eq
  simpa [bits] using h

/-- A bit reads as the bit that stands at its place. -/
theorem bit_eq (v i : Nat) (b : Bool) (h : v / 2 ^ i % 2 = ofBit b) : bit v i = b := by
  cases b <;> simp_all [bit, ofBit]

/-- A channel field reads as the channel that stands at its place. -/
theorem chanAt_eq (v lo : Nat) (c : Chan) (h : v / 2 ^ lo % 8 = c.val) : chanAt v lo = c := by
  apply Fin.ext
  simpa [chanAt, bits] using h

/-- A slot field reads as the operator whose number stands at its place. -/
theorem slotAt_eq (v lo : Nat) (sl : Slot) (h : v / 2 ^ lo % 4 = slotNumber sl) : slotAt v lo = sl := by
  unfold slotAt
  rw [h]
  cases sl <;> rfl

@[simp] theorem bits_toNat (v lo n : Nat) : (bits v lo n).toNat = v / 2 ^ lo % 2 ^ n := by simp [bits]

@[simp] theorem ofBit_bit (v i : Nat) : ofBit (bit v i) = v / 2 ^ i % 2 := by
  unfold ofBit bit
  have := Nat.mod_two_eq_zero_or_one (v / 2 ^ i)
  rcases this with h | h <;> simp [h]

@[simp] theorem chanAt_val (v lo : Nat) : (chanAt v lo).val = v / 2 ^ lo % 8 := by simp [chanAt, bits]

@[simp] theorem slotNumber_slotAt (v lo : Nat) : slotNumber (slotAt v lo) = v / 2 ^ lo % 4 := by
  unfold slotAt
  have h : v / 2 ^ lo % 4 < 4 := Nat.mod_lt _ (by decide)
  generalize v / 2 ^ lo % 4 = k at h
  match k, h with
  | 0, _ => rfl
  | 1, _ => rfl
  | 2, _ => rfl
  | 3, _ => rfl

theorem ofBit_le (b : Bool) : ofBit b ≤ 1 := by cases b <;> simp [ofBit]

theorem slotNumber_lt (sl : Slot) : slotNumber sl < 4 := by cases sl <;> simp [slotNumber]

/-- The number of a write's word. -/
theorem writeWord_toNat (a v : Nat) (ha : a < 256) (hv : v < 256) : (writeWord a v).toNat = 256 * a + v := by
  simp [writeWord]
  omega

/-- The word of a register write decodes by its address and value. -/
theorem decode_writeWord (a v : Nat) (ha : a < 256) (hv : v < 256) :
    decode (writeWord a v) = .ok (decodeWrite a v) := by
  unfold decode
  simp only [writeWord_toNat a v ha hv]
  rw [show (256 * a + v) / 65536 = 0 by omega, show (256 * a + v) % 65536 / 256 = a by omega,
    show (256 * a + v) % 65536 % 256 = v by omega]
  rfl

/-- A write below 0x20 is decoded by its whole address. -/
theorem decodeWrite_global (a v : Nat) (h : a < 32) : decodeWrite a v = decodeGlobal a v := by
  unfold decodeWrite
  rw [show a / 32 = 0 by omega]
  rfl

/-- A write at 0x20 to 0x3F is a channel register's. -/
theorem decodeWrite_channel (a v : Nat) (h : 32 ≤ a) (h' : a < 64) : decodeWrite a v = decodeChannel a v := by
  unfold decodeWrite
  rw [show a / 32 = 1 by omega]
  rfl

/-- A write from 0x40 up is an operator register's. -/
theorem decodeWrite_operator (a v : Nat) (h : 64 ≤ a) (h' : a < 256) :
    decodeWrite a v = decodeOperator a v := by
  unfold decodeWrite
  have : a / 32 = 2 ∨ a / 32 = 3 ∨ a / 32 = 4 ∨ a / 32 = 5 ∨ a / 32 = 6 ∨ a / 32 = 7 := by omega
  rcases this with h | h | h | h | h | h <;> rw [h] <;> rfl

end Sys2Proof
end

