-- ==== Sys2Proof/Laws/State.lean ====
section
/-! SUPPORT. The small lemmas of the state: reading the banks, and one lemma per field per update. -/

namespace Sys2Proof

/-! ### Banks -/

@[simp] theorem Four.get_tab {α : Type} (f : Slot → α) (sl : Slot) : (Four.tab f).get sl = f sl := by
  cases sl <;> rfl

@[simp] theorem Eight.get_tab {α : Type} (f : Chan → α) (c : Chan) : (Eight.tab f).get c = f c := by
  fin_cases c <;> rfl

@[simp] theorem Four.get_set {α : Type} (v : Four α) (sl tl : Slot) (a : α) :
    (v.set sl a).get tl = if tl = sl then a else v.get tl := by simp [Four.set]

@[simp] theorem Eight.get_set {α : Type} (v : Eight α) (c d : Chan) (a : α) :
    (v.set c a).get d = if d = c then a else v.get d := by simp [Eight.set]

/-- Two banks of four with the same entries are equal. -/
theorem Four.ext_get {α : Type} {v w : Four α} (h : ∀ sl, v.get sl = w.get sl) : v = w := by
  cases v; cases w
  have h1 := h .m1; have h2 := h .m2; have h3 := h .c1; have h4 := h .c2
  simp only [Four.get] at h1 h2 h3 h4
  simp [h1, h2, h3, h4]

/-- Two banks of eight with the same entries are equal. -/
theorem Eight.ext_get {α : Type} {v w : Eight α} (h : ∀ c, v.get c = w.get c) : v = w := by
  cases v; cases w
  have h0 := h 0; have h1 := h 1; have h2 := h 2; have h3 := h 3
  have h4 := h 4; have h5 := h 5; have h6 := h 6; have h7 := h 7
  simp only [Eight.get] at h0 h1 h2 h3 h4 h5 h6 h7
  simp [h0, h1, h2, h3, h4, h5, h6, h7]

/-- A bank is the table of its own entries. -/
@[simp] theorem Four.tab_get {α : Type} (v : Four α) : (Four.tab fun sl => v.get sl) = v :=
  Four.ext_get fun _ => by simp

/-- A bank is the table of its own entries. -/
@[simp] theorem Eight.tab_get {α : Type} (v : Eight α) : (Eight.tab fun c => v.get c) = v :=
  Eight.ext_get fun _ => by simp

namespace Machine

/-! ### Updates of one operator -/

section
variable (c d : Chan) (sl tl : Slot) (f : Operator → Operator) (s : State)

@[simp] theorem opAt_onOp :
    (onOp c sl f s).opAt d tl = if d = c ∧ tl = sl then f (s.opAt c sl) else s.opAt d tl := by
  simp only [State.opAt, onOp, Eight.get_set]
  by_cases hd : d = c
  · subst hd; by_cases ht : tl = sl <;> simp [ht]
  · simp [hd]

@[simp] theorem onOp_ch : (onOp c sl f s).ch = s.ch := rfl
@[simp] theorem onOp_g : (onOp c sl f s).g = s.g := rfl
@[simp] theorem onOp_h : (onOp c sl f s).h = s.h := rfl
@[simp] theorem onOp_params : (onOp c sl f s).params = s.params := rfl
@[simp] theorem onOp_pending : (onOp c sl f s).pending = s.pending := rfl
@[simp] theorem onOp_observed : (onOp c sl f s).observed = s.observed := rfl
@[simp] theorem onOp_chAt : (onOp c sl f s).chAt d = s.chAt d := rfl
end

/-! ### Updates of every operator -/

section
variable (c : Chan) (sl : Slot) (f : Chan → Slot → Operator → Operator) (s : State)

@[simp] theorem opAt_onAllOps : (onAllOps f s).opAt c sl = f c sl (s.opAt c sl) := by
  simp [State.opAt, onAllOps]

@[simp] theorem onAllOps_ch : (onAllOps f s).ch = s.ch := rfl
@[simp] theorem onAllOps_g : (onAllOps f s).g = s.g := rfl
@[simp] theorem onAllOps_h : (onAllOps f s).h = s.h := rfl
@[simp] theorem onAllOps_params : (onAllOps f s).params = s.params := rfl
@[simp] theorem onAllOps_pending : (onAllOps f s).pending = s.pending := rfl
@[simp] theorem onAllOps_observed : (onAllOps f s).observed = s.observed := rfl
@[simp] theorem onAllOps_chAt : (onAllOps f s).chAt c = s.chAt c := rfl
end

/-! ### Updates of one channel -/

section
variable (c d : Chan) (sl : Slot) (f : Channel → Channel) (s : State)

@[simp] theorem chAt_onCh : (onCh c f s).chAt d = if d = c then f (s.chAt c) else s.chAt d := by
  simp [State.chAt, onCh]

@[simp] theorem onCh_op : (onCh c f s).op = s.op := rfl
@[simp] theorem onCh_g : (onCh c f s).g = s.g := rfl
@[simp] theorem onCh_h : (onCh c f s).h = s.h := rfl
@[simp] theorem onCh_params : (onCh c f s).params = s.params := rfl
@[simp] theorem onCh_pending : (onCh c f s).pending = s.pending := rfl
@[simp] theorem onCh_observed : (onCh c f s).observed = s.observed := rfl
@[simp] theorem onCh_opAt : (onCh c f s).opAt d sl = s.opAt d sl := rfl
end

/-! ### Updates of every channel -/

section
variable (c : Chan) (sl : Slot) (f : Chan → Channel → Channel) (s : State)

@[simp] theorem chAt_onAllChs : (onAllChs f s).chAt c = f c (s.chAt c) := by
  simp [State.chAt, onAllChs]

@[simp] theorem onAllChs_op : (onAllChs f s).op = s.op := rfl
@[simp] theorem onAllChs_g : (onAllChs f s).g = s.g := rfl
@[simp] theorem onAllChs_h : (onAllChs f s).h = s.h := rfl
@[simp] theorem onAllChs_params : (onAllChs f s).params = s.params := rfl
@[simp] theorem onAllChs_pending : (onAllChs f s).pending = s.pending := rfl
@[simp] theorem onAllChs_observed : (onAllChs f s).observed = s.observed := rfl
@[simp] theorem onAllChs_opAt : (onAllChs f s).opAt c sl = s.opAt c sl := rfl
end

/-! ### Updates of the global record -/

section
variable (c : Chan) (sl : Slot) (f : Global → Global) (s : State)

@[simp] theorem onG_g : (onG f s).g = f s.g := rfl
@[simp] theorem onG_op : (onG f s).op = s.op := rfl
@[simp] theorem onG_ch : (onG f s).ch = s.ch := rfl
@[simp] theorem onG_h : (onG f s).h = s.h := rfl
@[simp] theorem onG_params : (onG f s).params = s.params := rfl
@[simp] theorem onG_pending : (onG f s).pending = s.pending := rfl
@[simp] theorem onG_observed : (onG f s).observed = s.observed := rfl
@[simp] theorem onG_opAt : (onG f s).opAt c sl = s.opAt c sl := rfl
@[simp] theorem onG_chAt : (onG f s).chAt c = s.chAt c := rfl
end

/-! ### Recording a result -/

section
variable (c : Chan) (sl : Slot) (o : Observation) (s : State)

@[simp] theorem observe_op : (observe o s).op = s.op := rfl
@[simp] theorem observe_ch : (observe o s).ch = s.ch := rfl
@[simp] theorem observe_g : (observe o s).g = s.g := rfl
@[simp] theorem observe_h : (observe o s).h = s.h := rfl
@[simp] theorem observe_params : (observe o s).params = s.params := rfl
@[simp] theorem observe_pending : (observe o s).pending = s.pending := rfl
@[simp] theorem observe_observed : (observe o s).observed = o :: s.observed := rfl
@[simp] theorem observe_opAt : (observe o s).opAt c sl = s.opAt c sl := rfl
@[simp] theorem observe_chAt : (observe o s).chAt c = s.chAt c := rfl
end

/-! ### Storing a sample pair -/

section
variable (c : Chan) (sl : Slot) (n : Nat) (out : Sample × Sample) (s : State)

@[simp] theorem storePair_op : (storePair n out s).op = s.op := rfl
@[simp] theorem storePair_ch : (storePair n out s).ch = s.ch := rfl
@[simp] theorem storePair_g : (storePair n out s).g = s.g := rfl
@[simp] theorem storePair_ready : (storePair n out s).h.ready = s.h.ready := rfl
@[simp] theorem storePair_params : (storePair n out s).params = s.params := rfl
@[simp] theorem storePair_pending : (storePair n out s).pending = s.pending := rfl
@[simp] theorem storePair_observed : (storePair n out s).observed = s.observed := rfl
@[simp] theorem storePair_opAt : (storePair n out s).opAt c sl = s.opAt c sl := rfl
@[simp] theorem storePair_chAt : (storePair n out s).chAt c = s.chAt c := rfl
end

/-- Two states with the same operators, channels and other records are equal. -/
theorem State.ext_at {s t : State} (ho : ∀ c sl, s.opAt c sl = t.opAt c sl) (hc : ∀ c, s.chAt c = t.chAt c)
    (hg : s.g = t.g) (hh : s.h = t.h) (hp : s.params = t.params) (hq : s.pending = t.pending)
    (hr : s.observed = t.observed) : s = t := by
  have h1 : s.op = t.op := Eight.ext_get fun c => Four.ext_get fun sl => ho c sl
  have h2 : s.ch = t.ch := Eight.ext_get hc
  cases s; cases t
  simp_all

/-! ### The reset state -/

@[simp] theorem reset_opAt (c : Chan) (sl : Slot) : State.reset.opAt c sl = Operator.reset := by
  simp [State.reset, State.opAt]

@[simp] theorem reset_chAt (c : Chan) : State.reset.chAt c = Channel.reset := by
  simp [State.reset, State.chAt]

@[simp] theorem resetAll_opAt (s : State) (c : Chan) (sl : Slot) : (resetAll s).opAt c sl = Operator.reset := by
  simp [resetAll, State.opAt]

@[simp] theorem resetAll_chAt (s : State) (c : Chan) : (resetAll s).chAt c = Channel.reset := by
  simp [resetAll, State.chAt]

@[simp] theorem resetAll_g (s : State) : (resetAll s).g = Global.reset := rfl
@[simp] theorem resetAll_ready (s : State) : (resetAll s).h.ready = true := rfl
@[simp] theorem resetAll_buffer (s : State) : (resetAll s).h.buffer = s.h.buffer := rfl
@[simp] theorem resetAll_params (s : State) : (resetAll s).params = s.params := rfl
@[simp] theorem resetAll_pending (s : State) : (resetAll s).pending = s.pending := rfl
@[simp] theorem resetAll_observed (s : State) : (resetAll s).observed = s.observed := rfl

end Machine

end Sys2Proof
end

