-- ==== Sys2Proof/Laws/Ops.lean ====
section
/-! SUPPORT. One lemma per shared operation that says once what it can do: the fault at the head of an
operation, the parameter check, the frame buffer, the loops. -/

namespace Sys2Proof.Machine

/-! ### The head of an operation -/

/-- An operation that answers a next state was performed on a ready machine. -/
@[simp] theorem whenReady_eq_next {a : Attempt} {s t u : State} :
    whenReady a s t = .next u ↔ s.h.ready = true ∧ t = u := by
  unfold whenReady; split <;> simp_all

/-- Before reset the operation faults and records itself. -/
theorem whenReady_not_ready {a : Attempt} {s t : State} (h : s.h.ready = false) :
    whenReady a s t = .fault (.useBeforeInit a) := by simp [whenReady, h]

/-- On a ready machine the operation is performed. -/
theorem whenReady_ready {a : Attempt} {s t : State} (h : s.h.ready = true) : whenReady a s t = .next t := by
  simp [whenReady, h]

/-- The parameter check passes exactly the accepted parameters. -/
theorem badParameter_eq_none {p : Params} : badParameter p = none ↔ paramsAccepted p := by
  unfold badParameter paramsAccepted
  repeat' split
  all_goals simp_all
  all_goals omega

/-- A reset that answers a next state had accepted parameters and reset everything. -/
theorem execRst_eq_next {s t : State} :
    execRst s = .next t ↔ paramsAccepted s.params ∧ t = resetAll s := by
  rw [← badParameter_eq_none]
  unfold execRst
  cases h : badParameter s.params <;> simp [eq_comm]

/-- The values the parameters have leave them as they are. -/
@[simp] theorem initParams_same (p : Params) : initParams p.rate p.fps p = p := rfl

/-- An `INIT` that answers a next state is the reset at its values, and on a machine already reset its values are
those the machine has. -/
theorem execInit_eq_next {rate fps : Nat} {s t : State} :
    execInit rate fps s = .next t ↔
      (s.h.ready = true → rate = s.params.rate ∧ fps = s.params.fps) ∧
        paramsAccepted (initParams rate fps s.params) ∧
        t = resetAll { s with params := initParams rate fps s.params } := by
  unfold execInit
  split
  · rename_i h
    exact ⟨fun h' => by simp at h', fun h' => absurd (h'.1 h.1) h.2⟩
  · rename_i h
    rw [execRst_eq_next]
    exact ⟨fun h' => ⟨fun hr => by_contra fun hn => h ⟨hr, hn⟩, h'⟩, fun h' => h'.2⟩

/-- An `INIT` with the values the parameters have is a `RST`. -/
theorem execInit_same (s : State) : execInit s.params.rate s.params.fps s = execRst s := by
  unfold execInit
  rw [if_neg (fun h => h.2 ⟨rfl, rfl⟩), initParams_same]

/-- An `INIT` with other values on a machine already reset is refused. -/
theorem execInit_refused {rate fps : Nat} {s : State} (hr : s.h.ready = true)
    (h : ¬ (rate = s.params.rate ∧ fps = s.params.fps)) :
    execInit rate fps s = .refused (.parametersFixed rate fps) := by
  unfold execInit
  rw [if_pos ⟨hr, h⟩]

/-! ### Loops -/

@[simp] theorem iter_zero {α : Type} (f : α → α) (a : α) : iter f 0 a = a := rfl

theorem iter_succ {α : Type} (f : α → α) (k : Nat) (a : α) : iter f (k + 1) a = iter f k (f a) := rfl

/-- The last repetition of a loop can be taken apart too. -/
theorem iter_succ_last {α : Type} (f : α → α) (k : Nat) (a : α) : iter f (k + 1) a = f (iter f k a) := by
  induction k generalizing a with
  | zero => rfl
  | succ k ih => rw [iter_succ, ih, iter_succ]

/-- Loops compose. -/
theorem iter_add {α : Type} (f : α → α) (m n : Nat) (a : α) : iter f (m + n) a = iter f n (iter f m a) := by
  induction m generalizing a with
  | zero => simp
  | succ m ih => rw [Nat.succ_add, iter_succ, ih, iter_succ]

/-- What every pass of a loop keeps, the loop keeps. -/
theorem iter_keeps {α : Type} {P : α → Prop} {f : α → α} (h : ∀ a, P a → P (f a)) (k : Nat) {a : α} (ha : P a) :
    P (iter f k a) := by
  induction k generalizing a with
  | zero => exact ha
  | succ k ih => exact ih (h a ha)

/-- A part of the state that no pass changes, the loop leaves alone. -/
theorem iter_frame {α β : Type} {view : α → β} {f : α → α} (h : ∀ a, view (f a) = view a) (k : Nat) (a : α) :
    view (iter f k a) = view a := by
  induction k generalizing a with
  | zero => rfl
  | succ k ih => rw [iter_succ, ih, h]

/-! ### The frame buffer -/

/-- A read after a write: the value written at its index, what was there elsewhere. -/
theorem Memory.read_write (m : Memory) (i j : Nat) (v : Sample) :
    Memory.read (Memory.write m i v) j = if j = i then some v else Memory.read m j := by
  induction m with
  | nil => by_cases h : j = i <;> simp [Memory.write, Memory.read, h]; exact fun e => absurd e.symm h
  | cons a rest ih =>
    obtain ⟨k, u⟩ := a
    unfold Memory.write
    split
    · by_cases h : j = i <;> simp [Memory.read, h]
      intro e; exact absurd e.symm h
    · split
      · rename_i hk; subst hk
        by_cases h : j = i <;> simp [Memory.read, h]
        have h' : ¬ i = j := fun e => h e.symm
        simp [h']
      · rename_i h1 h2
        by_cases hkj : k = j
        · subst hkj
          have : ¬ k = i := fun e => h2 e.symm
          simp [Memory.read, this]
        · simp [Memory.read, hkj, ih]

/-- A canonical buffer with a first cell: its first index lies below every other. -/
theorem Memory.wf_cons {k : Nat} {u : Sample} {m : Memory} :
    Memory.wf ((k, u) :: m) = true ↔ Memory.wf m = true ∧ ∀ c ∈ m, k < c.1 := by
  induction m generalizing k u with
  | nil => simp [Memory.wf]
  | cons a rest ih =>
    obtain ⟨j, w⟩ := a
    simp only [Memory.wf, Bool.and_eq_true, decide_eq_true_eq, List.mem_cons, forall_eq_or_imp]
    refine ⟨fun h => ⟨h.2, h.1, fun c hc => ?_⟩, fun h => ⟨h.2.1, h.1⟩⟩
    exact lt_trans h.1 ((ih.1 h.2).2 c hc)

/-- The cells of a written buffer: the one written and old ones. -/
theorem Memory.mem_write {m : Memory} {i : Nat} {v : Sample} {c : Cell} (h : c ∈ Memory.write m i v) :
    c = (i, v) ∨ c ∈ m := by
  induction m with
  | nil => simpa [Memory.write] using h
  | cons a rest ih =>
    obtain ⟨j, w⟩ := a
    unfold Memory.write at h
    split at h
    · simpa using h
    · split at h <;> simp only [List.mem_cons] at h ⊢
      · tauto
      · rcases h with h | h
        · exact .inr (.inl h)
        · have := ih h; tauto

/-- A write keeps the canonical form. -/
theorem Memory.wf_write (m : Memory) (i : Nat) (v : Sample) (h : Memory.wf m = true) :
    Memory.wf (Memory.write m i v) = true := by
  induction m with
  | nil => rfl
  | cons a rest ih =>
    obtain ⟨k, u⟩ := a
    have hk := Memory.wf_cons.1 h
    unfold Memory.write
    split
    · rename_i hik
      refine Memory.wf_cons.2 ⟨h, fun c hc => ?_⟩
      rcases List.mem_cons.1 hc with rfl | hc
      · exact hik
      · exact lt_trans hik (hk.2 c hc)
    · split
      · rename_i hik; subst hik; exact Memory.wf_cons.2 hk
      · refine Memory.wf_cons.2 ⟨ih hk.1, fun c hc => ?_⟩
        rcases Memory.mem_write hc with rfl | hc
        · show k < i; omega
        · exact hk.2 c hc

/-- The frame buffer of the reset state is canonical. -/
theorem Memory.wf_reset : Memory.wf State.reset.h.buffer = true := rfl

end Sys2Proof.Machine
end

