-- ==== Sys2Proof/Laws/Envelope.lean ====
section
/-! SUPPORT. What each operation of the envelope generator can do: the steps, key-on, key-off, and the parts of
the state the EG clock leaves alone. -/

namespace Sys2Proof.Machine

/-! ### Increments -/

/-- Every increment of the 19 shapes is at most 16; only shape 17 goes above 8. -/
theorem egInc_le (sel i : Nat) : egInc sel i ≤ 16 ∧ (sel ≠ 17 → egInc sel i ≤ 8) := by
  unfold egInc
  by_cases hs : sel < 19
  · by_cases hi : i < 8
    · interval_cases sel <;> interval_cases i <;> decide
    · have : ∀ r ∈ egIncRows, r.length = 8 := by decide
      have hl : (egIncRows.getD sel []).length = 8 := by
        apply this
        rw [List.getD_eq_getElem _ _ (by simpa [egIncRows] using hs)]
        exact List.getElem_mem _
      rw [List.getD_eq_default _ _ (by omega)]
      simp
  · have hr : egIncRows.length = 19 := rfl
    have hd : egIncRows.getD sel [] = [] := List.getD_eq_default _ _ (by omega)
    rw [hd]
    simp

/-- The increment of a rate is at most 16. -/
theorem rateInc_le (cnt : BitVec 32) (r : Rate) : rateInc cnt r ≤ 16 := (egInc_le _ _).1

/-- No index of the rate tables selects the instant shape 17. -/
theorem tableRate_sel_ne (idx : Nat) : (tableRate idx).sel ≠ 17 := by
  unfold tableRate egSel
  simp only
  split
  · omega
  · split
    · omega
    · split <;> omega

/-- The increment of a rate from the tables is at most 8. -/
theorem rateInc_table_le (cnt : BitVec 32) (idx : Nat) : rateInc cnt (tableRate idx) ≤ 8 :=
  (egInc_le _ _).2 (tableRate_sel_ne idx)

/-! ### The attack -/

/-- The attack formula as a floor division. -/
theorem attackVolume_eq (v inc : Nat) : attackVolume v inc = v + (-(v + 1 : Int) * inc) / 16 := by
  unfold attackVolume bnot shr
  norm_num
  ring_nf

/-- The attack never raises the volume. -/
theorem attackVolume_le (v inc : Nat) : attackVolume v inc ≤ v := by
  rw [attackVolume_eq]
  have : (-(v + 1 : Int) * inc) ≤ 0 := by
    have h1 : (0 : Int) ≤ (v + 1 : Int) * inc := by positivity
    linarith [h1]
  omega

/-- The attack goes below zero by at most one. -/
theorem attackVolume_ge (v inc : Nat) (h : inc ≤ 16) : -1 ≤ attackVolume v inc := by
  rw [attackVolume_eq]
  have h1 : ((v + 1 : Int) * inc) ≤ (v + 1 : Int) * 16 := by
    apply mul_le_mul_of_nonneg_left <;> [exact_mod_cast h; positivity]
  have h2 : -(v + 1 : Int) * inc = -((v + 1 : Int) * inc) := by ring
  rw [h2]
  generalize (v + 1 : Int) * inc = x at *
  omega

/-- With an increment of at least one the attack falls from any volume above zero. -/
theorem attackVolume_lt (v inc : Nat) (h : 1 ≤ inc) : attackVolume v inc < v := by
  rw [attackVolume_eq]
  have h1 : (v + 1 : Int) ≤ (v + 1 : Int) * inc := by
    have : (1 : Int) ≤ inc := by exact_mod_cast h
    nlinarith [this, Int.natCast_nonneg v]
  have h2 : -(v + 1 : Int) * inc = -((v + 1 : Int) * inc) := by ring
  rw [h2]
  generalize (v + 1 : Int) * inc = x at *
  omega

/-- What an attack step does: volume 0 and Decay1, or a lower volume still above 0 in the same state. -/
theorem attackStep_cases (inc : Nat) (o : Operator) :
    (attackVolume o.volume inc ≤ 0 ∧ attackStep inc o = { o with volume := 0, env := .decay1 }) ∨
    (0 < attackVolume o.volume inc ∧ ∃ v : Nat, (v : Int) = attackVolume o.volume inc ∧ v ≤ o.volume ∧
      attackStep inc o = { o with volume := v }) := by
  unfold attackStep
  by_cases h : attackVolume o.volume inc ≤ 0
  · exact .inl ⟨h, by simp [h]⟩
  · refine .inr ⟨by omega, (attackVolume o.volume inc).toNat, by omega, ?_, by simp [h]⟩
    have := attackVolume_le o.volume inc
    omega

/-! ### The other steps -/

/-- What a decay1 step does. -/
theorem decay1Step_cases (inc : Nat) (o : Operator) :
    (d1lTable o.d1l.toNat ≤ o.volume + inc ∧
      decay1Step inc o = { o with volume := o.volume + inc, env := .decay2 }) ∨
    (o.volume + inc < d1lTable o.d1l.toNat ∧ decay1Step inc o = { o with volume := o.volume + inc }) := by
  unfold decay1Step
  by_cases h : o.volume + inc ≥ d1lTable o.d1l.toNat
  · exact .inl ⟨h, by simp [h]⟩
  · exact .inr ⟨by omega, by simp [h]⟩

/-- What a decay2 or release step does. -/
theorem fallStep_cases (inc : Nat) (o : Operator) :
    (1023 ≤ o.volume + inc ∧ fallStep inc o = { o with volume := 1023, env := .off }) ∨
    (o.volume + inc < 1023 ∧ fallStep inc o = { o with volume := o.volume + inc }) := by
  unfold fallStep
  by_cases h : o.volume + inc ≥ 1023
  · exact .inl ⟨h, by simp [h]⟩
  · exact .inr ⟨by omega, by simp [h]⟩

/-- The thresholds of Decay1 are at most 992. -/
theorem d1lTable_le (x : BitVec 4) : d1lTable x.toNat ≤ 992 := by
  have := x.isLt
  unfold d1lTable
  split <;> omega

/-- What an EG step does: nothing, or the step of the operator's state at an increment that its rate gives. -/
theorem egStep_cases (cnt : BitVec 32) (kc : BitVec 7) (o : Operator) :
    egStep cnt kc o = o ∨
    (o.env = .attack ∧ ∃ inc ≤ 16, egStep cnt kc o = attackStep inc o) ∨
    (o.env = .decay1 ∧ ∃ inc ≤ 8, egStep cnt kc o = decay1Step inc o) ∨
    ((o.env = .decay2 ∨ o.env = .release) ∧ ∃ inc ≤ 8, egStep cnt kc o = fallStep inc o) := by
  unfold egStep
  cases h : o.env <;> simp only [gated]
  · exact .inl trivial
  · split
    · exact .inr (.inr (.inr ⟨.inr trivial, _, rateInc_table_le _ _, rfl⟩))
    · exact .inl rfl
  · split
    · exact .inr (.inr (.inr ⟨.inl trivial, _, rateInc_table_le _ _, rfl⟩))
    · exact .inl rfl
  · split
    · exact .inr (.inr (.inl ⟨trivial, _, rateInc_table_le _ _, rfl⟩))
    · exact .inl rfl
  · split
    · exact .inr (.inl ⟨trivial, _, rateInc_le _ _, rfl⟩)
    · exact .inl rfl

/-! ### What the steps leave alone -/

@[simp] theorem egStep_key (cnt : BitVec 32) (kc : BitVec 7) (o : Operator) : (egStep cnt kc o).key = o.key := by
  rcases egStep_cases cnt kc o with h | ⟨_, i, _, h⟩ | ⟨_, i, _, h⟩ | ⟨_, i, _, h⟩ <;> rw [h]
  · rcases attackStep_cases i o with ⟨_, h⟩ | ⟨_, _, _, _, h⟩ <;> rw [h]
  · rcases decay1Step_cases i o with ⟨_, h⟩ | ⟨_, h⟩ <;> rw [h]
  · rcases fallStep_cases i o with ⟨_, h⟩ | ⟨_, h⟩ <;> rw [h]

@[simp] theorem egStep_phase (cnt : BitVec 32) (kc : BitVec 7) (o : Operator) :
    (egStep cnt kc o).phase = o.phase := by
  rcases egStep_cases cnt kc o with h | ⟨_, i, _, h⟩ | ⟨_, i, _, h⟩ | ⟨_, i, _, h⟩ <;> rw [h]
  · rcases attackStep_cases i o with ⟨_, h⟩ | ⟨_, _, _, _, h⟩ <;> rw [h]
  · rcases decay1Step_cases i o with ⟨_, h⟩ | ⟨_, h⟩ <;> rw [h]
  · rcases fallStep_cases i o with ⟨_, h⟩ | ⟨_, h⟩ <;> rw [h]

@[simp] theorem egStep_programmed (cnt : BitVec 32) (kc : BitVec 7) (o : Operator) :
    (egStep cnt kc o).programmed = o.programmed := by
  rcases egStep_cases cnt kc o with h | ⟨_, i, _, h⟩ | ⟨_, i, _, h⟩ | ⟨_, i, _, h⟩ <;> rw [h]
  · rcases attackStep_cases i o with ⟨_, h⟩ | ⟨_, _, _, _, h⟩ <;> rw [h] <;> rfl
  · rcases decay1Step_cases i o with ⟨_, h⟩ | ⟨_, h⟩ <;> rw [h] <;> rfl
  · rcases fallStep_cases i o with ⟨_, h⟩ | ⟨_, h⟩ <;> rw [h] <;> rfl

/-- An operator in Off is left alone by the EG step. -/
theorem egStep_off (cnt : BitVec 32) (kc : BitVec 7) (o : Operator) (h : o.env = .off) : egStep cnt kc o = o := by
  simp [egStep, h]

/-! ### Key-on and key-off -/

/-- A key-on of an operator that is keyed on changes the key mask only. -/
theorem keyOn_held (cnt : BitVec 32) (kc : BitVec 7) (b : KeySource) (o : Operator) (h : o.key ≠ 0) :
    keyOn cnt kc b o = { o with key := setKey b o.key } := by
  unfold keyOn
  rw [if_neg h]

/-- A key-on of an operator that is not keyed on restarts it. -/
theorem keyOn_fresh (cnt : BitVec 32) (kc : BitVec 7) (b : KeySource) (o : Operator) (h : o.key = 0) :
    ∃ o', o' = attackStep (rateInc cnt (attackRate kc o)) { o with phase := 0, env := .attack } ∧
      keyOn cnt kc b o = { o' with key := setKey b o'.key } := by
  refine ⟨_, rfl, ?_⟩
  simp [keyOn, h]

@[simp] theorem keyOn_programmed (cnt : BitVec 32) (kc : BitVec 7) (b : KeySource) (o : Operator) :
    (keyOn cnt kc b o).programmed = o.programmed := by
  by_cases h : o.key = 0
  · obtain ⟨o', ho', hk⟩ := keyOn_fresh cnt kc b o h
    rw [hk]
    rcases attackStep_cases (rateInc cnt (attackRate kc o)) { o with phase := 0, env := .attack } with
      ⟨_, h⟩ | ⟨_, _, _, _, h⟩ <;> rw [ho', h] <;> rfl
  · rw [keyOn_held _ _ _ _ h]; rfl

/-- A key-on sets the key bit of its source and leaves the other. -/
@[simp] theorem keyOn_key (cnt : BitVec 32) (kc : BitVec 7) (b : KeySource) (o : Operator) :
    (keyOn cnt kc b o).key = setKey b o.key := by
  by_cases h : o.key = 0
  · obtain ⟨o', ho', hk⟩ := keyOn_fresh cnt kc b o h
    rw [hk]
    rcases attackStep_cases (rateInc cnt (attackRate kc o)) { o with phase := 0, env := .attack } with
      ⟨_, h⟩ | ⟨_, _, _, _, h⟩ <;> rw [ho', h]
  · rw [keyOn_held _ _ _ _ h]

/-- What a key-off does: the key bit is cleared, and an operator no longer keyed on leaves the states above
Release. -/
theorem keyOff_cases (b : KeySource) (o : Operator) :
    (clearKey b o.key = 0 ∧ aboveRelease o.env = true ∧
      keyOff b o = { o with key := clearKey b o.key, env := .release }) ∨
    (¬ (clearKey b o.key = 0 ∧ aboveRelease o.env = true) ∧
      keyOff b o = { o with key := clearKey b o.key }) := by
  unfold keyOff
  by_cases h : clearKey b o.key = 0 ∧ aboveRelease o.env = true
  · exact .inl ⟨h.1, h.2, by simp [h]⟩
  · refine .inr ⟨h, ?_⟩
    simp only [h, if_false]

@[simp] theorem keyOff_programmed (b : KeySource) (o : Operator) : (keyOff b o).programmed = o.programmed := by
  rcases keyOff_cases b o with ⟨_, _, h⟩ | ⟨_, h⟩ <;> rw [h] <;> rfl

@[simp] theorem keyOff_key (b : KeySource) (o : Operator) : (keyOff b o).key = clearKey b o.key := by
  rcases keyOff_cases b o with ⟨_, _, h⟩ | ⟨_, h⟩ <;> rw [h]

@[simp] theorem keyOff_volume (b : KeySource) (o : Operator) : (keyOff b o).volume = o.volume := by
  rcases keyOff_cases b o with ⟨_, _, h⟩ | ⟨_, h⟩ <;> rw [h]

@[simp] theorem keyOff_phase (b : KeySource) (o : Operator) : (keyOff b o).phase = o.phase := by
  rcases keyOff_cases b o with ⟨_, _, h⟩ | ⟨_, h⟩ <;> rw [h]

/-! ### The invariant of an operator -/

theorem setKey_ne_zero (b : KeySource) (k : BitVec 2) : setKey b k ≠ 0 := by
  cases b <;> revert k <;> decide

/-- The EG step keeps an operator in range. -/
theorem egStep_ok (cnt : BitVec 32) (kc : BitVec 7) (o : Operator) (h : o.ok) : (egStep cnt kc o).ok := by
  obtain ⟨h1, h2, h3, h4⟩ := h
  rcases egStep_cases cnt kc o with e | ⟨he, i, hi, e⟩ | ⟨he, i, hi, e⟩ | ⟨he, i, hi, e⟩ <;> rw [e]
  · exact ⟨h1, h2, h3, h4⟩
  · rcases attackStep_cases i o with ⟨_, e⟩ | ⟨_, v, _, hv, e⟩ <;> rw [e]
    · refine ⟨by simp, by simp, by simp, fun hk => ?_⟩
      have := h4 hk; simp [he] at this
    · refine ⟨by simp; omega, by simp [he], by simp [he], fun hk => ?_⟩
      exact h4 hk
  · have hv := h2 he
    have hd := d1lTable_le o.d1l
    rcases decay1Step_cases i o with ⟨_, e⟩ | ⟨hlt, e⟩ <;> rw [e]
    · refine ⟨by simp; omega, by simp, by simp, fun hk => ?_⟩
      have := h4 hk; simp [he] at this
    · refine ⟨by simp; omega, fun _ => by simp; omega, by simp [he], h4⟩
  · rcases fallStep_cases i o with ⟨_, e⟩ | ⟨hlt, e⟩ <;> rw [e]
    · exact ⟨by simp, by simp, by simp, fun _ => .inl rfl⟩
    · refine ⟨by simp; omega, ?_, ?_, h4⟩ <;> rcases he with he | he <;> simp [he]

/-- A key-on keeps an operator in range. -/
theorem keyOn_ok (cnt : BitVec 32) (kc : BitVec 7) (b : KeySource) (o : Operator) (h : o.ok) :
    (keyOn cnt kc b o).ok := by
  obtain ⟨h1, h2, h3, h4⟩ := h
  by_cases hk : o.key = 0
  · obtain ⟨o', ho', e⟩ := keyOn_fresh cnt kc b o hk
    rw [e]
    have hne := setKey_ne_zero b o'.key
    rcases attackStep_cases (rateInc cnt (attackRate kc o)) { o with phase := 0, env := .attack } with
      ⟨_, e⟩ | ⟨_, v, _, hv, e⟩ <;> rw [e] at ho'
    · subst ho'
      exact ⟨by simp, by simp, by simp, fun hz => absurd hz hne⟩
    · subst ho'
      have hv' : v ≤ o.volume := hv
      refine ⟨?_, by simp, by simp, fun hz => absurd hz hne⟩
      show v ≤ 1023
      omega
  · rw [keyOn_held _ _ _ _ hk]
    exact ⟨h1, h2, h3, fun hz => absurd hz (setKey_ne_zero b o.key)⟩

/-- A key-off keeps an operator in range. -/
theorem keyOff_ok (b : KeySource) (o : Operator) (h : o.ok) : (keyOff b o).ok := by
  obtain ⟨h1, h2, h3, h4⟩ := h
  rcases keyOff_cases b o with ⟨_, ha, e⟩ | ⟨hn, e⟩ <;> rw [e]
  · exact ⟨h1, by simp, by simp, fun _ => .inr rfl⟩
  · refine ⟨h1, h2, h3, fun hz => ?_⟩
    have hz' : clearKey b o.key = 0 := hz
    cases he : o.env <;> simp_all [aboveRelease]

/-! ### The EG clock -/

section
variable (f : Chan → Slot → Operator → Operator) (k : Global → Global) (s : State)

/-! The shape of a pass, for any change of the global record: stated apart so that the kernel never compares
the accumulator with itself less an overflow. -/

theorem passShape_ch : (onAllOps f (onG k s)).ch = s.ch := rfl
theorem passShape_h : (onAllOps f (onG k s)).h = s.h := rfl
theorem passShape_params : (onAllOps f (onG k s)).params = s.params := rfl
theorem passShape_pending : (onAllOps f (onG k s)).pending = s.pending := rfl
theorem passShape_observed : (onAllOps f (onG k s)).observed = s.observed := rfl
theorem passShape_g : (onAllOps f (onG k s)).g = k s.g := rfl
theorem passShape_opAt (e : BitVec 32 → BitVec 7 → Operator → Operator) (c : Chan) (sl : Slot) :
    (onAllOps (fun c _ o => e (onG k s).g.egCnt ((onG k s).chAt c).kc o) (onG k s)).opAt c sl =
      e (k s.g).egCnt (s.chAt c).kc (s.opAt c sl) := by
  rw [opAt_onAllOps]; rfl
end

section
variable (s : State) (c : Chan) (sl : Slot)

@[simp] theorem egPass_ch : (egPass s).ch = s.ch := passShape_ch _ _ _
@[simp] theorem egPass_h : (egPass s).h = s.h := passShape_h _ _ _
@[simp] theorem egPass_params : (egPass s).params = s.params := passShape_params _ _ _
@[simp] theorem egPass_pending : (egPass s).pending = s.pending := passShape_pending _ _ _
@[simp] theorem egPass_observed : (egPass s).observed = s.observed := passShape_observed _ _ _
@[simp] theorem egPass_chAt : (egPass s).chAt c = s.chAt c := by simp only [State.chAt, egPass_ch]
@[simp] theorem egPass_g :
    (egPass s).g = { s.g with egTimer := s.g.egTimer - egTimerOverflow, egCnt := s.g.egCnt + 1 } := passShape_g _ _ _
@[simp] theorem egPass_opAt :
    (egPass s).opAt c sl = egStep (s.g.egCnt + 1) (s.chAt c).kc (s.opAt c sl) :=
  passShape_opAt _ _ egStep _ _

@[simp] theorem egTick_ch : (egTick s).ch = s.ch := by
  unfold egTick; rw [iter_frame (view := State.ch) egPass_ch, onG_ch]
@[simp] theorem egTick_chAt : (egTick s).chAt c = s.chAt c := by simp only [State.chAt, egTick_ch]
@[simp] theorem egTick_h : (egTick s).h = s.h := by
  unfold egTick; rw [iter_frame (view := State.h) egPass_h, onG_h]
@[simp] theorem egTick_params : (egTick s).params = s.params := by
  unfold egTick; rw [iter_frame (view := State.params) egPass_params, onG_params]
@[simp] theorem egTick_pending : (egTick s).pending = s.pending := by
  unfold egTick; rw [iter_frame (view := State.pending) egPass_pending, onG_pending]
@[simp] theorem egTick_observed : (egTick s).observed = s.observed := by
  unfold egTick; rw [iter_frame (view := State.observed) egPass_observed, onG_observed]
end

/-- The global record after `k` passes: the timer down by `k` overflows, the counter up by `k`. -/
theorem iter_egPass_g (k : Nat) (s : State) :
    (iter egPass k s).g =
      { s.g with egTimer := s.g.egTimer - k * egTimerOverflow, egCnt := s.g.egCnt + BitVec.ofNat 32 k } := by
  induction k generalizing s with
  | zero => simp
  | succ k ih =>
    rw [iter_succ, ih]
    have h1 : s.g.egTimer - egTimerOverflow - k * egTimerOverflow = s.g.egTimer - (k + 1) * egTimerOverflow := by
      rw [Nat.succ_mul]; omega
    have h2 : s.g.egCnt + 1 + BitVec.ofNat 32 k = s.g.egCnt + BitVec.ofNat 32 (k + 1) := by
      rw [BitVec.add_assoc, BitVec.ofNat_add, BitVec.add_comm 1]
      rfl
    rw [egPass_g]
    simp only [h1, h2]

/-- The global record after the EG tick: nothing of it but the accumulator and the counter changes. -/
theorem egTick_g (s : State) :
    (egTick s).g =
      { s.g with
        egTimer := (s.g.egTimer + egTimerAdd s.params) % egTimerOverflow
        egCnt := s.g.egCnt + BitVec.ofNat 32 ((s.g.egTimer + egTimerAdd s.params) / egTimerOverflow) } := by
  simp only [egTick, iter_egPass_g, onG_g]
  have h : ∀ x y : Nat, x - x / y * y = x % y := fun x y => by
    have := Nat.div_add_mod' x y; omega
  rw [h]

/-- A property of each operator that no EG step breaks holds after the EG tick. -/
theorem egTick_op_keeps {P : Operator → Prop} (hP : ∀ cnt kc o, P o → P (egStep cnt kc o)) (s : State)
    (c : Chan) (sl : Slot) (h : P (s.opAt c sl)) : P ((egTick s).opAt c sl) := by
  unfold egTick
  exact iter_keeps (P := fun s => P (s.opAt c sl)) (fun (s : State) hs => by
    rw [egPass_opAt]; exact hP _ _ _ hs) _ (by rw [onG_opAt (f := fun g => { g with egTimer := g.egTimer + egTimerAdd s.params })]; exact h)

@[simp] theorem egTick_key (s : State) (c : Chan) (sl : Slot) : ((egTick s).opAt c sl).key = (s.opAt c sl).key :=
  egTick_op_keeps (P := fun o => o.key = (s.opAt c sl).key) (fun _ _ _ h => by simpa using h) s c sl rfl

@[simp] theorem egTick_phase (s : State) (c : Chan) (sl : Slot) :
    ((egTick s).opAt c sl).phase = (s.opAt c sl).phase :=
  egTick_op_keeps (P := fun o => o.phase = (s.opAt c sl).phase) (fun _ _ _ h => by simpa using h) s c sl rfl

@[simp] theorem egTick_programmed (s : State) (c : Chan) (sl : Slot) :
    ((egTick s).opAt c sl).programmed = (s.opAt c sl).programmed :=
  egTick_op_keeps (P := fun o => o.programmed = (s.opAt c sl).programmed) (fun _ _ _ h => by simpa using h) s c sl
    rfl

end Sys2Proof.Machine
end

