-- ==== Sys2Proof/Laws/Tick.lean ====
section
/-! SUPPORT. What each part of a sample tick can do, and what the tick as a whole does: its global record, each
operator, each channel, and the parts of the state it leaves alone. -/

namespace Sys2Proof.Machine

/-! ### The parts of a tick -/

section
variable (s : State) (c : Chan) (sl : Slot)

@[simp] theorem mixerTick_g : (mixerTick s).g = s.g := rfl
@[simp] theorem mixerTick_opAt : (mixerTick s).opAt c sl = s.opAt c sl := rfl
@[simp] theorem mixerTick_h : (mixerTick s).h = s.h := rfl
@[simp] theorem mixerTick_params : (mixerTick s).params = s.params := rfl
@[simp] theorem mixerTick_pending : (mixerTick s).pending = s.pending := rfl
@[simp] theorem mixerTick_observed : (mixerTick s).observed = s.observed := rfl
@[simp] theorem mixerTick_chAt : (mixerTick s).chAt c = chanStore s c (s.chAt c) := by
  unfold mixerTick; rw [chAt_onAllChs]

theorem advance_h : (advance s).h = s.h := rfl
theorem advance_params : (advance s).params = s.params := rfl
theorem advance_pending : (advance s).pending = s.pending := rfl
theorem advance_observed : (advance s).observed = s.observed := rfl
theorem advance_ch : (advance s).ch = s.ch := rfl
end

/-- The global record through steps 4b, 5a and 5b of a tick: timers, LFO, noise. -/
def clocks (p : Params) (g : Global) : Global :=
  noiseAdvance p (lfoOutputs (lfoPhaseStep p (timerBStep p (timerAStep p g))))

theorem advance_g (s : State) :
    (advance s).g = { clocks s.params s.g with csmReq := csmNext (clocks s.params s.g).csmReq } := rfl

theorem advance_opAt (s : State) (c : Chan) (sl : Slot) :
    (advance s).opAt c sl =
      csmOp (clocks s.params s.g).csmReq (clocks s.params s.g).egCnt (s.chAt c).kc
        (phaseStep s.params (clocks s.params s.g).lfp (s.chAt c) (s.opAt c sl)) := by
  unfold advance csmTick phaseTick
  simp only [onG_opAt, opAt_onAllOps]
  rfl

/-! ### The tick -/

section
variable (s : State) (c : Chan) (sl : Slot)

@[simp] theorem tick_h : (tick s).h = s.h := by
  unfold tick; rw [advance_h, observe_h, mixerTick_h, egTick_h]
@[simp] theorem tick_params : (tick s).params = s.params := by
  unfold tick; rw [advance_params, observe_params, mixerTick_params, egTick_params]
@[simp] theorem tick_pending : (tick s).pending = s.pending := by
  unfold tick; rw [advance_pending, observe_pending, mixerTick_pending, egTick_pending]
@[simp] theorem tick_observed :
    (tick s).observed = .sample (tickSample s).1 (tickSample s).2 :: s.observed := by
  unfold tick; rw [advance_observed, observe_observed, mixerTick_observed, egTick_observed]; rfl

/-- The channels after a tick: MEM and M1's history stored, nothing else. -/
theorem tick_chAt : (tick s).chAt c = chanStore (egTick s) c (s.chAt c) := by
  unfold tick
  rw [State.chAt, advance_ch, ← State.chAt, observe_chAt, mixerTick_chAt, egTick_chAt]

/-- The global record after a tick. -/
theorem tick_g :
    (tick s).g =
      { clocks s.params (egTick s).g with csmReq := csmNext (clocks s.params (egTick s).g).csmReq } := by
  unfold tick
  rw [advance_g, observe_params, mixerTick_params, egTick_params, observe_g, mixerTick_g]

/-- The phase step reads of its channel what the channel computation does not store. -/
theorem phaseStep_chanStore (p : Params) (l : Int) (t : State) (ch : Channel) (o : Operator) :
    phaseStep p l (chanStore t c ch) o = phaseStep p l ch o := rfl

/-- Each operator after a tick: its EG steps, its phase advance, and the CSM request resolved on it. -/
theorem tick_opAt :
    (tick s).opAt c sl =
      csmOp (clocks s.params (egTick s).g).csmReq (clocks s.params (egTick s).g).egCnt (s.chAt c).kc
        (phaseStep s.params (clocks s.params (egTick s).g).lfp (s.chAt c) ((egTick s).opAt c sl)) := by
  unfold tick
  rw [advance_opAt, observe_params, mixerTick_params, egTick_params, observe_g, mixerTick_g, observe_chAt,
    mixerTick_chAt, phaseStep_chanStore, observe_opAt, mixerTick_opAt, egTick_chAt]
  rfl
end

/-! ### The programmed fields -/

@[simp] theorem chanStore_programmed (t : State) (c : Chan) (ch : Channel) :
    (chanStore t c ch).programmed = ch.programmed := rfl

@[simp] theorem phaseStep_programmed (p : Params) (l : Int) (ch : Channel) (o : Operator) :
    (phaseStep p l ch o).programmed = o.programmed := rfl

@[simp] theorem csmOp_programmed (r : CsmReq) (cnt : BitVec 32) (kc : BitVec 7) (o : Operator) :
    (csmOp r cnt kc o).programmed = o.programmed := by
  cases r
  · rfl
  · exact keyOff_programmed _ _
  · exact keyOn_programmed _ _ _ _

theorem timerAStep_programmed (p : Params) (g : Global) : (timerAStep p g).programmed = g.programmed := by
  unfold timerAStep setStatusA
  dsimp only
  split
  · split
    · split <;> rfl
    · rfl
  · rfl

theorem timerBStep_programmed (p : Params) (g : Global) : (timerBStep p g).programmed = g.programmed := by
  unfold timerBStep setStatusB
  dsimp only
  split
  · split <;> rfl
  · rfl

theorem lfoPhaseStep_programmed (p : Params) (g : Global) : (lfoPhaseStep p g).programmed = g.programmed := by
  unfold lfoPhaseStep lfoAccumulate
  dsimp only
  split
  · rfl
  · split <;> rfl

/-- The clocks change no control field. -/
theorem clocks_programmed (p : Params) (g : Global) : (clocks p g).programmed = g.programmed := by
  show (lfoPhaseStep p (timerBStep p (timerAStep p g))).programmed = _
  rw [lfoPhaseStep_programmed, timerBStep_programmed, timerAStep_programmed]

/-! ### What each clock reads and writes -/

section
variable (p : Params) (g : Global)

theorem timerAStep_cases :
    timerAStep p g = g ∨
    (g.taRun = true ∧ 0 < g.taVal - 65536 ∧ timerAStep p g = { g with taVal := g.taVal - 65536 }) ∨
    (g.taRun = true ∧ g.taVal - 65536 ≤ 0 ∧
      timerAStep p g =
        { g with
          taVal := g.taVal - 65536 + timATable p g.taIdx.toNat
          status := g.status ||| 1#2
          csmReq := if g.csmEn then .keyOnPending else g.csmReq }) := by
  unfold timerAStep
  by_cases h : g.taRun
  · by_cases hv : g.taVal - 65536 ≤ 0
    · refine .inr (.inr ⟨h, hv, ?_⟩)
      simp only [h, hv, if_true, setStatusA]
      by_cases hc : g.csmEn <;> simp [hc]
    · refine .inr (.inl ⟨h, by omega, ?_⟩)
      simp [h, hv]
  · exact .inl (by simp [h])

theorem timerBStep_cases :
    timerBStep p g = g ∨
    (g.tbRun = true ∧ 0 < g.tbVal - 65536 ∧ timerBStep p g = { g with tbVal := g.tbVal - 65536 }) ∨
    (g.tbRun = true ∧ g.tbVal - 65536 ≤ 0 ∧
      timerBStep p g =
        { g with
          tbVal := g.tbVal - 65536 + timBTable p g.tbIdx.toNat
          status := g.status ||| 2#2 }) := by
  unfold timerBStep
  by_cases h : g.tbRun
  · by_cases hv : g.tbVal - 65536 ≤ 0
    · exact .inr (.inr ⟨h, hv, by simp [h, hv, setStatusB]⟩)
    · exact .inr (.inl ⟨h, by omega, by simp [h, hv]⟩)
  · exact .inl (by simp [h])

/-- The LFO's part of a tick writes its five dynamic fields. -/
theorem lfoPhaseStep_frame :
    ∃ t k ph, lfoPhaseStep p g = { g with lfoTimer := t, lfoCounter := k, lfoPhase := ph } := by
  unfold lfoPhaseStep lfoAccumulate
  dsimp only
  split
  · exact ⟨_, _, _, rfl⟩
  · split <;> exact ⟨_, _, _, rfl⟩

/-- The LFO's phase step reads and writes the LFO's own fields, the frequency and the test byte only. -/
theorem lfoPhaseStep_congr {x y : Global} (h1 : x.lfoPhase = y.lfoPhase) (h2 : x.lfoTimer = y.lfoTimer)
    (h3 : x.lfoCounter = y.lfoCounter) (h4 : x.test = y.test) (h5 : x.lfrq = y.lfrq) :
    (lfoPhaseStep p x).lfoPhase = (lfoPhaseStep p y).lfoPhase ∧
      (lfoPhaseStep p x).lfoTimer = (lfoPhaseStep p y).lfoTimer ∧
      (lfoPhaseStep p x).lfoCounter = (lfoPhaseStep p y).lfoCounter := by
  unfold lfoPhaseStep lfoAccumulate
  dsimp only
  rw [h4, h5, h2, h3]
  split
  · exact ⟨rfl, rfl, rfl⟩
  · split
    · exact ⟨by rw [h1], rfl, rfl⟩
    · exact ⟨h1, rfl, rfl⟩

@[simp] theorem timerAStep_egTimer : (timerAStep p g).egTimer = g.egTimer := by
  rcases timerAStep_cases p g with h | ⟨_, _, h⟩ | ⟨_, _, h⟩ <;> rw [h]
@[simp] theorem timerAStep_egCnt : (timerAStep p g).egCnt = g.egCnt := by
  rcases timerAStep_cases p g with h | ⟨_, _, h⟩ | ⟨_, _, h⟩ <;> rw [h]
@[simp] theorem timerAStep_lfoTimer : (timerAStep p g).lfoTimer = g.lfoTimer := by
  rcases timerAStep_cases p g with h | ⟨_, _, h⟩ | ⟨_, _, h⟩ <;> rw [h]
@[simp] theorem timerAStep_lfoCounter : (timerAStep p g).lfoCounter = g.lfoCounter := by
  rcases timerAStep_cases p g with h | ⟨_, _, h⟩ | ⟨_, _, h⟩ <;> rw [h]
@[simp] theorem timerAStep_lfoPhase : (timerAStep p g).lfoPhase = g.lfoPhase := by
  rcases timerAStep_cases p g with h | ⟨_, _, h⟩ | ⟨_, _, h⟩ <;> rw [h]
@[simp] theorem timerAStep_noiseP : (timerAStep p g).noiseP = g.noiseP := by
  rcases timerAStep_cases p g with h | ⟨_, _, h⟩ | ⟨_, _, h⟩ <;> rw [h]
@[simp] theorem timerAStep_noiseRng : (timerAStep p g).noiseRng = g.noiseRng := by
  rcases timerAStep_cases p g with h | ⟨_, _, h⟩ | ⟨_, _, h⟩ <;> rw [h]
@[simp] theorem timerAStep_tbVal : (timerAStep p g).tbVal = g.tbVal := by
  rcases timerAStep_cases p g with h | ⟨_, _, h⟩ | ⟨_, _, h⟩ <;> rw [h]
@[simp] theorem timerAStep_tbRun : (timerAStep p g).tbRun = g.tbRun := by
  rcases timerAStep_cases p g with h | ⟨_, _, h⟩ | ⟨_, _, h⟩ <;> rw [h]
@[simp] theorem timerAStep_tbIdx : (timerAStep p g).tbIdx = g.tbIdx := by
  rcases timerAStep_cases p g with h | ⟨_, _, h⟩ | ⟨_, _, h⟩ <;> rw [h]

@[simp] theorem timerBStep_egTimer : (timerBStep p g).egTimer = g.egTimer := by
  rcases timerBStep_cases p g with h | ⟨_, _, h⟩ | ⟨_, _, h⟩ <;> rw [h]
@[simp] theorem timerBStep_egCnt : (timerBStep p g).egCnt = g.egCnt := by
  rcases timerBStep_cases p g with h | ⟨_, _, h⟩ | ⟨_, _, h⟩ <;> rw [h]
@[simp] theorem timerBStep_lfoTimer : (timerBStep p g).lfoTimer = g.lfoTimer := by
  rcases timerBStep_cases p g with h | ⟨_, _, h⟩ | ⟨_, _, h⟩ <;> rw [h]
@[simp] theorem timerBStep_lfoCounter : (timerBStep p g).lfoCounter = g.lfoCounter := by
  rcases timerBStep_cases p g with h | ⟨_, _, h⟩ | ⟨_, _, h⟩ <;> rw [h]
@[simp] theorem timerBStep_lfoPhase : (timerBStep p g).lfoPhase = g.lfoPhase := by
  rcases timerBStep_cases p g with h | ⟨_, _, h⟩ | ⟨_, _, h⟩ <;> rw [h]
@[simp] theorem timerBStep_noiseP : (timerBStep p g).noiseP = g.noiseP := by
  rcases timerBStep_cases p g with h | ⟨_, _, h⟩ | ⟨_, _, h⟩ <;> rw [h]
@[simp] theorem timerBStep_noiseRng : (timerBStep p g).noiseRng = g.noiseRng := by
  rcases timerBStep_cases p g with h | ⟨_, _, h⟩ | ⟨_, _, h⟩ <;> rw [h]
@[simp] theorem timerBStep_taVal : (timerBStep p g).taVal = g.taVal := by
  rcases timerBStep_cases p g with h | ⟨_, _, h⟩ | ⟨_, _, h⟩ <;> rw [h]
@[simp] theorem timerBStep_csmReq : (timerBStep p g).csmReq = g.csmReq := by
  rcases timerBStep_cases p g with h | ⟨_, _, h⟩ | ⟨_, _, h⟩ <;> rw [h]

@[simp] theorem clocks_egTimer : (clocks p g).egTimer = g.egTimer := by
  show (lfoPhaseStep p (timerBStep p (timerAStep p g))).egTimer = _
  obtain ⟨_, _, _, h⟩ := lfoPhaseStep_frame p (timerBStep p (timerAStep p g))
  simp [h]
@[simp] theorem clocks_egCnt : (clocks p g).egCnt = g.egCnt := by
  show (lfoPhaseStep p (timerBStep p (timerAStep p g))).egCnt = _
  obtain ⟨_, _, _, h⟩ := lfoPhaseStep_frame p (timerBStep p (timerAStep p g))
  simp [h]
@[simp] theorem clocks_csmReq : (clocks p g).csmReq = (timerAStep p g).csmReq := by
  show (lfoPhaseStep p (timerBStep p (timerAStep p g))).csmReq = _
  obtain ⟨_, _, _, h⟩ := lfoPhaseStep_frame p (timerBStep p (timerAStep p g))
  simp [h]
@[simp] theorem clocks_status : (clocks p g).status = (timerBStep p (timerAStep p g)).status := by
  show (lfoPhaseStep p (timerBStep p (timerAStep p g))).status = _
  obtain ⟨_, _, _, h⟩ := lfoPhaseStep_frame p (timerBStep p (timerAStep p g))
  simp [h]
@[simp] theorem clocks_taVal : (clocks p g).taVal = (timerAStep p g).taVal := by
  show (lfoPhaseStep p (timerBStep p (timerAStep p g))).taVal = _
  obtain ⟨_, _, _, h⟩ := lfoPhaseStep_frame p (timerBStep p (timerAStep p g))
  simp [h]
@[simp] theorem clocks_tbVal : (clocks p g).tbVal = (timerBStep p (timerAStep p g)).tbVal := by
  show (lfoPhaseStep p (timerBStep p (timerAStep p g))).tbVal = _
  obtain ⟨_, _, _, h⟩ := lfoPhaseStep_frame p (timerBStep p (timerAStep p g))
  simp [h]
end

/-! ### The timers through a tick -/

section
variable (p : Params) (g : Global)

theorem timerAStep_stopped (h : g.taRun = false) : timerAStep p g = g := by simp [timerAStep, h]

theorem timerAStep_waits (h : g.taRun = true) (hv : 65536 < g.taVal) :
    timerAStep p g = { g with taVal := g.taVal - 65536 } := by
  have hn : ¬ g.taVal - 65536 ≤ 0 := by omega
  unfold timerAStep
  rw [if_pos h]
  exact if_neg hn

theorem timerAStep_expires (h : g.taRun = true) (hv : g.taVal ≤ 65536) :
    timerAStep p g =
      { g with
        taVal := g.taVal - 65536 + timATable p g.taIdx.toNat
        status := g.status ||| 1#2
        csmReq := if g.csmEn then .keyOnPending else g.csmReq } := by
  have hn : g.taVal - 65536 ≤ 0 := by omega
  unfold timerAStep
  rw [if_pos h]
  refine (if_pos hn).trans ?_
  cases g.csmEn <;> simp [setStatusA]

theorem timerBStep_stopped (h : g.tbRun = false) : timerBStep p g = g := by simp [timerBStep, h]

theorem timerBStep_waits (h : g.tbRun = true) (hv : 65536 < g.tbVal) :
    timerBStep p g = { g with tbVal := g.tbVal - 65536 } := by
  have hn : ¬ g.tbVal - 65536 ≤ 0 := by omega
  unfold timerBStep
  rw [if_pos h]
  exact if_neg hn

theorem timerBStep_expires (h : g.tbRun = true) (hv : g.tbVal ≤ 65536) :
    timerBStep p g =
      { g with
        tbVal := g.tbVal - 65536 + timBTable p g.tbIdx.toNat
        status := g.status ||| 2#2 } := by
  have hn : g.tbVal - 65536 ≤ 0 := by omega
  unfold timerBStep
  rw [if_pos h]
  exact if_pos hn

/-- The timers neither read nor write the EG accumulator and counter. -/
theorem timerAStep_egFrame (x : Nat) (y : BitVec 32) :
    timerAStep p { g with egTimer := x, egCnt := y } = { timerAStep p g with egTimer := x, egCnt := y } := by
  unfold timerAStep setStatusA
  dsimp only
  split
  · split
    · split <;> rfl
    · rfl
  · rfl

theorem timerBStep_egFrame (x : Nat) (y : BitVec 32) :
    timerBStep p { g with egTimer := x, egCnt := y } = { timerBStep p g with egTimer := x, egCnt := y } := by
  unfold timerBStep setStatusB
  dsimp only
  split
  · split <;> rfl
  · rfl

/-- Timer B keeps the Timer A status bit. -/
@[simp] theorem timerBStep_statusA : (timerBStep p g).status.getLsbD 0 = g.status.getLsbD 0 := by
  rcases timerBStep_cases p g with h | ⟨_, _, h⟩ | ⟨_, _, h⟩ <;> rw [h]
  show (g.status ||| 2#2).getLsbD 0 = _
  simp

/-- Timer A keeps the Timer B status bit. -/
@[simp] theorem timerAStep_statusB : (timerAStep p g).status.getLsbD 1 = g.status.getLsbD 1 := by
  rcases timerAStep_cases p g with h | ⟨_, _, h⟩ | ⟨_, _, h⟩ <;> rw [h]
  show (g.status ||| 1#2).getLsbD 1 = _
  simp

/-- The status bit of Timer B depends on the Timer B fields only. -/
theorem timerBStep_statusB_after_A :
    (timerBStep p (timerAStep p g)).status.getLsbD 1 = (timerBStep p g).status.getLsbD 1 := by
  cases hr : g.tbRun
  · rw [timerBStep_stopped p g hr, timerBStep_stopped p _ (by simpa using hr), timerAStep_statusB]
  · rcases lt_or_ge 65536 g.tbVal with hv | hv
    · rw [timerBStep_waits p g hr hv, timerBStep_waits p _ (by simpa using hr) (by simpa using hv)]
      exact timerAStep_statusB p g
    · rw [timerBStep_expires p g hr hv, timerBStep_expires p _ (by simpa using hr) (by simpa using hv)]
      show (_ ||| 2#2).getLsbD 1 = (_ ||| 2#2).getLsbD 1
      simp

/-- The value of Timer B depends on the Timer B fields only. -/
theorem timerBStep_tbVal_after_A : (timerBStep p (timerAStep p g)).tbVal = (timerBStep p g).tbVal := by
  cases hr : g.tbRun
  · rw [timerBStep_stopped p g hr, timerBStep_stopped p _ (by simpa using hr), timerAStep_tbVal]
  · rcases lt_or_ge 65536 g.tbVal with hv | hv
    · rw [timerBStep_waits p g hr hv, timerBStep_waits p _ (by simpa using hr) (by simpa using hv)]
      simp
    · rw [timerBStep_expires p g hr hv, timerBStep_expires p _ (by simpa using hr) (by simpa using hv)]
      simp
end

section
variable (s : State)

/-- The global record after a tick, up to the request latch: the clocks from the state after the EG tick. -/
theorem tick_g_fields :
    (tick s).g.taVal = (timerAStep s.params s.g).taVal ∧ (tick s).g.tbVal = (timerBStep s.params s.g).tbVal ∧
      (tick s).g.status.getLsbD 0 = (timerAStep s.params s.g).status.getLsbD 0 ∧
      (tick s).g.status.getLsbD 1 = (timerBStep s.params s.g).status.getLsbD 1 ∧
      (tick s).g.csmReq = csmNext (timerAStep s.params s.g).csmReq := by
  rw [tick_g]
  show (clocks s.params (egTick s).g).taVal = _ ∧ (clocks s.params (egTick s).g).tbVal = _ ∧
    (clocks s.params (egTick s).g).status.getLsbD 0 = _ ∧ (clocks s.params (egTick s).g).status.getLsbD 1 = _ ∧
    csmNext (clocks s.params (egTick s).g).csmReq = _
  rw [clocks_taVal, clocks_tbVal, clocks_status, clocks_csmReq, timerBStep_statusA, timerBStep_statusB_after_A,
    timerBStep_tbVal_after_A, egTick_g, timerAStep_egFrame, timerBStep_egFrame]
  exact ⟨rfl, rfl, rfl, rfl, rfl⟩

/-- The request that a tick resolves. -/
theorem tick_csmReq_resolved : (clocks s.params (egTick s).g).csmReq = (timerAStep s.params s.g).csmReq := by
  rw [clocks_csmReq, egTick_g, timerAStep_egFrame]

/-- A tick changes no control field of the global record. -/
@[simp] theorem tick_g_programmed : (tick s).g.programmed = s.g.programmed := by
  rw [tick_g]
  show (clocks s.params (egTick s).g).programmed = _
  rw [clocks_programmed, egTick_g]
  rfl

@[simp] theorem tick_ch_programmed (c : Chan) : ((tick s).chAt c).programmed = (s.chAt c).programmed := by
  rw [tick_chAt, chanStore_programmed]

@[simp] theorem tick_op_programmed (c : Chan) (sl : Slot) :
    ((tick s).opAt c sl).programmed = (s.opAt c sl).programmed := by
  rw [tick_opAt, csmOp_programmed, phaseStep_programmed, egTick_programmed]
end

/-! ### Ticks and frames -/

theorem ticks_zero (s : State) : ticks 0 s = s := rfl
theorem ticks_succ (n : Nat) (s : State) : ticks (n + 1) s = ticks n (tick s) := rfl
theorem ticks_succ_last (n : Nat) (s : State) : ticks (n + 1) s = tick (ticks n s) := iter_succ_last tick n s
theorem ticks_add (m n : Nat) (s : State) : ticks (m + n) s = ticks n (ticks m s) := iter_add tick m n s

@[simp] theorem ticks_h (n : Nat) (s : State) : (ticks n s).h = s.h := iter_frame (view := State.h) tick_h n s
@[simp] theorem ticks_params (n : Nat) (s : State) : (ticks n s).params = s.params :=
  iter_frame (view := State.params) tick_params n s
@[simp] theorem ticks_pending (n : Nat) (s : State) : (ticks n s).pending = s.pending :=
  iter_frame (view := State.pending) tick_pending n s

/-! ### The host's record

A tick neither reads nor writes the host's record, so that storing a frame commutes with the ticks. -/

/-- The state with another host record. -/
def setHost (h : HostRecord) (s : State) : State := { s with h := h }

section
variable (h : HostRecord) (s : State) (c : Chan) (sl : Slot)

@[simp] theorem setHost_op : (setHost h s).op = s.op := rfl
@[simp] theorem setHost_ch : (setHost h s).ch = s.ch := rfl
@[simp] theorem setHost_g : (setHost h s).g = s.g := rfl
@[simp] theorem setHost_h : (setHost h s).h = h := rfl
@[simp] theorem setHost_params : (setHost h s).params = s.params := rfl
@[simp] theorem setHost_pending : (setHost h s).pending = s.pending := rfl
@[simp] theorem setHost_observed : (setHost h s).observed = s.observed := rfl
@[simp] theorem setHost_opAt : (setHost h s).opAt c sl = s.opAt c sl := rfl
@[simp] theorem setHost_chAt : (setHost h s).chAt c = s.chAt c := rfl

theorem egPass_setHost : egPass (setHost h s) = setHost h (egPass s) := by
  refine State.ext_at (fun c sl => ?_) (fun c => ?_) ?_ ?_ ?_ ?_ ?_
  · rw [egPass_opAt, setHost_opAt, setHost_opAt, egPass_opAt, setHost_chAt, setHost_g]
  · rw [egPass_chAt, setHost_chAt, setHost_chAt, egPass_chAt]
  · rw [egPass_g, setHost_g, setHost_g, egPass_g]
  · rw [egPass_h, setHost_h, setHost_h]
  · rw [egPass_params, setHost_params, setHost_params, egPass_params]
  · rw [egPass_pending, setHost_pending, setHost_pending, egPass_pending]
  · rw [egPass_observed, setHost_observed, setHost_observed, egPass_observed]

/-- A change that every pass of a loop commutes with, the loop commutes with. -/
theorem iter_commutes {α : Type} {f w : α → α} (hc : ∀ a, f (w a) = w (f a)) (k : Nat) (a : α) :
    iter f k (w a) = w (iter f k a) := by
  induction k generalizing a with
  | zero => rfl
  | succ k ih => rw [iter_succ, hc, ih, iter_succ]

theorem egTick_setHost : egTick (setHost h s) = setHost h (egTick s) := by
  unfold egTick
  rw [← iter_commutes (egPass_setHost h)]
  rfl

theorem advance_setHost (t : State) : advance (setHost h t) = setHost h (advance t) := rfl
theorem mixerTick_setHost (t : State) : mixerTick (setHost h t) = setHost h (mixerTick t) := rfl
theorem samplePair_setHost (t : State) : samplePair (setHost h t) = samplePair t := rfl
theorem observe_setHost (o : Observation) (t : State) : observe o (setHost h t) = setHost h (observe o t) := rfl

/-- A tick commutes with any change of the host's record. -/
theorem tick_setHost : tick (setHost h s) = setHost h (tick s) := by
  unfold tick
  rw [egTick_setHost]
  dsimp only
  rw [samplePair_setHost, mixerTick_setHost, observe_setHost, advance_setHost]

/-- The pair a tick returns does not depend on the host's record. -/
theorem tickSample_setHost : tickSample (setHost h s) = tickSample s := by
  unfold tickSample
  rw [egTick_setHost, samplePair_setHost]

theorem ticks_setHost (n : Nat) : ticks n (setHost h s) = setHost h (ticks n s) :=
  iter_commutes (tick_setHost h) n s
end

end Sys2Proof.Machine
end

