-- ==== Sys2Proof/Laws/Mixer.lean ====
section
/-! SUPPORT. The ranges of the mixer: one lookup, one operator, M1's feedback, the delay cell; and the LFO's
outputs. -/

namespace Sys2Proof.Machine

/-- An entry of a list of numbers, or the default 0, is at most any bound of the list. -/
theorem getD_le {l : List Nat} {b : Nat} (h : ∀ x ∈ l, x ≤ b) (i : Nat) : l.getD i 0 ≤ b := by
  by_cases hi : i < l.length
  · rw [List.getD_eq_getElem _ _ hi]; exact h _ (List.getElem_mem hi)
  · rw [List.getD_eq_default _ _ (by omega)]; omega

/-- An entry of a table in rows is at most any bound of all its rows. -/
theorem rowLookup_le {rows : List (List Nat)} {b : Nat} (h : ∀ r ∈ rows, ∀ x ∈ r, x ≤ b) (i : Nat) :
    rowLookup rows i ≤ b := by
  unfold rowLookup
  by_cases hi : i / 16 < rows.length
  · rw [List.getD_eq_getElem _ _ hi]; exact getD_le (h _ (List.getElem_mem hi)) _
  · have hd : rows.getD (i / 16) [] = [] := List.getD_eq_default _ _ (by omega)
    rw [hd]; simp

theorem tlRows_le : ∀ r ∈ tlRows, ∀ x ∈ r, x ≤ 8168 := by decide

/-- A value between two bounds. -/
def within (b x : Int) : Prop := -b ≤ x ∧ x ≤ b

theorem within_neg {b x : Int} (h : within b x) : within b (-x) := by unfold within at *; omega
theorem within_zero {b : Int} (h : 0 ≤ b) : within b 0 := by unfold within; omega
theorem within_add {a b x y : Int} (hx : within a x) (hy : within b y) : within (a + b) (x + y) := by
  unfold within at *; omega

/-- The attenuation table has the range of its first entry. -/
theorem tlTable_within (p : Nat) : within 8168 (tlTable p) := by
  have h : rowLookup tlRows (p % 512 / 2) >>> (p / 512) ≤ 8168 := by
    rw [Nat.shiftRight_eq_div_pow]
    exact le_trans (Nat.div_le_self _ _) (rowLookup_le tlRows_le _)
  unfold tlTable within
  dsimp only
  generalize rowLookup tlRows (p % 512 / 2) >>> (p / 512) = m at *
  split <;> omega

/-- One lookup (45_mixer.md R192). -/
theorem lookup_within (e k : Nat) : within 8168 (lookup e k) := by
  unfold lookup
  dsimp only
  split
  · exact within_zero (by decide)
  · exact tlTable_within _

theorem gatedOut_within (e : Nat) (o : Operator) (pm : Int) : within 8168 (gatedOut e o pm) := by
  unfold gatedOut opOut
  split
  · exact lookup_within _ _
  · exact within_zero (by decide)

theorem m1Output_within (lfa : Nat) (ch : Channel) (o : Operator) : within 8168 (m1Output lfa ch o) := by
  unfold m1Output opOutFb
  dsimp only
  split
  · exact lookup_within _ _
  · exact within_zero (by decide)

/-- A quiet operator adds nothing. -/
theorem gatedOut_quiet {e : Nat} (o : Operator) (pm : Int) (h : envQuiet ≤ e) : gatedOut e o pm = 0 := by
  unfold gatedOut; rw [if_neg (by omega)]

/-- A quiet M1 outputs nothing. -/
theorem m1Output_quiet {lfa : Nat} {ch : Channel} {o : Operator} (h : envQuiet ≤ attenuation lfa ch o) :
    m1Output lfa ch o = 0 := by
  unfold m1Output; dsimp only; rw [if_neg (by omega)]

/-! ### The delay cell -/

/-- What the channel computation stores in MEM, by algorithm (45_mixer.md R196, R204). -/
theorem chanNodes_mem (g : Global) (c : Chan) (ch : Channel) (ops : Four Operator) :
    (chanNodes g c ch ops).mem =
      if ch.con = 5 then ch.fbCurr
      else if ch.con = 4 ∨ ch.con = 6 ∨ ch.con = 7 then ch.mem
      else
        (if ch.con = 1 then ch.fbCurr else 0) +
          gatedOut (attenuation g.lfa ch ops.c1) ops.c1
            (if ch.con = 0 ∨ ch.con = 3 then ch.fbCurr else 0) := by
  have hall : ∀ x : BitVec 3, x = 0 ∨ x = 1 ∨ x = 2 ∨ x = 3 ∨ x = 4 ∨ x = 5 ∨ x = 6 ∨ x = 7 := by decide
  unfold chanNodes
  rcases hall ch.con with h | h | h | h | h | h | h | h <;>
    simp [h, route, addNode, addNodes, nodesZero]

theorem chanStore_mem (s : State) (c : Chan) (ch : Channel) :
    (chanStore s c ch).mem = (chanNodes s.g c ch (s.op.get c)).mem := rfl
theorem chanStore_fbPrev (s : State) (c : Chan) (ch : Channel) : (chanStore s c ch).fbPrev = ch.fbCurr := rfl
theorem chanStore_fbCurr (s : State) (c : Chan) (ch : Channel) :
    (chanStore s c ch).fbCurr = m1Output s.g.lfa ch (s.op.get c).m1 := rfl

/-- The channel computation keeps a channel in range. -/
theorem chanStore_ok (s : State) (c : Chan) (ch : Channel) (h : ch.ok) : (chanStore s c ch).ok := by
  obtain ⟨hp, hc, hm⟩ := h
  refine ⟨hc, m1Output_within _ _ _, ?_⟩
  rw [chanStore_mem, chanNodes_mem]
  have hg := gatedOut_within (attenuation s.g.lfa ch (s.op.get c).c1) (s.op.get c).c1
    (if ch.con = 0 ∨ ch.con = 3 then ch.fbCurr else 0)
  unfold within at hg
  split
  · omega
  · split
    · exact hm
    · split <;> omega

/-! ### The LFO -/

theorem lfoRawAm_le (w : BitVec 2) (ph : BitVec 8) : lfoRawAm w ph ≤ 255 := by
  have h := ph.isLt
  unfold lfoRawAm
  dsimp only
  split
  · omega
  · split <;> omega
  · split <;> omega
  · have := (Config.lfoNoiseWave ph).isLt
    unfold lfoNoiseTable
    omega

theorem lfoRawPm_range (w : BitVec 2) (ph : BitVec 8) : -128 ≤ lfoRawPm w ph ∧ lfoRawPm w ph ≤ 127 := by
  have h := ph.isLt
  unfold lfoRawPm
  dsimp only
  split
  · split <;> omega
  · split <;> omega
  · split
    · omega
    · split
      · omega
      · split <;> omega
  · have := (Config.lfoNoiseWave ph).isLt
    unfold lfoNoiseTable
    omega

/-- The range of the AM output (43_lfo.md R167). -/
theorem lfa_le (w : BitVec 2) (ph : BitVec 8) (d : BitVec 7) : lfoRawAm w ph * d.toNat / 128 ≤ 253 := by
  have h1 := lfoRawAm_le w ph
  have h2 : d.toNat ≤ 127 := by have := d.isLt; omega
  have := Nat.mul_le_mul h1 h2
  omega

/-- The range of the PM output (43_lfo.md R167). -/
theorem lfp_range (w : BitVec 2) (ph : BitVec 8) (d : BitVec 7) :
    -127 ≤ Int.tdiv (lfoRawPm w ph * d.toNat) 128 ∧ Int.tdiv (lfoRawPm w ph * d.toNat) 128 ≤ 126 := by
  obtain ⟨h1, h2⟩ := lfoRawPm_range w ph
  have hd : (d.toNat : Int) ≤ 127 := by have := d.isLt; omega
  have hd0 : (0 : Int) ≤ d.toNat := by omega
  have ha : -16256 ≤ lfoRawPm w ph * d.toNat := by nlinarith
  have hb : lfoRawPm w ph * d.toNat ≤ 16129 := by nlinarith
  generalize lfoRawPm w ph * (d.toNat : Int) = x at *
  rcases le_total 0 x with hx | hx
  · rw [Int.tdiv_eq_ediv_of_nonneg hx]; omega
  · have : x.tdiv 128 = -((-x) / 128) := by
      rw [← Int.tdiv_eq_ediv_of_nonneg (by omega), Int.neg_tdiv, neg_neg]
    rw [this]; omega

/-! ### The clocks -/

/-- A tick's clocks keep the global record in range, but for the request of this very tick. -/
theorem clocks_ok (p : Params) (g : Global) (h : g.ok) :
    (clocks p g).egTimer < 196608 ∧ (clocks p g).lfoCounter < 16 ∧ (clocks p g).lfa ≤ 253 ∧
      (-127 ≤ (clocks p g).lfp ∧ (clocks p g).lfp ≤ 126) ∧ (clocks p g).noiseP < 65536 := by
  obtain ⟨h1, h2, _, _, _, _⟩ := h
  refine ⟨by rw [clocks_egTimer]; exact h1, ?_, lfa_le _ _ _, lfp_range _ _ _, ?_⟩
  · show (lfoPhaseStep p (timerBStep p (timerAStep p g))).lfoCounter < 16
    unfold lfoPhaseStep lfoAccumulate
    dsimp only
    split
    · simpa using h2
    · split
      · show _ &&& 15 < 16
        have := Nat.and_le_right (n := (timerBStep p (timerAStep p g)).lfoCounter + 16 +
          ((timerBStep p (timerAStep p g)).lfrq.toNat &&& 15)) (m := 15)
        omega
      · simpa using h2
  · show _ &&& 0xFFFF < 65536
    exact lt_of_le_of_lt Nat.and_le_right (by decide)

end Sys2Proof.Machine
end

