-- ==== Sys2Proof/Laws/PerInstr.lean ====
section
/-! SUPPORT. The statement made of every instruction as syntax, one lemma per constructor: its word carries the
fixed bits of its row of the opcode table (30_encoding.md R74). -/

namespace Sys2Proof.Laws

/-- The high bits of a word, kept by a mask. -/
theorem high_bits (x : BitVec 18) (k q : Nat) (hk : k ≤ 18) (h : x.toNat / 2 ^ k = q) :
    x &&& BitVec.ofNat 18 (2 ^ 18 - 2 ^ k) = BitVec.ofNat 18 (q * 2 ^ k) := by
  apply BitVec.eq_of_getLsbD_eq
  intro i hi
  have hp : 0 < 2 ^ k := Nat.two_pow_pos k
  have hlt : 2 ^ k ≤ 2 ^ 18 := Nat.pow_le_pow_right (by decide) hk
  have hm : (2 ^ 18 - 2 ^ k).testBit i = decide (k ≤ i) := by
    have e : 2 ^ 18 - 2 ^ k = 2 ^ 18 - ((2 ^ k - 1) + 1) := by omega
    rw [e, Nat.testBit_two_pow_sub_succ (by omega), Nat.testBit_two_pow_sub_one]
    by_cases hik : k ≤ i
    · have : ¬ i < k := by omega
      simp [hi, hik, this]
    · have : i < k := by omega
      simp [hik, this]
  subst h
  rw [BitVec.getLsbD_and, BitVec.getLsbD_ofNat, BitVec.getLsbD_ofNat, hm, Nat.testBit_mul_two_pow,
    Nat.testBit_div_two_pow, BitVec.getLsbD]
  by_cases hik : k ≤ i
  · simp [hi, hik]
  · simp [hik]

/-- The number of a write's word above a bit position. -/
theorem writeWord_high (a v k : Nat) (ha : a < 256) (hv : v < 256) :
    (writeWord a v).toNat / 2 ^ k = (256 * a + v) / 2 ^ k := by rw [writeWord_toNat a v ha hv]

namespace EncodeRow

/-- The word of an instruction agrees with its row's `match` on the bits of its row's `mask`. -/
def Statement (i : Instr) : Prop := encode i &&& rowMask i = rowMatch i

theorem test (v : Byte) : Statement (.test v) := by
  refine high_bits _ 8 1 (by decide) ?_
  have h0 := v.isLt
  simp only [encode]
  rw [writeWord_high _ _ _ (by omega) (by omega)]
  omega

theorem kon (ch : Chan) (m1 c1 m2 c2 : Bool) : Statement (.kon ch m1 c1 m2 c2) := by
  refine high_bits _ 8 8 (by decide) ?_
  have h0 := ch.isLt
  have h1 := ofBit_le m1
  have h2 := ofBit_le c1
  have h3 := ofBit_le m2
  have h4 := ofBit_le c2
  simp only [encode]
  rw [writeWord_high _ _ _ (by omega) (by omega)]
  omega

theorem noise (ne : Bool) (nfrq : BitVec 5) : Statement (.noise ne nfrq) := by
  refine high_bits _ 8 15 (by decide) ?_
  have h0 := ofBit_le ne
  have h1 := nfrq.isLt
  simp only [encode]
  rw [writeWord_high _ _ _ (by omega) (by omega)]
  omega

theorem clka1 (hi : BitVec 8) : Statement (.clka1 hi) := by
  refine high_bits _ 8 16 (by decide) ?_
  have h0 := hi.isLt
  simp only [encode]
  rw [writeWord_high _ _ _ (by omega) (by omega)]
  omega

theorem clka2 (lo : BitVec 2) : Statement (.clka2 lo) := by
  refine high_bits _ 8 17 (by decide) ?_
  have h0 := lo.isLt
  simp only [encode]
  rw [writeWord_high _ _ _ (by omega) (by omega)]
  omega

theorem clkb (tb : BitVec 8) : Statement (.clkb tb) := by
  refine high_bits _ 8 18 (by decide) ?_
  have h0 := tb.isLt
  simp only [encode]
  rw [writeWord_high _ _ _ (by omega) (by omega)]
  omega

theorem tctl (csm clrB clrA runB runA : Bool) : Statement (.tctl csm clrB clrA runB runA) := by
  refine high_bits _ 8 20 (by decide) ?_
  have h0 := ofBit_le csm
  have h1 := ofBit_le clrB
  have h2 := ofBit_le clrA
  have h3 := ofBit_le runB
  have h4 := ofBit_le runA
  simp only [encode]
  rw [writeWord_high _ _ _ (by omega) (by omega)]
  omega

theorem lfrq (f : BitVec 8) : Statement (.lfrq f) := by
  refine high_bits _ 8 24 (by decide) ?_
  have h0 := f.isLt
  simp only [encode]
  rw [writeWord_high _ _ _ (by omega) (by omega)]
  omega

theorem ctw (ct w : BitVec 2) : Statement (.ctw ct w) := by
  refine high_bits _ 8 27 (by decide) ?_
  have h0 := ct.isLt
  have h1 := w.isLt
  simp only [encode]
  rw [writeWord_high _ _ _ (by omega) (by omega)]
  omega

theorem pmd (d : BitVec 7) : Statement (.pmd d) := by
  refine high_bits _ 7 51 (by decide) ?_
  have h0 := d.isLt
  simp only [encode]
  rw [writeWord_high _ _ _ (by omega) (by omega)]
  omega

theorem amd (d : BitVec 7) : Statement (.amd d) := by
  refine high_bits _ 7 50 (by decide) ?_
  have h0 := d.isLt
  simp only [encode]
  rw [writeWord_high _ _ _ (by omega) (by omega)]
  omega

theorem rlfbcon (c : Chan) (panR panL : Bool) (fb con : BitVec 3) : Statement (.rlfbcon c panR panL fb con) := by
  refine high_bits _ 11 4 (by decide) ?_
  have h0 := c.isLt
  have h1 := ofBit_le panR
  have h2 := ofBit_le panL
  have h3 := fb.isLt
  have h4 := con.isLt
  simp only [encode]
  rw [writeWord_high _ _ _ (by omega) (by omega)]
  omega

theorem kc (c : Chan) (code : BitVec 7) : Statement (.kc c code) := by
  refine high_bits _ 11 5 (by decide) ?_
  have h0 := c.isLt
  have h1 := code.isLt
  simp only [encode]
  rw [writeWord_high _ _ _ (by omega) (by omega)]
  omega

theorem kf (c : Chan) (frac : BitVec 6) : Statement (.kf c frac) := by
  refine high_bits _ 11 6 (by decide) ?_
  have h0 := c.isLt
  have h1 := frac.isLt
  simp only [encode]
  rw [writeWord_high _ _ _ (by omega) (by omega)]
  omega

theorem pmsams (c : Chan) (pms : BitVec 3) (ams : BitVec 2) : Statement (.pmsams c pms ams) := by
  refine high_bits _ 11 7 (by decide) ?_
  have h0 := c.isLt
  have h1 := pms.isLt
  have h2 := ams.isLt
  simp only [encode]
  rw [writeWord_high _ _ _ (by omega) (by omega)]
  omega

theorem dt1mul (sl : Slot) (c : Chan) (dt1 : BitVec 3) (mul : BitVec 4) : Statement (.dt1mul sl c dt1 mul) := by
  refine high_bits _ 13 2 (by decide) ?_
  have h0 := slotNumber_lt sl
  have h1 := c.isLt
  have h2 := dt1.isLt
  have h3 := mul.isLt
  simp only [encode, operatorAddr]
  rw [writeWord_high _ _ _ (by omega) (by omega)]
  omega

theorem tl (sl : Slot) (c : Chan) (level : BitVec 7) : Statement (.tl sl c level) := by
  refine high_bits _ 13 3 (by decide) ?_
  have h0 := slotNumber_lt sl
  have h1 := c.isLt
  have h2 := level.isLt
  simp only [encode, operatorAddr]
  rw [writeWord_high _ _ _ (by omega) (by omega)]
  omega

theorem ksar (sl : Slot) (c : Chan) (ks : BitVec 2) (ar : BitVec 5) : Statement (.ksar sl c ks ar) := by
  refine high_bits _ 13 4 (by decide) ?_
  have h0 := slotNumber_lt sl
  have h1 := c.isLt
  have h2 := ks.isLt
  have h3 := ar.isLt
  simp only [encode, operatorAddr]
  rw [writeWord_high _ _ _ (by omega) (by omega)]
  omega

theorem amsend1r (sl : Slot) (c : Chan) (amsen : Bool) (d1r : BitVec 5) : Statement (.amsend1r sl c amsen d1r) := by
  refine high_bits _ 13 5 (by decide) ?_
  have h0 := slotNumber_lt sl
  have h1 := c.isLt
  have h2 := ofBit_le amsen
  have h3 := d1r.isLt
  simp only [encode, operatorAddr]
  rw [writeWord_high _ _ _ (by omega) (by omega)]
  omega

theorem dt2d2r (sl : Slot) (c : Chan) (dt2 : BitVec 2) (d2r : BitVec 5) : Statement (.dt2d2r sl c dt2 d2r) := by
  refine high_bits _ 13 6 (by decide) ?_
  have h0 := slotNumber_lt sl
  have h1 := c.isLt
  have h2 := dt2.isLt
  have h3 := d2r.isLt
  simp only [encode, operatorAddr]
  rw [writeWord_high _ _ _ (by omega) (by omega)]
  omega

theorem d1lrr (sl : Slot) (c : Chan) (d1l rr : BitVec 4) : Statement (.d1lrr sl c d1l rr) := by
  refine high_bits _ 13 7 (by decide) ?_
  have h0 := slotNumber_lt sl
  have h1 := c.isLt
  have h2 := d1l.isLt
  have h3 := rr.isLt
  simp only [encode, operatorAddr]
  rw [writeWord_high _ _ _ (by omega) (by omega)]
  omega

theorem undef00 (v : Byte) : Statement (.undef00 v) := by
  refine high_bits _ 8 0 (by decide) ?_
  have h0 := v.isLt
  simp only [encode]
  rw [writeWord_high _ _ _ (by omega) (by omega)]
  omega

theorem undef02 (a : BitVec 1) (v : Byte) : Statement (.undef02 a v) := by
  refine high_bits _ 9 1 (by decide) ?_
  have h0 := a.isLt
  have h1 := v.isLt
  simp only [encode]
  rw [writeWord_high _ _ _ (by omega) (by omega)]
  omega

theorem undef04 (a : BitVec 2) (v : Byte) : Statement (.undef04 a v) := by
  refine high_bits _ 10 1 (by decide) ?_
  have h0 := a.isLt
  have h1 := v.isLt
  simp only [encode]
  rw [writeWord_high _ _ _ (by omega) (by omega)]
  omega

theorem undef09 (v : Byte) : Statement (.undef09 v) := by
  refine high_bits _ 8 9 (by decide) ?_
  have h0 := v.isLt
  simp only [encode]
  rw [writeWord_high _ _ _ (by omega) (by omega)]
  omega

theorem undef0a (a : BitVec 1) (v : Byte) : Statement (.undef0a a v) := by
  refine high_bits _ 9 5 (by decide) ?_
  have h0 := a.isLt
  have h1 := v.isLt
  simp only [encode]
  rw [writeWord_high _ _ _ (by omega) (by omega)]
  omega

theorem undef0c (a : BitVec 1) (v : Byte) : Statement (.undef0c a v) := by
  refine high_bits _ 9 6 (by decide) ?_
  have h0 := a.isLt
  have h1 := v.isLt
  simp only [encode]
  rw [writeWord_high _ _ _ (by omega) (by omega)]
  omega

theorem undef0e (v : Byte) : Statement (.undef0e v) := by
  refine high_bits _ 8 14 (by decide) ?_
  have h0 := v.isLt
  simp only [encode]
  rw [writeWord_high _ _ _ (by omega) (by omega)]
  omega

theorem undef13 (v : Byte) : Statement (.undef13 v) := by
  refine high_bits _ 8 19 (by decide) ?_
  have h0 := v.isLt
  simp only [encode]
  rw [writeWord_high _ _ _ (by omega) (by omega)]
  omega

theorem undef15 (v : Byte) : Statement (.undef15 v) := by
  refine high_bits _ 8 21 (by decide) ?_
  have h0 := v.isLt
  simp only [encode]
  rw [writeWord_high _ _ _ (by omega) (by omega)]
  omega

theorem undef16 (a : BitVec 1) (v : Byte) : Statement (.undef16 a v) := by
  refine high_bits _ 9 11 (by decide) ?_
  have h0 := a.isLt
  have h1 := v.isLt
  simp only [encode]
  rw [writeWord_high _ _ _ (by omega) (by omega)]
  omega

theorem undef1a (v : Byte) : Statement (.undef1a v) := by
  refine high_bits _ 8 26 (by decide) ?_
  have h0 := v.isLt
  simp only [encode]
  rw [writeWord_high _ _ _ (by omega) (by omega)]
  omega

theorem undef1c (a : BitVec 2) (v : Byte) : Statement (.undef1c a v) := by
  refine high_bits _ 10 7 (by decide) ?_
  have h0 := a.isLt
  have h1 := v.isLt
  simp only [encode]
  rw [writeWord_high _ _ _ (by omega) (by omega)]
  omega

theorem rds : Statement .rds := by
  unfold Statement; decide

theorem tick (n : Nat) : Statement (.tick n) := by
  refine high_bits _ 16 2 (by decide) ?_
  simp only [encode, BitVec.toNat_ofNat]
  omega

theorem rst : Statement .rst := by
  unfold Statement; decide

end EncodeRow

end Sys2Proof.Laws
end

