-- ==== Sys2Proof/Machine/Textual.lean ====
section
/-! DEFINITION. The textual form of port operations (30_encoding.md R77) and the pseudo-operations in it (R78):
one line of text to the operations it stands for. Text is a list of characters. -/

namespace Sys2Proof.Machine

/-- Why a line is not one of R77 or R78 (log 30). -/
inductive TextError where
  /-- a word that is neither a number nor the name of an operation, or a wrong number of operands -/
  | notAnOperation
  /-- an operand outside the range the rule gives it -/
  | outOfRange
deriving DecidableEq, Repr

/-- The value of a digit in a base up to 16. -/
def digitOf (base : Nat) (c : Char) : Option Nat :=
  let n := c.toNat
  let d :=
    if 48 ≤ n ∧ n ≤ 57 then n - 48
    else if 97 ≤ n ∧ n ≤ 102 then n - 87
    else if 65 ≤ n ∧ n ≤ 70 then n - 55
    else 16
  if d < base then some d else none

/-- The digits of a number, most significant first, after a value already read. -/
def digits (base : Nat) : Nat → List Char → Option Nat
  | acc, [] => some acc
  | acc, c :: cs =>
      match digitOf base c with
      | some d => digits base (base * acc + d) cs
      | none => none

/-- A number: decimal, or hexadecimal after `0x` (R77). -/
def numberOf : List Char → Option Nat
  | '0' :: 'x' :: c :: cs => digits 16 0 (c :: cs)
  | c :: cs => digits 10 0 (c :: cs)
  | [] => none

/-- What stands before the comment: `;` starts one (R77). -/
def beforeComment : List Char → List Char
  | [] => []
  | c :: cs => if c = ';' then [] else c :: beforeComment cs

/-- The words of a line: blanks and commas separate, `=` is a word of its own. -/
def wordsOf : List Char → List (List Char)
  | [] => []
  | c :: cs =>
      let rest := wordsOf cs
      if c = ' ' ∨ c = '\t' ∨ c = ',' then [] :: rest
      else if c = '=' then [] :: ['='] :: [] :: rest
      else
        match rest with
        | [] => [[c]]
        | w :: ws => if w = ['='] then [c] :: rest else (c :: w) :: ws

/-- The words of a line that are not empty. -/
def tokensOf (line : List Char) : List (List Char) := (wordsOf (beforeComment line)).filter fun w => w ≠ []

/-- `TICK n` as trace words: a count above 65535 takes several words, whose ticks are consecutive
(30_encoding.md R68, 47_sample_tick.md R241). -/
def tickWords (n : Nat) : List PortOp :=
  List.replicate (n / 65535) (.word (encode (.tick 65535))) ++ [.word (encode (.tick (n % 65535)))]

/-- A register write: the address is 8 bits, a wider value is reduced modulo 256 (41_register_writes.md R110). -/
def writeOps (addr v : Nat) : Except TextError (List PortOp) :=
  if addr < 256 then .ok [.word (pseudoWR (BitVec.ofNat 8 addr) v)] else .error .outOfRange

/-- `KEYON c, m1 m2 c1 c2` (R78). -/
def keyOnOps (c m1 m2 c1 c2 : Nat) : Except TextError (List PortOp) :=
  if h : c < 8 ∧ m1 < 2 ∧ m2 < 2 ∧ c1 < 2 ∧ c2 < 2 then
    .ok ((pseudoKeyOn ⟨c, h.1⟩ (m1 == 1) (m2 == 1) (c1 == 1) (c2 == 1)).map .word)
  else .error .outOfRange

/-- An operation with one operand: the names of R77 and R78 that take one. -/
def unaryOps (name : List Char) (n : Nat) : Except TextError (List PortOp) :=
  match name with
  | ['T', 'I', 'C', 'K'] => .ok (tickWords n)
  | ['K', 'E', 'Y', 'O', 'F', 'F'] =>
      if h : n < 8 then .ok ((pseudoKeyOff ⟨n, h⟩).map .word) else .error .outOfRange
  | ['T', 'I', 'M', 'E', 'R', 'A'] =>
      if n < 1024 then .ok ((pseudoTimerA (BitVec.ofNat 10 n)).map .word) else .error .outOfRange
  | ['T', 'I', 'M', 'E', 'R', 'B'] =>
      if n < 256 then .ok ((pseudoTimerB (BitVec.ofNat 8 n)).map .word) else .error .outOfRange
  | ['P', 'M', 'D'] => if n < 128 then .ok ((pseudoPMD (BitVec.ofNat 7 n)).map .word) else .error .outOfRange
  | ['A', 'M', 'D'] => if n < 128 then .ok ((pseudoAMD (BitVec.ofNat 7 n)).map .word) else .error .outOfRange
  | _ => .error .notAnOperation

/-- The operations of one line: `RST`, `RDS`, `TICK`, `TICK n`, `FRAME`, `0xAA=0xVV`, `WR 0xAA, 0xVV` (R77) and the
pseudo-operations of R78; none for a line with nothing but a comment. -/
def operationsOf (line : List Char) : Except TextError (List PortOp) :=
  match tokensOf line with
  | [] => .ok []
  | [['R', 'S', 'T']] => .ok [.word (encode .rst)]
  | [['R', 'D', 'S']] => .ok [.word (encode .rds)]
  | [['T', 'I', 'C', 'K']] => .ok (tickWords 1)
  | [['F', 'R', 'A', 'M', 'E']] => .ok [.frame]
  | [name, a] =>
      match numberOf a with
      | some n => unaryOps name n
      | none => .error .notAnOperation
  | [a, b, c] =>
      match a, numberOf a, b, numberOf b, numberOf c with
      | ['W', 'R'], _, _, some addr, some v => writeOps addr v
      | ['I', 'N', 'I', 'T'], _, _, some rate, some fps => .ok [.init rate fps]
      | _, some addr, ['='], _, some v => writeOps addr v
      | _, _, _, _, _ => .error .notAnOperation
  | [['K', 'E', 'Y', 'O', 'N'], c, m1, m2, c1, c2] =>
      match numberOf c, numberOf m1, numberOf m2, numberOf c1, numberOf c2 with
      | some c, some m1, some m2, some c1, some c2 => keyOnOps c m1 m2 c1 c2
      | _, _, _, _, _ => .error .notAnOperation
  | _ => .error .notAnOperation

end Sys2Proof.Machine
end

