-- ==== Sys2Proof/Tests/Slice0.lean ====
section
/-! SUPPORT. Tests. The words and the expected results are those of spec/95_test_vectors.md (V1 to V124, S7 to
S9, P1) and of the rules named; then, for each obligation with hypotheses, a concrete state and operands
that meet all of them. -/

namespace Sys2Proof.Tests

open Sys2Proof.Machine

/-- The state an instruction leads to; the state itself where it stops. -/
def after (i : Instr) (s : State) : State :=
  match exec i s with
  | .next t => t
  | _ => s

/-- The reset state with its global record changed. -/
def resetG (f : Global → Global) : State := onG f State.reset

/-- An operator that is Off with its key mask 0: the record after reset. -/
def op0 : Operator := Operator.reset

/-- A channel record of zeros but its key code. -/
def chKc (kc : BitVec 7) : Channel := { Channel.reset with kc := kc }

/-! ### Well-formedness -/

theorem test_tick_65535_is_wellFormed : (Instr.tick 65535).wellFormed = true := by decide
theorem test_tick_65536_is_not_wellFormed : (Instr.tick 65536).wellFormed = false := by decide

/-! ### Decoding: a word of every constructor, written from 30_encoding.md R70, R71 (V1 to V28) -/

theorem test_decode_global :
    decode 0x00102#18 = .ok (.test 0x02) ∧ decode 0x00878#18 = .ok (.kon 0 true true true true) ∧
    decode 0x00F9F#18 = .ok (.noise true 31) ∧ decode 0x010FD#18 = .ok (.clka1 0xFD) ∧
    decode 0x011FE#18 = .ok (.clka2 2) ∧ decode 0x012C8#18 = .ok (.clkb 200) ∧
    decode 0x01483#18 = .ok (.tctl true false false true true) ∧ decode 0x018C4#18 = .ok (.lfrq 0xC4) ∧
    decode 0x01BC2#18 = .ok (.ctw 3 2) ∧ decode 0x01985#18 = .ok (.pmd 5) ∧
    decode 0x01905#18 = .ok (.amd 5) := by decide

theorem test_decode_channel :
    decode 0x0257A#18 = .ok (.rlfbcon 5 false true 7 2) ∧ decode 0x02BCA#18 = .ok (.kc 3 0x4A) ∧
    decode 0x033FF#18 = .ok (.kf 3 63) ∧ decode 0x03FF7#18 = .ok (.pmsams 7 7 3) := by decide

theorem test_decode_operator :
    decode 0x04AF3#18 = .ok (.dt1mul .m2 2 7 3) ∧ decode 0x07FFF#18 = .ok (.tl .c2 7 127) ∧
    decode 0x09DDF#18 = .ok (.ksar .c2 5 3 31) ∧ decode 0x0B19F#18 = .ok (.amsend1r .c1 1 true 31) ∧
    decode 0x0D1DF#18 = .ok (.dt2d2r .c1 1 3 31) ∧ decode 0x0F1A5#18 = .ok (.d1lrr .c1 1 10 5) := by decide

theorem test_decode_undefined :
    decode 0x000FF#18 = .ok (.undef00 0xFF) ∧ decode 0x003FF#18 = .ok (.undef02 1 0xFF) ∧
    decode 0x00612#18 = .ok (.undef04 2 0x12) ∧ decode 0x009FF#18 = .ok (.undef09 0xFF) ∧
    decode 0x00B01#18 = .ok (.undef0a 1 0x01) ∧ decode 0x00D01#18 = .ok (.undef0c 1 0x01) ∧
    decode 0x00E80#18 = .ok (.undef0e 0x80) ∧ decode 0x013FF#18 = .ok (.undef13 0xFF) ∧
    decode 0x01580#18 = .ok (.undef15 0x80) ∧ decode 0x01755#18 = .ok (.undef16 1 0x55) ∧
    decode 0x01A0F#18 = .ok (.undef1a 0x0F) ∧ decode 0x01FFF#18 = .ok (.undef1c 3 0xFF) := by decide

theorem test_decode_others :
    decode 0x10000#18 = .ok .rds ∧ decode 0x202DF#18 = .ok (.tick 735) ∧ decode 0x30000#18 = .ok .rst ∧
    decode 0x10001#18 = .error .payloadNotZero ∧ decode 0x30001#18 = .error .payloadNotZero := by decide

theorem test_decodeTableWord : decodeTableWord 24 0x0E33E = some (.d1lrr .m1 3 3 14) := by decide

theorem test_withFetchWord_runs_the_word :
    (match step (State.reset.withFetchWord 24 0x018C4) with
      | .next t => some (t.g.lfrq, t.pending)
      | _ => none) = some (0xC4, []) := by decide

/-! ### Register writes (V10 to V29, V120 to V124) -/

theorem test_test_V10 :
    (after (.test 0x02) (resetG fun g => { g with lfoPhase := 0x9C })).g.lfoPhase = 0 := by decide

theorem test_test_keeps_phase :
    (after (.test 0x01) (resetG fun g => { g with lfoPhase := 0x9C })).g.lfoPhase = 0x9C := by decide

theorem test_kon_V20 :
    (after (.kon 0 true true true true) State.reset).opAt 0 .c1 = { op0 with key := 1, env := .attack } ∧
    (after (.kon 0 true true true true) State.reset).opAt 1 .c1 = op0 := by decide

theorem test_kon_V48_releases_at_a_zero_bit :
    ((after (.kon 2 false false false true)
      (onOp 2 .m2 (fun o => { o with key := 3, env := .decay2, volume := 300 })
        (onOp 2 .c1 (fun o => { o with key := 1, env := .attack, volume := 500 }) State.reset))).op.get 2) =
      { m1 := op0
        m2 := { op0 with key := 2, env := .decay2, volume := 300 }
        c1 := { op0 with key := 0, env := .release, volume := 500 }
        c2 := { op0 with key := 1, env := .attack } } := by decide

theorem test_noise_V11 : (after (.noise true 31) State.reset).g.nfrq = 31 := by decide

theorem test_clka1_V12 : (after (.clka1 0xFD) (resetG fun g => { g with taIdx := 3 })).g.taIdx = 0x3F7 := by
  decide

theorem test_clka2_V13 : (after (.clka2 2) (resetG fun g => { g with taIdx := 0x3F4 })).g.taIdx = 0x3F6 := by
  decide

theorem test_clkb_V14 : (after (.clkb 200) State.reset).g.tbIdx = 200 := by decide

theorem test_tctl_V15 :
    (after (.tctl false false true false false)
      (resetG fun g => { g with status := 3, taRun := true, tbRun := true, csmEn := true, taVal := 9 })).g =
      { Global.reset with status := 2, taVal := 9 } := by decide

theorem test_tctl_V16 :
    (after (.tctl false false false false true) (resetG fun g => { g with taIdx := 1014 })).g.taVal = 462422 := by
  decide +kernel

theorem test_lfrq_V18 : (after (.lfrq 0xC4) State.reset).g.lfrq = 0xC4 := by decide

theorem test_ctw_V19 : (after (.ctw 3 2) State.reset).g = { Global.reset with ct := 3, w := 2 } := by decide

theorem test_pmd_V2 : (after (.pmd 5) State.reset).g = { Global.reset with pmd := 5 } := by decide

theorem test_amd_V3 : (after (.amd 5) State.reset).g = { Global.reset with amd := 5 } := by decide

theorem test_rlfbcon_V22 :
    (after (.rlfbcon 5 false true 7 2) State.reset).chAt 5 =
      { Channel.reset with panL := true, fb := 7, con := 2 } := by decide

theorem test_kc_V23 : (after (.kc 3 0x4A) State.reset).chAt 3 = chKc 0x4A := by decide

theorem test_kf_V24 : ((after (.kf 3 63) State.reset).chAt 3).kf = 63 := by decide

theorem test_pmsams_V25 :
    (after (.pmsams 7 7 3) State.reset).chAt 7 = { Channel.reset with pms := 7, ams := 3 } := by decide

theorem test_dt1mul_V26 :
    (after (.dt1mul .m2 2 7 3) State.reset).opAt 2 .m2 = { op0 with dt1 := 7, mul := 3 } := by decide

theorem test_tl_V27 : (after (.tl .c2 7 127) State.reset).opAt 7 .c2 = { op0 with tl := 127 } := by decide

theorem test_ksar_V4 :
    (after (.ksar .c2 5 3 31) State.reset).opAt 5 .c2 = { op0 with ks := 3, ar := 31 } := by decide

theorem test_amsend1r_V28 :
    (after (.amsend1r .c1 1 true 31) State.reset).opAt 1 .c1 = { op0 with amsen := true, d1r := 31 } := by decide

theorem test_dt2d2r_V28 :
    (after (.dt2d2r .c1 1 3 31) State.reset).opAt 1 .c1 = { op0 with dt2 := 3, d2r := 31 } := by decide

theorem test_d1lrr_V124 :
    (after (.d1lrr .c2 7 15 15) State.reset).opAt 7 .c2 = { op0 with d1l := 15, rr := 15 } := by decide

theorem test_undefined_V29 :
    exec (.undef00 0xFF) State.reset = .next State.reset ∧ exec (.undef09 0xFF) State.reset = .next State.reset ∧
    exec (.undef1c 3 0xFF) State.reset = .next State.reset := ⟨rfl, rfl, rfl⟩

theorem test_kon_before_reset_V120 :
    exec (.kon 0 true true true true) (powerUp defaultParams) =
      .fault (.useBeforeInit (.instr (.kon 0 true true true true))) := rfl

theorem test_rst_V122 :
    exec .rst (powerUp { defaultParams with rate := 0 }) = .fault (.configError .rate) := rfl

theorem test_init_keeps_the_parameters_of_a_reset_machine :
    execInit 48000 50 State.reset = .refused (.parametersFixed 48000 50) ∧
    execInit 44100 60 State.reset = .next State.reset := ⟨rfl, rfl⟩

theorem test_init_before_reset_fixes_its_values :
    execInit 48000 50 (powerUp defaultParams) =
      .next { State.reset with params := { defaultParams with rate := 48000, fps := 50 } } := rfl

theorem test_tick_0_before_reset_faults :
    exec (.tick 0) (powerUp defaultParams) = .fault (.useBeforeInit (.instr (.tick 0))) := rfl

theorem test_rst_V123 :
    (match exec .rst (powerUp defaultParams) with
      | .next t => exec .rst t
      | r => r) = .next State.reset := rfl

/-! ### The status read, the tick and the frame -/

theorem test_rds_S8 :
    (after .rds (resetG fun g => { g with status := 1 })).observed = [.status 0x01] := by decide

theorem test_tick_timerA_V100 :
    ((after (.tick 1) (resetG fun g => { g with taIdx := 1014, taRun := true, taVal := 3670 })).g.taVal,
      (after (.tick 1) (resetG fun g => { g with taIdx := 1014, taRun := true, taVal := 3670 })).g.status) =
      (400556, 1) := by decide +kernel

theorem test_tick_phase_V110 : ((after (.tick 1) State.reset).opAt 3 .c1).phase = 14720 := by decide +kernel

theorem test_frame_keeps_the_order_left_right :
    (match execFrame { State.reset with params := { defaultParams with rate := 60 } } with
      | .next t => some t.h.buffer
      | _ => none) = some [(0, 0), (1, 0)] := by decide +kernel

/-! ### Tables (V30 to V36) -/

theorem test_tables_V30_V31 :
    [tlTable 0, tlTable 1, tlTable 2, tlTable 510, tlTable 512, tlTable 513, tlTable 800, tlTable 4274,
      tlTable 6144, tlTable 6654, tlTable 6655] = [8168, -8168, 8148, 4096, 4084, -4084, 2766, 25, 1, 1, -1] ∧
    [sinTable 0, sinTable 1, sinTable 100, sinTable 128, sinTable 255, sinTable 256, sinTable 511, sinTable 512,
      sinTable 767, sinTable 768, sinTable 1023] = [4274, 3462, 404, 254, 0, 0, 4274, 4275, 1, 1, 4275] := by
  decide +kernel

theorem test_tables_V32_V33 :
    [freqTable defaultParams 0, freqTable defaultParams 1152, freqTable defaultParams 2304,
      freqTable defaultParams 4352, freqTable defaultParams 6911, freqTable defaultParams 8447] =
      [29440, 41600, 117760, 748032, 7534592, 7534592] ∧
    dt1Table defaultParams 114 = 816 ∧ dt1Table defaultParams 127 = 1995 := by decide +kernel

theorem test_tables_V34_to_V36 :
    timATable defaultParams 1014 = 462422 ∧ timATable defaultParams 0 = 47352014 ∧
    timBTable defaultParams 255 = 739875 ∧ noiseTable defaultParams 0 = 5804 ∧
    noiseTable defaultParams 30 = 92879 ∧ noiseTable defaultParams 31 = 92879 ∧
    egTimerAdd defaultParams = 92879 ∧ lfoTimerAdd defaultParams = 1451 ∧ envQuiet = 832 := by decide +kernel

/-! ### Envelope, LFO, phase, mixer (V40 to V49, V60, V61, V70, V80 to V88, V111) -/

theorem test_rates_V40 :
    attackRate 0x4A { op0 with ar := 20, ks := 2 } = ⟨0, 5⟩ ∧ attackRate 0x7F { op0 with ar := 30 } = ⟨0, 17⟩ ∧
    decay1Rate 0 { op0 with d1r := 10 } = ⟨6, 0⟩ ∧ decay2Rate 0x4A { op0 with d2r := 6, ks := 1 } = ⟨7, 0⟩ ∧
    releaseRate 0 { op0 with rr := 5 } = ⟨6, 2⟩ := by decide

theorem test_attack_V42 :
    attackStep 4 { op0 with env := .attack, volume := 767 } = { op0 with env := .attack, volume := 575 } ∧
    attackStep 8 { op0 with env := .attack, volume := 1 } = { op0 with env := .decay1, volume := 0 } := by decide

theorem test_egStep_V46_V47 :
    egStep 4 0 { op0 with d1r := 31, d1l := 1, env := .decay1, volume := 24 } =
      { op0 with d1r := 31, d1l := 1, env := .decay2, volume := 32 } ∧
    egStep 3 0 { op0 with rr := 15, env := .release, volume := 1016 } =
      { op0 with rr := 15, env := .off, volume := 1023 } := by decide

theorem test_keyOn_V43_V49 :
    keyOn 0 0 .kon { op0 with ar := 31 } = { op0 with ar := 31, key := 1, env := .decay1, volume := 0 } ∧
    keyOn 2 0 .kon { op0 with ar := 20, env := .release, volume := 600 } =
      { op0 with ar := 20, key := 1, env := .attack, volume := 562 } := by decide

theorem test_lfo_V60 :
    [(lfoRawAm 2 63, lfoRawPm 2 63), (lfoRawAm 2 128, lfoRawPm 2 128), (lfoRawAm 2 255, lfoRawPm 2 255),
      (lfoRawAm 0 128, lfoRawPm 0 128), (lfoRawAm 1 128, lfoRawPm 1 128)] =
      [(129, 126), (0, 0), (254, -1), (127, -127), (0, -128)] := by decide

theorem test_lfo_V61 :
    ((lfoOutputs { Global.reset with w := 1, lfoPhase := 128, pmd := 127 }).lfp,
      (lfoOutputs { Global.reset with w := 1, amd := 127 }).lfa) = (-127, 253) := by decide

theorem test_increment_V70 :
    tickInc defaultParams 0 (chKc 0x4A) { op0 with mul := 2, dt1 := 7 } = 1494432 ∧
    tickInc defaultParams (-1) { chKc 0x4A with pms := 1 } { op0 with mul := 1 } = 747264 ∧
    tickInc defaultParams 126 { chKc 0x7F with kf := 63, pms := 7 } { op0 with mul := 1, dt2 := 3 } = 7534592 := by
  decide +kernel

theorem test_lookup_V80 :
    [lookup 0 255, lookup 0 767, lookup 300 100, lookup 831 255, lookup 832 255, lookup 831 0] =
      [8168, -8168, 183, 1, 0, 0] := by decide +kernel

theorem test_sineIndex_V81_V82 :
    sineIndex (phaseInt { op0 with phase := 0x00FF0000 } + -3 * 32768) = 253 ∧
    sineIndex (phaseInt { op0 with phase := 0x0000FFFF } + -1 * 32768) = 1023 ∧
    sineIndex (phaseInt { op0 with phase := 0x00100000 } + feedbackOffset 7 (-16336)) = 28 := by decide +kernel

theorem test_attenuation_V83 :
    attenuation 253 { Channel.reset with ams := 3 } { op0 with tl := 127, amsen := true } = 3051 := by decide

theorem test_noise_V86_V88 :
    noiseShift 0 = 0x10000 ∧ noiseShift 0x1FFF8 = 0x0FFFC ∧ noiseShift 0x03FFF = 0x11FFF ∧
    noiseOut 1000 0x10000 = 46 ∧ noiseOut 0 0 = -2046 ∧ noiseOut 1023 0x10000 = 0 := by decide

theorem test_gain_V111 :
    outSample { defaultParams with gainDen := 2 } (-40000) = -16384 ∧
    outSample { defaultParams with gainDen := 2 } (-3) = -1 ∧ outSample defaultParams 40000 = 32767 := by decide

/-! ### The textual form (30_encoding.md R77, R78) -/

theorem test_text_tick_with_comment :
    operationsOf ['T', 'I', 'C', 'K', ' ', '7', ';', 'x'] = .ok [.word 0x20007#18] := by decide +kernel

theorem test_text_write :
    operationsOf ['0', 'x', '0', '8', '=', '0', 'x', '7', '8'] = .ok [.word 0x00878#18] ∧
    operationsOf ['W', 'R', ' ', '0', 'x', '1', '9', ',', ' ', '0', 'x', '1', '8', '5'] =
      .ok [.word 0x01985#18] := by decide +kernel

theorem test_text_pseudo :
    operationsOf ['T', 'I', 'M', 'E', 'R', 'A', ' ', '1', '0', '1', '4'] =
      .ok [.word 0x010FD#18, .word 0x01102#18] ∧
    operationsOf ['K', 'E', 'Y', 'O', 'N', ' ', '7', ',', ' ', '0', ' ', '0', ' ', '0', ' ', '1'] =
      .ok [.word 0x00847#18] ∧
    operationsOf ['K', 'E', 'Y', 'O', 'F', 'F', ' ', '8'] = .error .outOfRange := by decide +kernel

/-! ### Witnesses: a state and operands that meet the hypotheses of each obligation, clause by clause

Of the obligations whose one hypothesis is that the machine is reset (`s.h.ready = true`), the witness is
`witness_ready`: EveryOperationCompletesAfterReset, UndefinedAddressWritesDoNothing,
TestWriteStoresItsByteAndClearsTheLfoPhase, KonKeysTheFourOperatorsOfItsChannel, TimerIndexWritesReplaceTheirBits,
ControlByteDrivesTimersAndStatus, NoiseAndLfoWritesStoreTheirFields, ChannelWritesStoreTheirFields,
OperatorWritesStoreTheirFields, TickPerformsItsStepsInOrder, TicksKeepWhatOnlyWritesChange, TicksCompose,
FrameFillsTheBufferAsTicks. -/

theorem witness_ready : State.reset.h.ready = true := rfl

theorem witness_DecodeReadsBackEveryEncodedInstruction :
    (Instr.tick 0).wellFormed = true ∧ (Instr.tick 65535).wellFormed = true ∧
    (Instr.undef1c 3 0xFF).wellFormed = true := by decide

theorem witness_TraceWordKindsDecode :
    (0x0FFFF#18).toNat / 65536 = 0 ∧ (0x10000#18).toNat / 65536 = 1 ∧ (0x1FFFF#18).toNat / 65536 = 1 ∧
    (0x20000#18).toNat / 65536 = 2 ∧ (0x2FFFF#18).toNat / 65536 = 2 ∧ (0x3FFFF#18).toNat / 65536 = 3 := by decide

theorem witness_DecodeFollowsTheOpcodeTable : decode 0x01985#18 = .ok (.pmd 5) := by decide

theorem witness_IgnoredBitsHaveNoEffect :
    decode 0x09DDF#18 = .ok (.ksar .c2 5 3 31) ∧
    0x09DFF#18 &&& usedBits (.ksar .c2 5 3 31) = 0x09DDF#18 &&& usedBits (.ksar .c2 5 3 31) := by decide

/-- A reset machine with operations to perform. -/
def pendingState (ops : List PortOp) : State := { State.reset with pending := ops }

theorem witness_StepRunsTheDecodedInstruction :
    (pendingState [.word 0x20007#18, .frame]).pending = [.word 0x20007#18, .frame] ∧
    decode 0x20007#18 = .ok (.tick 7) := by decide

theorem witness_StepOnOtherOperations :
    (pendingState []).pending = [] ∧ (pendingState [.frame]).pending = [.frame] ∧
    (pendingState [.init 48000 50]).pending = [.init 48000 50] ∧
    ((pendingState [.init 48000 50]).h.ready = true ∧ 48000 ≠ (pendingState [.init 48000 50]).params.rate) ∧
    ((pendingState [.init 44100 60]).pending = [.init 44100 60] ∧
      44100 = (pendingState [.init 44100 60]).params.rate ∧ 60 = (pendingState [.init 44100 60]).params.fps) ∧
    (powerUp defaultParams).h.ready = false ∧
    (pendingState [.word 0x10001#18]).pending = [.word 0x10001#18] ∧
    decode 0x10001#18 = .error .payloadNotZero := by decide

theorem witness_TheTwoFaultsAndTheirConditions :
    (powerUp defaultParams).h.ready = false ∧ ({ defaultParams with rate := 0 } : Params).rate = 0 ∧
    ({ defaultParams with fps := 0 } : Params).fps = 0 ∧ ({ defaultParams with clock := 0 } : Params).clock = 0 ∧
    (59 < 60) ∧ ¬ ((60 : Nat) = 0 ∨ (60 : Nat) = 0 ∨ (1 : Nat) = 0 ∨ 60 < 60) := by decide

theorem witness_LegalRunsNeverStop :
    (pendingState [.word 0x30000#18, .frame, .init 44100 60]).h.ready = true ∧ paramsAccepted defaultParams ∧
    ∀ op ∈ [.word 0x30000#18, .frame, .init 44100 60], PortOp.legal defaultParams op :=
  ⟨rfl, ⟨by decide, by decide, by decide⟩, by
    intro op h
    simp only [List.mem_cons, List.not_mem_nil, or_false] at h
    obtain rfl | rfl | rfl := h
    · exact ⟨.rst, by decide⟩
    · trivial
    · exact ⟨rfl, rfl⟩⟩

theorem witness_LegalRunsNeverStop_from_power_up :
    (powerUp defaultParams).h.ready = false ∧ paramsAccepted { defaultParams with rate := 60, fps := 60 } ∧
    PortOp.legal { defaultParams with rate := 60, fps := 60 } .frame ∧
    ({ powerUp defaultParams with pending := [.init 60 60, .frame] } : State).pending = .init 60 60 :: [.frame] ∧
    ({ powerUp defaultParams with pending := [.word 0x30000#18, .frame] } : State).pending =
      .word 0x30000#18 :: [.frame] :=
  ⟨rfl, ⟨by decide, by decide, by decide⟩, trivial, rfl, rfl⟩

theorem witness_ResetSetsEveryField :
    paramsAccepted State.reset.params ∧ paramsAccepted { defaultParams with clock := 1, rate := 1, fps := 1 } :=
  ⟨⟨by decide, by decide, by decide⟩, ⟨by decide, by decide, by decide⟩⟩

theorem witness_ResetForgetsTheRunBefore :
    (pendingState [.frame]).params = (resetG fun g => { g with egCnt := 5 }).params ∧
    paramsAccepted (pendingState [.frame]).params := ⟨rfl, ⟨by decide, by decide, by decide⟩⟩

theorem witness_StoreOnlyWritesTouchNoDynamicField :
    isWrite (.lfrq 3) = true ∧ hasSideEffect (.lfrq 3) = false ∧ ∃ t, exec (.lfrq 3) State.reset = .next t :=
  ⟨rfl, rfl, _, rfl⟩

theorem witness_RepeatedWriteChangesNothing :
    isWrite (.kon 0 true true true true) = true ∧ ∃ t, exec (.kon 0 true true true true) State.reset = .next t :=
  ⟨rfl, _, rfl⟩

theorem witness_InstructionsLeaveBufferAndParameters :
    (∃ t, exec (.tick 1) State.reset = .next t) ∧
    (pendingState [.init 44100 60]).h.ready = true ∧ ∃ t, step (pendingState [.init 44100 60]) = .next t :=
  ⟨⟨_, rfl⟩, rfl, _, rfl⟩

theorem witness_KeyOnRestartsAnUnkeyedOperator :
    ({ op0 with key := 3 } : Operator).key ≠ 0 ∧ op0.key = 0 ∧
    (16 = egInc (attackRate 0 { op0 with ar := 31 }).sel
        ((0#32).toNat / 2 ^ (attackRate 0 { op0 with ar := 31 }).sh % 8) ∧
      (-1 : Int) = 1023 + (-1023 - 1 : Int) * (16 : Nat) / 16) := by decide

theorem witness_KeyOffReleasesFromStatesAboveRelease :
    ((0 : BitVec 2) = ({ op0 with key := 1, env := .decay2 } : Operator).key &&& ~~~ keyBit .kon) ∧
    ((2 : BitVec 2) = ({ op0 with key := 3, env := .decay2 } : Operator).key &&& ~~~ keyBit .kon) := by decide

theorem witness_RateLookupFollowsKeyScaling :
    31 = (0x7F#7).toNat / 2 ^ (5 - ({ op0 with ks := 3, ar := 31 } : Operator).ks.toNat) ∧
    94 = (if (31 : BitVec 5) = 0 then 0 else 32 + 2 * (31 : BitVec 5).toNat) ∧
    0 = (if (0 : BitVec 5) = 0 then 0 else 32 + 2 * (0 : BitVec 5).toNat) := by decide

theorem witness_ZeroRatesHoldAndReleaseMoves :
    (op0.ar = 0 ∧ ({ op0 with env := .attack, volume := 1 } : Operator).env = .attack ∧
      1 ≤ ({ op0 with env := .attack, volume := 1 } : Operator).volume) ∧
    (op0.d2r = 0 ∧ ({ op0 with env := .decay2, volume := 1022 } : Operator).env = .decay2 ∧
      ({ op0 with env := .decay2, volume := 1022 } : Operator).volume < 1023) ∧
    (op0.d1r = 0 ∧ ({ op0 with env := .decay1, volume := 0 } : Operator).env = .decay1) := by decide

theorem witness_EgStepFollowsTheStateMachine :
    op0.env = .off ∧
    (∀ e ∈ [EnvState.attack, .decay1, .decay2, .release], ({ op0 with env := e } : Operator).env = e) ∧
    (2049#32).toNat % 2 ^ (releaseRate 0 op0).sh ≠ 0 ∧ (2048#32).toNat % 2 ^ (releaseRate 0 op0).sh = 0 ∧
    1 = egInc (releaseRate 0 op0).sel ((2048#32).toNat / 2 ^ (releaseRate 0 op0).sh % 8) ∧
    (1#32).toNat % 2 ^ (attackRate 0 { op0 with ar := 31 }).sh = 0 ∧
    (1#32).toNat % 2 ^ (decay1Rate 0 { op0 with d1r := 31 }).sh = 0 ∧
    (1#32).toNat % 2 ^ (decay2Rate 0 { op0 with d2r := 31 }).sh = 0 := by decide

theorem witness_EnvelopeIsMonotoneAndBounded :
    ({ op0 with key := 1, ar := 31, env := .attack } : Operator).ok ∧
    rateApplies 1 (attackRate 0 { op0 with key := 1, ar := 31, env := .attack }) = true ∧
    1 ≤ rateInc 1 (attackRate 0 { op0 with key := 1, ar := 31, env := .attack }) ∧
    (attackRate 0 { op0 with key := 1, ar := 31, env := .attack }).sel = 17 ∧
    ({ op0 with key := 1, env := .decay1, volume := 991 } : Operator).ok ∧
    ({ op0 with key := 1, env := .decay1, volume := 991 } : Operator).env ≠ .attack := by
  refine ⟨⟨?_, ?_, ?_, ?_⟩, ?_, ?_, ?_, ⟨?_, ?_, ?_, ?_⟩, ?_⟩ <;> decide

theorem witness_EnvelopeTransitionsAreComplete :
    op0.ok ∧ ({ op0 with key := 1, env := .decay1, volume := 991 } : Operator).ok := by
  refine ⟨⟨?_, ?_, ?_, ?_⟩, ⟨?_, ?_, ?_, ?_⟩⟩ <;> decide

theorem witness_EgClockStepsOncePerOverflow :
    (resetG fun g => { g with egTimer := 196607 }).g.egTimer +
        65536 * defaultParams.clock / (64 * defaultParams.rate) = 1 * 196608 + 92878 ∧ 92878 < 196608 := by
  decide +kernel

theorem witness_LfoPhaseIsHeldOrAdvanced :
    8192 = 2 ^ (28 - (0xFF#8).toNat / 16) ∧
    1451 + 8000 = 8000 + 1024 * defaultParams.clock / (64 * defaultParams.rate) ∧
    46 = 15 + 16 + (0xFF#8).toNat % 16 := by decide +kernel

theorem witness_LfoPhaseMovesByAtMostTwo :
    ({ Global.reset with lfrq := 0xFF, lfoCounter := 15, lfoTimer := 8191 } : Global).test.getLsbD 1 = false ∧
    15 < 16 ∧ defaultParams.clock < 512 * defaultParams.rate ∧ 8191 < 2 ^ (28 - (0xFF#8).toNat / 16) := by
  decide +kernel

theorem witness_LfoWaveformsFollowTheirFormulas : (255 : Int) = (255#8).toNat ∧ (0 : Int) = (0#8).toNat := by
  decide

theorem witness_LfoOutputsAreScaledAndBounded :
    State.reset.h.ready = true ∧ ∃ t, exec (.tick 1) State.reset = .next t := ⟨rfl, _, rfl⟩

theorem witness_PhaseIncrementFollowsItsFormula :
    0x4A = (chKc 0x4A).kc.toNat ∧
    816 = dt1Table defaultParams (32 * (({ op0 with dt1 := 3 } : Operator).dt1.toNat % 4) + 0x4A / 4) ∧
    (chKc 0x4A).pms = 0 ∧ 1 ≤ ({ chKc 0x4A with pms := 1 } : Channel).pms.toNat ∧
    ({ chKc 0x4A with pms := 5 } : Channel).pms.toNat ≤ 5 ∧ 6 ≤ ({ chKc 0x4A with pms := 6 } : Channel).pms.toNat := by
  decide +kernel

theorem witness_FrequencyIndexStaysInTheTable :
    ((-127 : Int) ≤ -127 ∧ (-127 : Int) ≤ 126) ∧ ((-127 : Int) ≤ 126 ∧ (126 : Int) ≤ 126) := by decide

theorem witness_TickAdvancesEveryPhase :
    State.reset.h.ready = true ∧ (∃ t, exec (.tick 1) State.reset = .next t) ∧
    ¬ (State.reset.g.taRun = true ∧ State.reset.g.csmEn = true ∧ State.reset.g.taVal ≤ 65536) ∧
    State.reset.g.csmReq ≠ .keyOnPending := ⟨rfl, ⟨_, rfl⟩, by decide, by decide⟩

theorem witness_OperatorAttenuationAndOutput :
    op0.volume ≤ 1023 ∧ 253 ≤ 253 ∧ 1023 < 1024 ∧ 6656 ≤ 8 * 831 + sinTable 0 ∧ ¬ 6656 ≤ 8 * 831 + sinTable 255 := by
  decide +kernel

/-- The floor of `65536 / 2^((x+1)/256)` is 65358 at `x = 0` and 32768 at `x = 255`. -/
theorem witness_SineHalfWavesAreOpposite :
    (0 < 512 ∧ 511 < 512) ∧ (255 < 256 ∧ 12 ≤ 12) ∧
    (65358 ^ 256 * 2 ^ (0 + 1) ≤ 65536 ^ 256 ∧ 65536 ^ 256 < (65358 + 1) ^ 256 * 2 ^ (0 + 1)) ∧
    (32768 ^ 256 * 2 ^ (255 + 1) ≤ 65536 ^ 256 ∧ 65536 ^ 256 < (32768 + 1) ^ 256 * 2 ^ (255 + 1)) := by
  decide +kernel

theorem witness_AlgorithmsRouteTheFourOperators :
    ∃ (s : State) (e : Slot → Nat) (n : Int) (m2 c1 c2 : Int → Int),
      (∀ sl, e sl = attenuation s.g.lfa (s.chAt 7) (s.opAt 7 sl)) ∧ n = 2 * (1023 - e .c2 : Nat) ∧
      (∀ x, m2 x = if e .m2 < 832 then opOut (e .m2) (s.opAt 7 .m2) x else 0) ∧
      (∀ x, c1 x = if e .c1 < 832 then opOut (e .c1) (s.opAt 7 .c1) x else 0) ∧
      (∀ x, c2 x =
        if (7 : Chan) = 7 ∧ s.g.ne = true then (if s.g.noiseRng.getLsbD 16 then n else -n)
        else if e .c2 < 832 then opOut (e .c2) (s.opAt 7 .c2) x else 0) ∧ (s.chAt 7).con = 0 :=
  ⟨State.reset, _, _, _, _, _, fun _ => rfl, rfl, fun _ => rfl, fun _ => rfl, fun _ => rfl, rfl⟩

theorem witness_AlgorithmsRouteTheFourOperators_every_algorithm :
    ∀ con : BitVec 3, ((after (.rlfbcon 7 true true 0 con) State.reset).chAt 7).con = con := by decide

theorem witness_FeedbackOperatorShiftsItsHistory :
    832 ≤ attenuation 0 Channel.reset { op0 with volume := 832 } ∧
    attenuation 0 Channel.reset { op0 with volume := 831 } < 832 := by decide

theorem witness_NoiseReplacesC2OfChannelSeven :
    ({ Global.reset with ne := true } : Global).ne = true ∧
    (1534 : Int) = 2 * (1023 - attenuation 0 Channel.reset { op0 with tl := 32, volume := 0 } : Nat) := by decide

theorem witness_NoiseRegisterShiftsByItsRate : 5804 = State.reset.g.noiseP + noiseTable defaultParams 0 := by
  decide +kernel

/-- A reset machine with operator C1 of channel 2 in Decay1, keyed on, and a tick to perform. -/
def soundingState : State :=
  onOp 2 .c1 (fun o => { o with key := 1, env := .decay1, volume := 10 }) (pendingState [.word 0x20001#18])

theorem witness_the_invariant : soundingState.Inv where
  ops c sl := by cases sl <;> revert c <;> simp only [Operator.ok] <;> decide
  chs c := by revert c; simp only [Channel.ok]; decide
  glob := by simp only [Global.ok]; decide
  buffer := rfl
  csm c sl := by cases sl <;> revert c <;> decide

theorem witness_MixerOutputsAreBounded : soundingState.Inv := witness_the_invariant

theorem witness_EveryStepKeepsTheInvariant : soundingState.Inv ∧ ∃ t, step soundingState = .next t :=
  ⟨witness_the_invariant, _, rfl⟩

theorem witness_TimersCountDownAndReload :
    (true = ((true : Bool) && decide ((65536 : Int) - 65536 ≤ 0))) ∧
    (false = ((true : Bool) && decide ((65537 : Int) - 65536 ≤ 0))) := by decide

/-- A reset machine with both timers just started. -/
def timersStarted : State :=
  after (.tctl true false false true true) (resetG fun g => { g with taIdx := 1014, tbIdx := 255 })

theorem witness_TimersOverflowAtTheirPeriod :
    timersStarted.h.ready = true ∧ (∃ t, exec (.tick 8) timersStarted = .next t) ∧
    462422 = timATable timersStarted.params timersStarted.g.taIdx.toNat ∧ timersStarted.g.taRun = true ∧
    timersStarted.g.taVal = 462422 ∧ timersStarted.g.status.getLsbD 0 = false ∧
    739875 = timBTable timersStarted.params timersStarted.g.tbIdx.toNat ∧ timersStarted.g.tbRun = true ∧
    timersStarted.g.tbVal = 739875 ∧ timersStarted.g.status.getLsbD 1 = false := by
  refine ⟨rfl, ⟨_, rfl⟩, ?_, rfl, ?_, rfl, ?_, rfl, ?_, rfl⟩ <;> decide +kernel

theorem witness_StatusBitsChangeOnlyAsStated :
    (∃ t, exec (.tick 1) (resetG fun g => { g with taRun := true, tbRun := true }) = .next t ∧
      statusA t.g = true ∧ statusB t.g = true) ∧
    (∃ t, exec (.tctl false true true false false) (resetG fun g => { g with status := 3 }) = .next t ∧
      statusA t.g = false ∧ statusB t.g = false) :=
  ⟨⟨_, rfl, by decide +kernel, by decide +kernel⟩, ⟨_, rfl, by decide, by decide⟩⟩

/-- A reset machine whose Timer A reaches zero in the next tick with CSM enabled, and not in the one after. -/
def csmDue : State := resetG fun g => { g with taRun := true, csmEn := true, taVal := 65536 }

theorem witness_CsmKeysAllOperatorsForOneTick :
    csmDue.h.ready = true ∧ csmDue.g.taRun = true ∧ csmDue.g.csmEn = true ∧ csmDue.g.taVal ≤ 65536 ∧
    (csmDue.opAt 3 .c1).key = 0 ∧
    ∃ t u, exec (.tick 1) csmDue = .next t ∧ exec (.tick 1) t = .next u ∧ 65536 < t.g.taVal :=
  ⟨rfl, rfl, rfl, by decide, by decide, _, _, rfl, rfl, by decide +kernel⟩

theorem witness_HeldOperatorsIgnoreCsm :
    (∃ t, exec (.tick 1) (after (.kon 3 true false false false) csmDue) = .next t ∧
      ((after (.kon 3 true false false false) csmDue).opAt 3 .m1).key.getLsbD 0 = true ∧
      ((after (.kon 3 true false false false) csmDue).opAt 3 .m1).key ≠ 0) ∧
    (∃ t, exec (.tick 1) soundingState = .next t ∧
      ¬ (soundingState.g.taRun = true ∧ soundingState.g.csmEn = true ∧ soundingState.g.taVal ≤ 65536) ∧
      soundingState.g.csmReq = .idle) :=
  ⟨⟨_, rfl, by decide, by decide⟩, ⟨_, rfl, by decide, rfl⟩⟩

theorem witness_StatusReadReturnsTheTwoBits :
    (powerUp defaultParams).h.ready = false ∧ State.reset.h.ready = true := by decide

theorem witness_SamplesAreSigned16Bit :
    gainOk State.reset.params ∧ (∃ t, exec (.tick 1) State.reset = .next t) ∧
    ∀ o ∈ [.sample (-32768) 32767, .status 3], Observation.inRange o :=
  ⟨⟨by decide, by decide⟩, ⟨_, rfl⟩, by
    intro o h
    simp only [List.mem_cons, List.not_mem_nil, or_false] at h
    obtain rfl | rfl := h
    · exact ⟨⟨by decide, by decide⟩, ⟨by decide, by decide⟩⟩
    · trivial⟩

theorem witness_SilenceAfterReset : ∃ t, exec .rst (powerUp defaultParams) = .next t := ⟨_, rfl⟩

end Sys2Proof.Tests
end

/-! ## The step, the parameters and the samples: proofs of O7, O10, O23, O56 -/

namespace Sys2Proof.Machine

open Host (Core.run)

/-! ### The step, one equation per operation at the head of the pending list -/

section
variable {s : State} {rest : List PortOp}

theorem step_idle (h : s.pending = []) : step s = .next s := by
  simp only [step, h]

theorem step_cons {op : PortOp} (h : s.pending = op :: rest) :
    step s = perform op { s with pending := rest } := by
  simp only [step, h]

/-- An `INIT` whose values a machine already reset has, or any `INIT` before the first reset, is the reset at its
values (30_encoding.md R78; log 9). -/
theorem execInit_eq_execRst {rate fps : Nat}
    (h : s.h.ready = false ∨ (rate = s.params.rate ∧ fps = s.params.fps)) :
    execInit rate fps s = execRst { s with params := initParams rate fps s.params } := by
  refine if_neg fun ⟨hready, hother⟩ => ?_
  rcases h with hnot | hsame
  · exact Bool.false_ne_true (hnot.symm.trans hready)
  · exact hother hsame

/-- A word that is no trace word is refused by name (30_encoding.md R68; log 22). -/
theorem perform_word_error {w : TraceWord} (h : decode w = .error .payloadNotZero) :
    perform (.word w) s = .refused (.notATraceWord w) := by
  simp only [perform, h]

theorem perform_word_ok {w : TraceWord} {i : Instr} (h : decode w = .ok i) :
    perform (.word w) s = exec i s := by
  simp only [perform, h]

end

/-- Settles O7: each clause is the step's equation for the operation at the head, followed by what performing that
operation answers. -/
theorem stepOnOtherOperations : Obligations.StepOnOtherOperations := by
  intro s rest
  refine ⟨step_idle, step_cons, fun rate fps hp => ⟨fun h => ?_, fun hready hother => ?_⟩, fun w hp hw => ?_⟩
  · exact (step_cons hp).trans (execInit_eq_execRst h)
  · exact (step_cons hp).trans (execInit_refused hready (by tauto))
  · exact (step_cons hp).trans (perform_word_error hw)

/-! ### What an instruction can do outside the sound generator -/

/-- The host's record, the parameters and the pending operations are as before. -/
def keepsHost (s t : State) : Prop := t.h = s.h ∧ t.params = s.params ∧ t.pending = s.pending

/-- The ticks of `TICK n` touch nothing of the host's. -/
theorem ticks_keepsHost (n : Nat) (s : State) : keepsHost s (ticks n s) :=
  ⟨ticks_h n s, ticks_params n s, ticks_pending n s⟩

/-- Every instruction but `RST` is one guarded update, and the update leaves the host's part of the state alone
(60_exceptions.md R255, 10_state.md R46). -/
theorem exec_eq_whenReady {i : Instr} (hi : i ≠ .rst) (s : State) :
    ∃ t, exec i s = whenReady (.instr i) s t ∧ keepsHost s t := by
  cases i with
  | rst => exact absurd rfl hi
  | tick n => exact ⟨ticks n s, rfl, ticks_keepsHost n s⟩
  | _ => exact ⟨_, rfl, rfl, rfl, rfl⟩

/-- An instruction that answers a next state is the reset of a machine with accepted parameters, or was performed on
a ready machine and kept the host's part of the state. -/
theorem exec_next_cases {i : Instr} {s t : State} (h : exec i s = .next t) :
    (i = .rst ∧ paramsAccepted s.params ∧ t = resetAll s) ∨ (i ≠ .rst ∧ s.h.ready = true ∧ keepsHost s t) := by
  by_cases hi : i = .rst
  · subst hi
    exact .inl ⟨rfl, execRst_eq_next.1 h⟩
  · obtain ⟨u, hu, hkeeps⟩ := exec_eq_whenReady hi s
    obtain ⟨hready, rfl⟩ := whenReady_eq_next.1 (hu.symm.trans h)
    exact .inr ⟨hi, hready, hkeeps⟩

/-- On a ready machine with accepted parameters every instruction completes (60_exceptions.md R250). -/
theorem exec_completes {s : State} (hready : s.h.ready = true) (hp : paramsAccepted s.params) (i : Instr) :
    ∃ t, exec i s = .next t := by
  by_cases hi : i = .rst
  · subst hi
    exact ⟨resetAll s, execRst_eq_next.2 ⟨hp, rfl⟩⟩
  · obtain ⟨t, ht, -⟩ := exec_eq_whenReady hi s
    exact ⟨t, ht.trans (whenReady_ready hready)⟩

/-! ### What one operation keeps on a machine that is reset -/

/-- The ready flag, the parameters and the pending operations are as before. Unlike `keepsHost` this says nothing
of the frame buffer, so that it holds of `FRAME` too. -/
def keepsRun (s t : State) : Prop :=
  t.h.ready = s.h.ready ∧ t.params = s.params ∧ t.pending = s.pending

theorem keepsHost.keepsRun {s t : State} (h : keepsHost s t) : keepsRun s t := by
  obtain ⟨hh, hparams, hpending⟩ := h
  exact ⟨by rw [hh], hparams, hpending⟩

theorem keepsRun.trans {s t u : State} (h : keepsRun s t) (h' : keepsRun t u) : keepsRun s u := by
  obtain ⟨hready, hparams, hpending⟩ := h
  obtain ⟨hready', hparams', hpending'⟩ := h'
  exact ⟨hready'.trans hready, hparams'.trans hparams, hpending'.trans hpending⟩

theorem resetAll_keepsRun {s : State} (hready : s.h.ready = true) : keepsRun s (resetAll s) :=
  ⟨hready.symm, rfl, rfl⟩

/-- The loop of a frame stores into the buffer and otherwise ticks (47_sample_tick.md R240). -/
theorem frameFrom_keepsRun (n k : Nat) (s : State) : keepsRun s (frameFrom n k s) := by
  induction k generalizing n s with
  | zero => exact ⟨rfl, rfl, rfl⟩
  | succ k ih =>
    have hpass : keepsRun s (storePair n (tickSample s) (tick s)) :=
      ⟨by rw [storePair_ready, tick_h], by rw [storePair_params, tick_params],
        by rw [storePair_pending, tick_pending]⟩
    exact hpass.trans (ih (n + 1) _)

theorem exec_keepsRun {i : Instr} {s t : State} (hready : s.h.ready = true) (h : exec i s = .next t) :
    keepsRun s t := by
  rcases exec_next_cases h with ⟨-, -, rfl⟩ | ⟨-, -, hkeeps⟩
  · exact resetAll_keepsRun hready
  · exact hkeeps.keepsRun

/-- On a machine that is reset no operation changes a parameter or the operations still to come, and the machine
stays reset (00_scope.md R3). -/
theorem perform_keepsRun {op : PortOp} {s t : State} (hready : s.h.ready = true) (h : perform op s = .next t) :
    keepsRun s t := by
  cases op with
  | word w =>
    cases hw : decode w with
    | ok i => exact exec_keepsRun hready ((perform_word_ok hw).symm.trans h)
    | error e =>
      cases e
      exact nomatch (perform_word_error hw).symm.trans h
  | frame =>
    obtain ⟨-, rfl⟩ := whenReady_eq_next.1 h
    exact frameFrom_keepsRun 0 _ s
  | init rate fps =>
    obtain ⟨hsame, -, rfl⟩ := execInit_eq_next.1 h
    obtain ⟨rfl, rfl⟩ := hsame hready
    exact resetAll_keepsRun hready

/-- A step of a machine that is reset keeps the parameters, stays reset, and uses up the first pending operation. -/
theorem step_ready {s t : State} (hready : s.h.ready = true) (h : step s = .next t) :
    t.h.ready = true ∧ t.params = s.params ∧ t.pending = s.pending.tail := by
  cases hp : s.pending with
  | nil =>
    obtain rfl : s = t := by simpa [step_idle hp] using h
    exact ⟨hready, rfl, hp⟩
  | cons op rest =>
    obtain ⟨hready', hparams, hpending⟩ :=
      perform_keepsRun (s := { s with pending := rest }) hready ((step_cons hp).symm.trans h)
    exact ⟨hready'.trans hready, hparams, hpending⟩

/-- Settles O23: the first part by the two ways an instruction can answer a next state, the second by what every
operation keeps on a machine that is reset. -/
theorem instructionsLeaveBufferAndParameters : Obligations.InstructionsLeaveBufferAndParameters := by
  refine ⟨fun i s t h => ?_, fun s t hready h => ?_⟩
  · rcases exec_next_cases h with ⟨-, -, rfl⟩ | ⟨-, -, hh, hparams, hpending⟩
    · exact ⟨rfl, rfl, rfl⟩
    · exact ⟨by rw [hh], hparams, hpending⟩
  · obtain ⟨hready', hparams, -⟩ := step_ready hready h
    exact ⟨hparams, hready'⟩

/-! ### Legal runs -/

/-- On a ready machine with accepted parameters every legal operation completes (60_exceptions.md R250, R256). -/
theorem perform_completes {op : PortOp} {s : State} (hready : s.h.ready = true) (hp : paramsAccepted s.params)
    (hop : op.legal s.params) : ∃ t, perform op s = .next t := by
  cases op with
  | word w =>
    obtain ⟨i, hi⟩ := hop
    rw [perform_word_ok hi]
    exact exec_completes hready hp i
  | frame => exact ⟨_, whenReady_ready hready⟩
  | init rate fps =>
    obtain ⟨rfl, rfl⟩ := hop
    exact ⟨resetAll s, (execInit_same s).trans (execRst_eq_next.2 ⟨hp, rfl⟩)⟩

/-- A reset machine with accepted parameters that has only legal operations before it. -/
structure LegalRun (s : State) : Prop where
  ready : s.h.ready = true
  accepted : paramsAccepted s.params
  legal : ∀ op ∈ s.pending, op.legal s.params

/-- A step of a legal run completes. -/
theorem LegalRun.step_completes {s : State} (hs : LegalRun s) : ∃ t, step s = .next t := by
  cases hp : s.pending with
  | nil => exact ⟨s, step_idle hp⟩
  | cons op rest =>
    rw [step_cons hp]
    exact perform_completes hs.ready hs.accepted (hs.legal op (by simp [hp]))

/-- What is left of a legal run after a step is a legal run. -/
theorem LegalRun.step_keeps {s t : State} (hs : LegalRun s) (h : step s = .next t) : LegalRun t := by
  obtain ⟨hready, hparams, hpending⟩ := step_ready hs.ready h
  refine ⟨hready, hparams ▸ hs.accepted, fun op hop => ?_⟩
  rw [hpending] at hop
  rw [hparams]
  exact hs.legal op (List.mem_of_mem_tail hop)

/-- A run whose first step completes goes on from the state that step answers. -/
theorem run_succ {s t : State} (h : step s = .next t) (k : Nat) : Core.run core (k + 1) s = Core.run core k t := by
  have hcore : core.step s = .next t := h
  simp only [Core.run, hcore]

/-- A legal run never stops. -/
theorem LegalRun.run_completes {s : State} (hs : LegalRun s) (k : Nat) : ∃ t, Core.run core k s = .next t := by
  induction k generalizing s with
  | zero => exact ⟨s, rfl⟩
  | succ k ih =>
    obtain ⟨t, ht⟩ := hs.step_completes
    rw [run_succ ht]
    exact ih (hs.step_keeps ht)

/-- The first step of a machine not yet reset, an `INIT` or a `RST`, resets it at the values the parameters then
have. -/
theorem step_first_reset {s : State} {rate fps : Nat} {rest : List PortOp} (hready : s.h.ready = false)
    (hp : paramsAccepted (initParams rate fps s.params))
    (hfirst : s.pending = .init rate fps :: rest ∨
      (s.pending = .word 0x30000#18 :: rest ∧ rate = s.params.rate ∧ fps = s.params.fps)) :
    step s = .next (resetAll { s with pending := rest, params := initParams rate fps s.params }) := by
  rcases hfirst with hinit | ⟨hrst, rfl, rfl⟩
  · rw [step_cons hinit]
    exact (execInit_eq_execRst (s := { s with pending := rest }) (.inl hready)).trans
      (execRst_eq_next.2 ⟨hp, rfl⟩)
  · have hword : decode 0x30000#18 = .ok .rst := by decide
    rw [step_cons hrst, perform_word_ok hword]
    exact execRst_eq_next.2 ⟨hp, rfl⟩

/-- Settles O10: legal runs are kept by every step, and the reset that begins a run answers a legal run. -/
theorem legalRunsNeverStop : Obligations.LegalRunsNeverStop := by
  refine ⟨fun s hready hp hlegal k => LegalRun.run_completes ⟨hready, hp, hlegal⟩ k,
    fun s rate fps rest hready hp hlegal hfirst k => ?_⟩
  cases k with
  | zero => exact ⟨s, rfl⟩
  | succ k =>
    rw [run_succ (step_first_reset hready hp hfirst)]
    exact LegalRun.run_completes ⟨rfl, hp, hlegal⟩ k

/-! ### The range of the samples -/

theorem clip_inRange16 (x : Int) : inRange16 (clip x) := by
  show (-32768 : Int) ≤ clip x ∧ clip x ≤ (32767 : Int)
  unfold clip
  split
  · omega
  · split <;> omega

/-- Scaling by `num / den ≤ 1`, rounded toward zero, leaves a range around 0. -/
theorem tdiv_gain_mem {lo hi x num den : Int} (hlo : lo ≤ 0) (hhi : 0 ≤ hi) (hnum : 0 ≤ num) (hden : 0 < den)
    (hgain : num ≤ den) (hx : lo ≤ x ∧ x ≤ hi) : lo ≤ (x * num).tdiv den ∧ (x * num).tdiv den ≤ hi := by
  have hlow : lo * den ≤ x * num :=
    (mul_le_mul_of_nonpos_left hgain hlo).trans (mul_le_mul_of_nonneg_right hx.1 hnum)
  have hhigh : x * num ≤ hi * den :=
    (mul_le_mul_of_nonneg_right hx.2 hnum).trans (mul_le_mul_of_nonneg_left hgain hhi)
  have hlow' := Int.tdiv_le_tdiv hden hlow
  have hhigh' := Int.tdiv_le_tdiv hden hhigh
  rw [Int.mul_tdiv_cancel _ hden.ne'] at hlow' hhigh'
  exact ⟨hlow', hhigh'⟩

/-- With a gain of at most 1 the clip bounds the sample (47_sample_tick.md R234). -/
theorem outSample_inRange16 {p : Params} (hp : gainOk p) (x : Int) : inRange16 (outSample p x) := by
  obtain ⟨hden, hgain⟩ := hp
  exact tdiv_gain_mem (by decide) (by decide) (by omega) (by omega) (by omega) (clip_inRange16 x)

theorem tickSample_inRange {s : State} (hp : gainOk s.params) :
    Observation.inRange (.sample (tickSample s).1 (tickSample s).2) := by
  have hp' : gainOk (egTick s).params := by rwa [egTick_params]
  exact ⟨outSample_inRange16 hp' _, outSample_inRange16 hp' _⟩

/-- The gain is at most 1 and every result observed so far is in range. -/
def resultsInRange (s : State) : Prop := gainOk s.params ∧ ∀ o ∈ s.observed, o.inRange

theorem tick_keeps_resultsInRange (s : State) (h : resultsInRange s) : resultsInRange (tick s) := by
  obtain ⟨hp, hold⟩ := h
  refine ⟨by rwa [tick_params], ?_⟩
  rw [tick_observed]
  exact List.forall_mem_cons.2 ⟨tickSample_inRange hp, hold⟩

/-- Settles O56: every tick of `TICK n` records one pair, which the clip and the gain keep in range. -/
theorem samplesAreSigned16Bit : Obligations.SamplesAreSigned16Bit := by
  intro s t n hp h hold
  obtain ⟨-, rfl⟩ := whenReady_eq_next.1 h
  obtain ⟨-, hnew⟩ : resultsInRange (ticks n s) := iter_keeps tick_keeps_resultsInRange n ⟨hp, hold⟩
  exact hnew

end Sys2Proof.Machine

/-! ## The invariant of the state: proofs of O6, O60 -/

namespace Sys2Proof.Machine

/-- Settles O6: the step performs the head of the pending list, and a trace word is performed by its instruction. -/
theorem stepRunsTheDecodedInstruction : Obligations.StepRunsTheDecodedInstruction := by
  intro s w rest i hpending hdecode
  exact (step_cons hpending).trans (perform_word_ok hdecode)

/-! ### The operations on a key mask and the CSM bit -/

section
variable (k : BitVec 2)

theorem setKey_kon_csmBit : (setKey .kon k).getLsbD 1 = k.getLsbD 1 := by revert k; decide
theorem clearKey_kon_csmBit : (clearKey .kon k).getLsbD 1 = k.getLsbD 1 := by revert k; decide
theorem setKey_csm_csmBit : (setKey .csm k).getLsbD 1 = true := by revert k; decide
theorem clearKey_csm_csmBit : (clearKey .csm k).getLsbD 1 = false := by revert k; decide
end

theorem konOp_ok (cnt : BitVec 32) (kc : BitVec 7) (on : Bool) {o : Operator} (ho : o.ok) :
    (konOp cnt kc on o).ok := by
  cases on
  · exact keyOff_ok .kon o ho
  · exact keyOn_ok cnt kc .kon o ho

/-- The register KON has its own key bit (10_state.md R23). -/
theorem konOp_csmBit (cnt : BitVec 32) (kc : BitVec 7) (on : Bool) (o : Operator) :
    (konOp cnt kc on o).key.getLsbD 1 = o.key.getLsbD 1 := by
  cases on
  · show (keyOff .kon o).key.getLsbD 1 = _
    rw [keyOff_key, clearKey_kon_csmBit]
  · show (keyOn cnt kc .kon o).key.getLsbD 1 = _
    rw [keyOn_key, setKey_kon_csmBit]

theorem csmOp_ok (r : CsmReq) (cnt : BitVec 32) (kc : BitVec 7) {o : Operator} (ho : o.ok) :
    (csmOp r cnt kc o).ok := by
  cases r with
  | idle => exact ho
  | keyOffPending => exact keyOff_ok .csm o ho
  | keyOnPending => exact keyOn_ok cnt kc .csm o ho

/-- Resolving a request ties the CSM bit to the request that is left, whatever the bit was before; only with no
request to resolve must the bit be clear already (46_timers_csm.md R219). -/
theorem csmOp_csmBit {r : CsmReq} {o : Operator} (cnt : BitVec 32) (kc : BitVec 7)
    (hidle : r = .idle → o.key.getLsbD 1 = false) :
    (csmOp r cnt kc o).key.getLsbD 1 = decide (csmNext r = .keyOffPending) := by
  cases r with
  | idle => exact hidle rfl
  | keyOffPending =>
    show (keyOff .csm o).key.getLsbD 1 = false
    rw [keyOff_key, clearKey_csm_csmBit]
  | keyOnPending =>
    show (keyOn cnt kc .csm o).key.getLsbD 1 = true
    rw [keyOn_key, setKey_csm_csmBit]

theorem csmNext_ne_keyOnPending (r : CsmReq) : csmNext r ≠ .keyOnPending := by
  cases r <;> decide

/-- Timer A only ever adds a request. -/
theorem csmReq_idle_of_timerAStep {p : Params} {g : Global} (h : (timerAStep p g).csmReq = .idle) :
    g.csmReq = .idle := by
  rcases timerAStep_cases p g with e | ⟨-, -, e⟩ | ⟨-, -, e⟩ <;> rw [e] at h
  · exact h
  · exact h
  · dsimp only at h
    split at h
    · nomatch h
    · exact h

/-! ### What the invariant reads -/

/-- The fields of the global record that the invariant reads. -/
def Global.guarded (g : Global) : Nat × Nat × Nat × Int × Nat × CsmReq :=
  (g.egTimer, g.lfoCounter, g.lfa, g.lfp, g.noiseP, g.csmReq)

theorem Global.guarded_eq_iff {g k : Global} :
    k.guarded = g.guarded ↔
      k.egTimer = g.egTimer ∧ k.lfoCounter = g.lfoCounter ∧ k.lfa = g.lfa ∧ k.lfp = g.lfp ∧
        k.noiseP = g.noiseP ∧ k.csmReq = g.csmReq := by
  simp [Global.guarded]

theorem Global.ok_of_guarded {g k : Global} (h : k.guarded = g.guarded) (hg : g.ok) : k.ok := by
  obtain ⟨hegTimer, hlfoCounter, hlfa, hlfp, hnoiseP, hcsmReq⟩ := Global.guarded_eq_iff.1 h
  unfold Global.ok
  rwa [hegTimer, hlfoCounter, hlfa, hlfp, hnoiseP, hcsmReq]

section
variable {s t : State} {c : Chan} {sl : Slot}

/-- Parameters, pending operations and results are nothing to the invariant. -/
theorem inv_of_same (hs : s.Inv) (hop : t.op = s.op) (hch : t.ch = s.ch) (hg : t.g = s.g)
    (hbuffer : t.h.buffer = s.h.buffer) : t.Inv where
  ops := by simpa only [State.opAt, hop] using hs.ops
  chs := by simpa only [State.chAt, hch] using hs.chs
  glob := hg ▸ hs.glob
  buffer := hbuffer ▸ hs.buffer
  csm := by simpa only [State.opAt, hop, hg] using hs.csm

/-! ### One rule per update of the state -/

theorem onOp_inv {f : Operator → Operator} (hs : s.Inv) (hok : (f (s.opAt c sl)).ok)
    (hbit : (f (s.opAt c sl)).key.getLsbD 1 = (s.opAt c sl).key.getLsbD 1) : (onOp c sl f s).Inv where
  ops d k := by
    rw [opAt_onOp]
    split
    · exact hok
    · exact hs.ops d k
  chs := hs.chs
  glob := hs.glob
  buffer := hs.buffer
  csm d k := by
    rw [opAt_onOp]
    split
    · exact hbit.trans (hs.csm c sl)
    · exact hs.csm d k

theorem onCh_inv {f : Channel → Channel} (hs : s.Inv) (hok : (f (s.chAt c)).ok) : (onCh c f s).Inv where
  ops := hs.ops
  chs d := by
    rw [chAt_onCh]
    split
    · exact hok
    · exact hs.chs d
  glob := hs.glob
  buffer := hs.buffer
  csm := hs.csm

theorem onG_inv {f : Global → Global} (hs : s.Inv) (hf : (f s.g).guarded = s.g.guarded) : (onG f s).Inv where
  ops := hs.ops
  chs := hs.chs
  glob := Global.ok_of_guarded hf hs.glob
  buffer := hs.buffer
  csm d k := by
    obtain ⟨-, -, -, -, -, hcsmReq⟩ := Global.guarded_eq_iff.1 hf
    rw [onG_opAt, onG_g, hcsmReq]
    exact hs.csm d k

theorem observe_inv (o : Observation) (hs : s.Inv) : (observe o s).Inv := inv_of_same hs rfl rfl rfl rfl

theorem storePair_inv (n : Nat) (out : Sample × Sample) (hs : s.Inv) : (storePair n out s).Inv where
  ops := hs.ops
  chs := hs.chs
  glob := hs.glob
  buffer := Memory.wf_write _ _ _ (Memory.wf_write _ _ _ hs.buffer)
  csm := hs.csm

/-! ### KON, TCTL and the reset -/

theorem onOp_konOp_inv (cnt : BitVec 32) (kc : BitVec 7) (on : Bool) (hs : s.Inv) :
    (onOp c sl (konOp cnt kc on) s).Inv :=
  onOp_inv hs (konOp_ok cnt kc on (hs.ops c sl)) (konOp_csmBit cnt kc on _)

theorem runTimerA_guarded (p : Params) (run : Bool) (g : Global) : (runTimerA p run g).guarded = g.guarded := by
  unfold runTimerA
  split
  · split <;> rfl
  · rfl

theorem runTimerB_guarded (p : Params) (run : Bool) (g : Global) : (runTimerB p run g).guarded = g.guarded := by
  unfold runTimerB
  split
  · split <;> rfl
  · rfl

theorem execTctl_inv {csm clrB clrA runB runA : Bool} (hs : s.Inv)
    (h : execTctl csm clrB clrA runB runA s = .next t) : t.Inv := by
  obtain ⟨-, rfl⟩ := whenReady_eq_next.1 h
  refine onG_inv hs ?_
  rw [runTimerA_guarded, runTimerB_guarded]
  cases clrA <;> cases clrB <;> rfl

theorem Operator.reset_ok : Operator.reset.ok := by unfold Operator.ok; decide
theorem Channel.reset_ok : Channel.reset.ok := by unfold Channel.ok; decide
theorem Global.reset_ok : Global.reset.ok := by unfold Global.ok; decide

/-- The reset brings every record into range and keeps the frame buffer (70_reset_and_hazards.md R270). -/
theorem resetAll_inv (hbuffer : Memory.wf s.h.buffer = true) : (resetAll s).Inv where
  ops c sl := by rw [resetAll_opAt]; exact Operator.reset_ok
  chs c := by rw [resetAll_chAt]; exact Channel.reset_ok
  glob := Global.reset_ok
  buffer := hbuffer
  csm c sl := by rw [resetAll_opAt]; rfl

/-! ### The tick and the frame -/

theorem egTick_g_ok (hg : s.g.ok) : (egTick s).g.ok := by
  obtain ⟨-, hrest⟩ := hg
  rw [egTick_g]
  exact ⟨Nat.mod_lt _ (by decide), hrest⟩

theorem tick_g_ok (hg : s.g.ok) : (tick s).g.ok := by
  obtain ⟨hegTimer, hlfoCounter, hlfa, hlfp, hnoiseP⟩ := clocks_ok s.params _ (egTick_g_ok hg)
  rw [tick_g]
  exact ⟨hegTimer, hlfoCounter, hlfa, hlfp, hnoiseP, csmNext_ne_keyOnPending _⟩

theorem tick_opAt_ok (hok : (s.opAt c sl).ok) : ((tick s).opAt c sl).ok := by
  have hstep : ((egTick s).opAt c sl).ok := egTick_op_keeps egStep_ok s c sl hok
  rw [tick_opAt]
  exact csmOp_ok _ _ _ hstep

/-- A tick resolves the request it finds, so that the CSM bit is set exactly while a key-off is left pending
(46_timers_csm.md R219). -/
theorem tick_csmBit (hs : s.Inv) :
    ((tick s).opAt c sl).key.getLsbD 1 = decide ((tick s).g.csmReq = .keyOffPending) := by
  rw [tick_opAt, tick_g]
  refine csmOp_csmBit _ _ fun hidle => ?_
  rw [tick_csmReq_resolved] at hidle
  have hbit := hs.csm c sl
  rw [csmReq_idle_of_timerAStep hidle] at hbit
  show ((egTick s).opAt c sl).key.getLsbD 1 = false
  rw [egTick_key, hbit]
  rfl

theorem tick_inv (hs : s.Inv) : (tick s).Inv where
  ops c sl := tick_opAt_ok (hs.ops c sl)
  chs c := by rw [tick_chAt]; exact chanStore_ok _ c _ (hs.chs c)
  glob := tick_g_ok hs.glob
  buffer := by rw [tick_h]; exact hs.buffer
  csm _ _ := tick_csmBit hs

theorem ticks_inv (n : Nat) (hs : s.Inv) : (ticks n s).Inv :=
  iter_keeps (P := State.Inv) (fun _ => tick_inv) n hs

theorem frameFrom_inv (n k : Nat) (hs : s.Inv) : (frameFrom n k s).Inv := by
  induction k generalizing n s with
  | zero => exact hs
  | succ k ih => exact ih (n + 1) (storePair_inv n _ (tick_inv hs))

/-! ### Every operation, every step -/

/-- RST, TICK, RDS, KON and TCTL have their own rules; every other write stores fields that the invariant does not
read (41_register_writes.md R133), or nothing (R118). -/
theorem exec_inv {i : Instr} (hs : s.Inv) (h : exec i s = .next t) : t.Inv := by
  cases i with
  | rst =>
    obtain ⟨-, rfl⟩ := execRst_eq_next.1 h
    exact resetAll_inv hs.buffer
  | tick n =>
    obtain ⟨-, rfl⟩ := whenReady_eq_next.1 h
    exact ticks_inv n hs
  | rds =>
    obtain ⟨-, rfl⟩ := whenReady_eq_next.1 h
    exact observe_inv _ hs
  | kon =>
    obtain ⟨-, rfl⟩ := whenReady_eq_next.1 h
    exact onOp_konOp_inv _ _ _ (onOp_konOp_inv _ _ _ (onOp_konOp_inv _ _ _ (onOp_konOp_inv _ _ _ hs)))
  | tctl => exact execTctl_inv hs h
  | test | noise | clka1 | clka2 | clkb | lfrq | ctw | pmd | amd =>
    obtain ⟨-, rfl⟩ := whenReady_eq_next.1 h
    exact onG_inv hs rfl
  | rlfbcon c | kc c | kf c | pmsams c =>
    obtain ⟨-, rfl⟩ := whenReady_eq_next.1 h
    exact onCh_inv hs (hs.chs c)
  | dt1mul sl c | tl sl c | ksar sl c | amsend1r sl c | dt2d2r sl c | d1lrr sl c =>
    obtain ⟨-, rfl⟩ := whenReady_eq_next.1 h
    exact onOp_inv hs (hs.ops c sl) rfl
  | undef00 | undef02 | undef04 | undef09 | undef0a | undef0c | undef0e | undef13 | undef15 | undef16 | undef1a
  | undef1c =>
    obtain ⟨-, rfl⟩ := whenReady_eq_next.1 h
    exact hs

theorem perform_inv {op : PortOp} (hs : s.Inv) (h : perform op s = .next t) : t.Inv := by
  cases op with
  | word w =>
    cases hw : decode w with
    | ok i => exact exec_inv hs ((perform_word_ok hw).symm.trans h)
    | error e =>
      cases e
      exact nomatch (perform_word_error hw).symm.trans h
  | frame =>
    obtain ⟨-, rfl⟩ := whenReady_eq_next.1 h
    exact frameFrom_inv 0 _ hs
  | init rate fps =>
    obtain ⟨-, -, rfl⟩ := execInit_eq_next.1 h
    exact resetAll_inv hs.buffer

end

/-- Settles O60: the invariant does not read the pending list, so the state a step performs its operation on has it
too, and every operation keeps it. -/
theorem everyStepKeepsTheInvariant : Obligations.EveryStepKeepsTheInvariant := by
  intro s t hs h
  cases hp : s.pending with
  | nil =>
    obtain rfl : s = t := by simpa [step_idle hp] using h
    exact hs
  | cons op rest =>
    have hs' : State.Inv { s with pending := rest } := inv_of_same hs rfl rfl rfl rfl
    exact perform_inv hs' ((step_cons hp).symm.trans h)

end Sys2Proof.Machine

/-! ## Repeated register writes: proof of O22

A write that was performed leaves a state that is a fixed point of the update the same write makes. So each kind of
update gets one rule that says when it leaves a state as it is, and each write with an effect of its own
(20_memory.md R55) gets the fact that its action, repeated, changes nothing. -/

namespace Sys2Proof.Machine

section
variable {s : State} {c : Chan} {sl : Slot}

/-! ### When an update leaves the state as it is -/

theorem onOp_eq_self {f : Operator → Operator} (h : f (s.opAt c sl) = s.opAt c sl) : onOp c sl f s = s := by
  refine State.ext_at (fun d k => ?_) (fun _ => rfl) rfl rfl rfl rfl rfl
  rw [opAt_onOp]
  split
  next hsame =>
    obtain ⟨rfl, rfl⟩ := hsame
    exact h
  next => rfl

theorem onCh_eq_self {f : Channel → Channel} (h : f (s.chAt c) = s.chAt c) : onCh c f s = s := by
  refine State.ext_at (fun _ _ => rfl) (fun d => ?_) rfl rfl rfl rfl rfl
  rw [chAt_onCh]
  split
  next hsame =>
    subst hsame
    exact h
  next => rfl

theorem onG_eq_self {f : Global → Global} (h : f s.g = s.g) : onG f s = s :=
  State.ext_at (fun _ _ => rfl) (fun _ => rfl) h rfl rfl rfl rfl

/-! ### KON: the four operators of a channel -/

/-- The state with the four operators of a channel changed, in the order of their numbers (10_state.md R11). -/
def onFour (c : Chan) (f : Slot → Operator → Operator) (s : State) : State :=
  onOp c .c2 (f .c2) (onOp c .c1 (f .c1) (onOp c .m2 (f .m2) (onOp c .m1 (f .m1) s)))

/-- The bit a KON has for each operator (41_register_writes.md R112). -/
def konBit (m1 c1 m2 c2 : Bool) : Slot → Bool
  | .m1 => m1
  | .m2 => m2
  | .c1 => c1
  | .c2 => c2

theorem execKon_eq (m1 c1 m2 c2 : Bool) (s : State) :
    execKon c m1 c1 m2 c2 s =
      whenReady (.instr (.kon c m1 c1 m2 c2)) s
        (onFour c (fun sl => konOp s.g.egCnt (s.chAt c).kc (konBit m1 c1 m2 c2 sl)) s) := rfl

theorem opAt_onFour (f : Slot → Operator → Operator) (s : State) :
    (onFour c f s).opAt c sl = f sl (s.opAt c sl) := by
  cases sl <;> simp [onFour]

theorem onFour_eq_self {f : Slot → Operator → Operator} (h : ∀ sl, f sl (s.opAt c sl) = s.opAt c sl) :
    onFour c f s = s := by
  unfold onFour
  rw [onOp_eq_self (h .m1), onOp_eq_self (h .m2), onOp_eq_self (h .c1), onOp_eq_self (h .c2)]

end

/-! ### KON: key-on and key-off -/

theorem setKey_setKey (b : KeySource) (k : BitVec 2) : setKey b (setKey b k) = setKey b k := by
  cases b <;> revert k <;> decide

theorem clearKey_clearKey (b : KeySource) (k : BitVec 2) : clearKey b (clearKey b k) = clearKey b k := by
  cases b <;> revert k <;> decide

/-- The first key-on left a key bit set, so that the second finds the operator keyed on and does not restart it
(42_envelope_generator.md R146). -/
theorem keyOn_keyOn (cnt : BitVec 32) (kc : BitVec 7) (b : KeySource) (o : Operator) :
    keyOn cnt kc b (keyOn cnt kc b o) = keyOn cnt kc b o := by
  have hkey := keyOn_key cnt kc b o
  have hheld : (keyOn cnt kc b o).key ≠ 0 := hkey ▸ setKey_ne_zero b o.key
  have hbit : setKey b (keyOn cnt kc b o).key = (keyOn cnt kc b o).key := by rw [hkey, setKey_setKey]
  rw [keyOn_held cnt kc b _ hheld, hbit]

/-- A key-off leaves no operator that is no longer keyed on above Release (42_envelope_generator.md R147). -/
theorem keyOff_not_aboveRelease {b : KeySource} {o : Operator} (h : clearKey b o.key = 0) :
    aboveRelease (keyOff b o).env = false := by
  rcases keyOff_cases b o with ⟨-, -, e⟩ | ⟨hn, e⟩ <;> rw [e]
  · rfl
  · exact Bool.eq_false_of_not_eq_true fun habove => hn ⟨h, habove⟩

theorem keyOff_keyOff (b : KeySource) (o : Operator) : keyOff b (keyOff b o) = keyOff b o := by
  have hbit : clearKey b (keyOff b o).key = (keyOff b o).key := by rw [keyOff_key, clearKey_clearKey]
  rcases keyOff_cases b (keyOff b o) with ⟨hzero, habove, -⟩ | ⟨-, e⟩
  · rw [hbit, keyOff_key] at hzero
    exact absurd habove (by simp [keyOff_not_aboveRelease hzero])
  · rw [e, hbit]

theorem konOp_konOp (cnt : BitVec 32) (kc : BitVec 7) (on : Bool) (o : Operator) :
    konOp cnt kc on (konOp cnt kc on o) = konOp cnt kc on o := by
  cases on with
  | false => exact keyOff_keyOff .kon o
  | true => exact keyOn_keyOn cnt kc .kon o

/-- KON writes neither the EG counter nor the key code, so that its repetition acts on each operator as the first
did. -/
theorem execKon_repeat {c : Chan} {m1 c1 m2 c2 : Bool} {s t : State} (h : execKon c m1 c1 m2 c2 s = .next t) :
    execKon c m1 c1 m2 c2 t = .next t := by
  rw [execKon_eq] at h ⊢
  obtain ⟨hready, rfl⟩ := whenReady_eq_next.1 h
  refine whenReady_eq_next.2 ⟨hready, onFour_eq_self fun sl => ?_⟩
  rw [opAt_onFour]
  exact konOp_konOp _ _ _ _

/-! ### TCTL: the control byte -/

/-- The status bits with those cleared that the clear bits name (41_register_writes.md R117). -/
def clearedStatus (clrB clrA : Bool) (st : BitVec 2) : BitVec 2 :=
  let st := if clrA then st &&& 2#2 else st
  if clrB then st &&& 1#2 else st

theorem clearedStatus_clearedStatus (clrB clrA : Bool) (st : BitVec 2) :
    clearedStatus clrB clrA (clearedStatus clrB clrA st) = clearedStatus clrB clrA st := by
  revert clrB clrA st; decide

/-- What the control byte makes of the global record (41_register_writes.md R117). -/
def controlByte (p : Params) (csm clrB clrA runB runA : Bool) (g : Global) : Global :=
  { g with
    csmEn := csm
    status := clearedStatus clrB clrA g.status
    taRun := runA
    taVal := if runA && !g.taRun then (timATable p g.taIdx.toNat : Int) else g.taVal
    tbRun := runB
    tbVal := if runB && !g.tbRun then (timBTable p g.tbIdx.toNat : Int) else g.tbVal }

theorem runTimerA_eq (p : Params) (run : Bool) (g : Global) :
    runTimerA p run g =
      { g with
        taRun := run
        taVal := if run && !g.taRun then (timATable p g.taIdx.toNat : Int) else g.taVal } := by
  unfold runTimerA
  cases run with
  | false => rfl
  | true =>
    cases g
    rw [if_pos rfl]
    split <;> simp_all

theorem runTimerB_eq (p : Params) (run : Bool) (g : Global) :
    runTimerB p run g =
      { g with
        tbRun := run
        tbVal := if run && !g.tbRun then (timBTable p g.tbIdx.toNat : Int) else g.tbVal } := by
  unfold runTimerB
  cases run with
  | false => rfl
  | true =>
    cases g
    rw [if_pos rfl]
    split <;> simp_all

theorem execTctl_eq (csm clrB clrA runB runA : Bool) (s : State) :
    execTctl csm clrB clrA runB runA s =
      whenReady (.instr (.tctl csm clrB clrA runB runA)) s
        (onG (controlByte s.params csm clrB clrA runB runA) s) := by
  simp only [execTctl, runTimerA_eq, runTimerB_eq]
  cases clrA <;> cases clrB <;> rfl

/-- The repeated control byte finds each timer as its run bit wants it, so that none starts and loads again. -/
theorem controlByte_controlByte (p : Params) (csm clrB clrA runB runA : Bool) (g : Global) :
    controlByte p csm clrB clrA runB runA (controlByte p csm clrB clrA runB runA g) =
      controlByte p csm clrB clrA runB runA g := by
  simp [controlByte, clearedStatus_clearedStatus]

theorem execTctl_repeat {csm clrB clrA runB runA : Bool} {s t : State}
    (h : execTctl csm clrB clrA runB runA s = .next t) : execTctl csm clrB clrA runB runA t = .next t := by
  rw [execTctl_eq] at h ⊢
  obtain ⟨hready, rfl⟩ := whenReady_eq_next.1 h
  exact whenReady_eq_next.2 ⟨hready, onG_eq_self (controlByte_controlByte _ _ _ _ _ _ _)⟩

/-! ### TEST and the two parts of the Timer A index -/

theorem execTest_repeat {v : Byte} {s t : State} (h : execTest v s = .next t) : execTest v t = .next t := by
  obtain ⟨hready, rfl⟩ := whenReady_eq_next.1 h
  refine whenReady_eq_next.2 ⟨hready, onG_eq_self ?_⟩
  cases v.getLsbD 1 <;> simp

theorem taIdxHigh_taIdxHigh (idx : BitVec 10) (hi : BitVec 8) :
    taIdxHigh (taIdxHigh idx hi) hi = taIdxHigh idx hi := by
  apply BitVec.eq_of_toNat_eq
  simp only [taIdxHigh, BitVec.toNat_ofNat]
  omega

theorem taIdxLow_taIdxLow (idx : BitVec 10) (lo : BitVec 2) :
    taIdxLow (taIdxLow idx lo) lo = taIdxLow idx lo := by
  apply BitVec.eq_of_toNat_eq
  simp only [taIdxLow, BitVec.toNat_ofNat]
  omega

theorem execClka1_repeat {hi : BitVec 8} {s t : State} (h : execClka1 hi s = .next t) :
    execClka1 hi t = .next t := by
  obtain ⟨hready, rfl⟩ := whenReady_eq_next.1 h
  refine whenReady_eq_next.2 ⟨hready, onG_eq_self ?_⟩
  simp only [onG_g, taIdxHigh_taIdxHigh]

theorem execClka2_repeat {lo : BitVec 2} {s t : State} (h : execClka2 lo s = .next t) :
    execClka2 lo t = .next t := by
  obtain ⟨hready, rfl⟩ := whenReady_eq_next.1 h
  refine whenReady_eq_next.2 ⟨hready, onG_eq_self ?_⟩
  simp only [onG_g, taIdxLow_taIdxLow]

/-! ### Every write -/

/-- Settles O22: KON, TCTL, TEST and the writes to the Timer A index by their own rules; every other write stores
fields that it does not read (41_register_writes.md R133), or nothing (R118). -/
theorem repeatedWriteChangesNothing : Obligations.RepeatedWriteChangesNothing := by
  intro i s t hwrite h
  cases i with
  | kon => exact execKon_repeat h
  | tctl => exact execTctl_repeat h
  | test => exact execTest_repeat h
  | clka1 => exact execClka1_repeat h
  | clka2 => exact execClka2_repeat h
  | noise | clkb | lfrq | ctw | pmd | amd =>
    obtain ⟨hready, rfl⟩ := whenReady_eq_next.1 h
    exact whenReady_eq_next.2 ⟨hready, onG_eq_self rfl⟩
  | rlfbcon c | kc c | kf c | pmsams c =>
    obtain ⟨hready, rfl⟩ := whenReady_eq_next.1 h
    refine whenReady_eq_next.2 ⟨hready, onCh_eq_self ?_⟩
    rw [chAt_onCh, if_pos rfl]
  | dt1mul sl c | tl sl c | ksar sl c | amsend1r sl c | dt2d2r sl c | d1lrr sl c =>
    obtain ⟨hready, rfl⟩ := whenReady_eq_next.1 h
    refine whenReady_eq_next.2 ⟨hready, onOp_eq_self ?_⟩
    rw [opAt_onOp, if_pos ⟨rfl, rfl⟩]
  | undef00 | undef02 | undef04 | undef09 | undef0a | undef0c | undef0e | undef13 | undef15 | undef16 | undef1a
  | undef1c =>
    obtain ⟨hready, rfl⟩ := whenReady_eq_next.1 h
    exact whenReady_eq_next.2 ⟨hready, rfl⟩
  | rds | tick | rst => nomatch hwrite

end Sys2Proof.Machine

/-! ## Trace words and instructions: proofs of O1, O2, O3, O4, O5

The decoder is read off kind by kind. On the words the encoder writes, it reads back each field where the encoder put
it (O1). On any word, encoding the instruction it reads gives the word with its ignored bits cleared, and so the word
carries the fixed bits of that instruction's row. As no word carries the fixed bits of two rows (O3), a word that
differs in ignored bits only is read as an instruction of the same row with the same encoding, which O1 makes the same
instruction (O4). -/

namespace Sys2Proof

open Machine (isWrite)

/-! ### The decoder, by kind (30_encoding.md R68) -/

section
variable {w : TraceWord}

theorem decode_kind_write (h : w.toNat / 65536 = 0) :
    decode w = .ok (decodeWrite (w.toNat / 256) (w.toNat % 256)) := by
  simp only [decode, h]
  rw [show w.toNat % 65536 = w.toNat by omega]

theorem decode_kind_rds (h : w.toNat / 65536 = 1) :
    decode w = if w.toNat % 65536 = 0 then .ok .rds else .error .payloadNotZero := by
  simp only [decode, h]

theorem decode_kind_tick (h : w.toNat / 65536 = 2) : decode w = .ok (.tick (w.toNat % 65536)) := by
  simp only [decode, h]

theorem decode_kind_rst (h : w.toNat / 65536 = 3) :
    decode w = if w.toNat % 65536 = 0 then .ok .rst else .error .payloadNotZero := by
  simp only [decode, h]

end

theorem isWrite_decodeGlobal (a v : Nat) : isWrite (decodeGlobal a v) = true := by
  fun_cases decodeGlobal a v <;> rfl

theorem isWrite_decodeChannel (a v : Nat) : isWrite (decodeChannel a v) = true := by
  fun_cases decodeChannel a v <;> rfl

theorem isWrite_decodeOperator (a v : Nat) : isWrite (decodeOperator a v) = true := by
  fun_cases decodeOperator a v <;> rfl

theorem isWrite_decodeWrite (a v : Nat) : isWrite (decodeWrite a v) = true := by
  unfold decodeWrite
  split
  · exact isWrite_decodeGlobal a v
  · exact isWrite_decodeChannel a v
  · exact isWrite_decodeOperator a v

/-- Settles O2, by the decoder's equation for each kind. -/
theorem traceWordKindsDecode : Obligations.TraceWordKindsDecode := fun _ =>
  ⟨fun h => ⟨_, decode_kind_write h, isWrite_decodeWrite _ _, decode_kind_write h⟩,
    decode_kind_rds, decode_kind_tick, decode_kind_rst⟩

/-- Settles O5, by decoding each word. -/
theorem sampleWordsDecode : Obligations.SampleWordsDecode := by
  unfold Obligations.SampleWordsDecode
  decide

/-! ### The decoder on the words the encoder writes -/

/-- A field that fills the low bits of a number alone reads as itself. -/
theorem bits_toNat_self {n : Nat} (x : BitVec n) : bits x.toNat 0 n = x :=
  bits_eq _ 0 x (by simp [Nat.mod_eq_of_lt x.isLt])

/-- At 0x19 bit 7 of the value chooses PMD (30_encoding.md R79). -/
theorem decodeGlobal_pmd {v : Nat} (h : v / 2 ^ 7 % 2 = 1) : decodeGlobal 0x19 v = .pmd (bits v 0 7) :=
  if_pos (bit_eq v 7 true h)

theorem decodeGlobal_amd {v : Nat} (h : v / 2 ^ 7 % 2 = 0) : decodeGlobal 0x19 v = .amd (bits v 0 7) :=
  if_neg (Bool.eq_false_iff.1 (bit_eq v 7 false h))

theorem decode_globalWord {a v : Nat} (ha : a < 32) (hv : v < 256) :
    decode (writeWord a v) = .ok (decodeGlobal a v) := by
  rw [decode_writeWord a v (by omega) hv, decodeWrite_global a v ha]

section
variable (sl : Slot) (c : Chan) {v k : Nat} {i : Instr}

/-- The word of a channel register is read at the kind and the channel that its address holds
(30_encoding.md R70). -/
theorem decode_channelWord (hk : k < 4) (hv : v < 256)
    (h : ∀ a, a / 8 % 4 = k → chanAt a 0 = c → decodeChannel a v = i) :
    decode (writeWord (0x20 + 8 * k + c.val) v) = .ok i := by
  rw [decode_writeWord _ v (by omega) hv, decodeWrite_channel _ v (by omega) (by omega),
    h _ (by omega) (chanAt_eq _ 0 c (by omega))]

theorem decode_rlfbcon (hv : v < 256) : decode (writeWord (0x20 + c.val) v) =
    .ok (.rlfbcon c (bit v 7) (bit v 6) (bits v 3 3) (bits v 0 3)) :=
  decode_channelWord c (k := 0) (by decide) hv fun a hk hc => by simp only [decodeChannel, hk, hc]

theorem decode_kc (hv : v < 256) : decode (writeWord (0x28 + c.val) v) = .ok (.kc c (bits v 0 7)) :=
  decode_channelWord c (k := 1) (by decide) hv fun a hk hc => by simp only [decodeChannel, hk, hc]

theorem decode_kf (hv : v < 256) : decode (writeWord (0x30 + c.val) v) = .ok (.kf c (bits v 2 6)) :=
  decode_channelWord c (k := 2) (by decide) hv fun a hk hc => by simp only [decodeChannel, hk, hc]

theorem decode_pmsams (hv : v < 256) : decode (writeWord (0x38 + c.val) v) =
    .ok (.pmsams c (bits v 4 3) (bits v 0 2)) :=
  decode_channelWord c (k := 3) (by decide) hv fun a hk hc => by simp only [decodeChannel, hk, hc]

/-- The word of an operator register is read at the kind, the operator and the channel that its address holds
(30_encoding.md R70). -/
theorem decode_operatorWord (hk : 2 ≤ k) (hk' : k < 8) (hv : v < 256)
    (h : ∀ a, a / 32 = k → slotAt a 3 = sl → chanAt a 0 = c → decodeOperator a v = i) :
    decode (writeWord (operatorAddr (32 * k) sl c) v) = .ok i := by
  have hsl := slotNumber_lt sl
  unfold operatorAddr
  rw [decode_writeWord _ v (by omega) hv, decodeWrite_operator _ v (by omega) (by omega),
    h _ (by omega) (slotAt_eq _ 3 sl (by omega)) (chanAt_eq _ 0 c (by omega))]

theorem decode_dt1mul (hv : v < 256) : decode (writeWord (operatorAddr 0x40 sl c) v) =
    .ok (.dt1mul sl c (bits v 4 3) (bits v 0 4)) :=
  decode_operatorWord sl c (k := 2) (by decide) (by decide) hv fun a hk hsl hc => by
    simp only [decodeOperator, hk, hsl, hc]

theorem decode_tl (hv : v < 256) : decode (writeWord (operatorAddr 0x60 sl c) v) = .ok (.tl sl c (bits v 0 7)) :=
  decode_operatorWord sl c (k := 3) (by decide) (by decide) hv fun a hk hsl hc => by
    simp only [decodeOperator, hk, hsl, hc]

theorem decode_ksar (hv : v < 256) : decode (writeWord (operatorAddr 0x80 sl c) v) =
    .ok (.ksar sl c (bits v 6 2) (bits v 0 5)) :=
  decode_operatorWord sl c (k := 4) (by decide) (by decide) hv fun a hk hsl hc => by
    simp only [decodeOperator, hk, hsl, hc]

theorem decode_amsend1r (hv : v < 256) : decode (writeWord (operatorAddr 0xA0 sl c) v) =
    .ok (.amsend1r sl c (bit v 7) (bits v 0 5)) :=
  decode_operatorWord sl c (k := 5) (by decide) (by decide) hv fun a hk hsl hc => by
    simp only [decodeOperator, hk, hsl, hc]

theorem decode_dt2d2r (hv : v < 256) : decode (writeWord (operatorAddr 0xC0 sl c) v) =
    .ok (.dt2d2r sl c (bits v 6 2) (bits v 0 5)) :=
  decode_operatorWord sl c (k := 6) (by decide) (by decide) hv fun a hk hsl hc => by
    simp only [decodeOperator, hk, hsl, hc]

theorem decode_d1lrr (hv : v < 256) : decode (writeWord (operatorAddr 0xE0 sl c) v) =
    .ok (.d1lrr sl c (bits v 4 4) (bits v 0 4)) :=
  decode_operatorWord sl c (k := 7) (by decide) (by decide) hv fun a hk hsl hc => by
    simp only [decodeOperator, hk, hsl, hc]

end

/-! ### The undefined addresses -/

section
variable (v : Nat)

theorem decodeGlobal_undef02 (a : BitVec 1) : decodeGlobal (0x02 + a.toNat) v = .undef02 a (bits v 0 8) := by
  obtain rfl | rfl := a.eq_zero_or_eq_one <;> rfl

theorem bitVec_two_cases : ∀ a : BitVec 2, a = 0 ∨ a = 1 ∨ a = 2 ∨ a = 3 := by decide

theorem decodeGlobal_undef04 (a : BitVec 2) : decodeGlobal (0x04 + a.toNat) v = .undef04 a (bits v 0 8) := by
  obtain rfl | rfl | rfl | rfl := bitVec_two_cases a <;> rfl

theorem decodeGlobal_undef0a (a : BitVec 1) : decodeGlobal (0x0A + a.toNat) v = .undef0a a (bits v 0 8) := by
  obtain rfl | rfl := a.eq_zero_or_eq_one <;> rfl

theorem decodeGlobal_undef0c (a : BitVec 1) : decodeGlobal (0x0C + a.toNat) v = .undef0c a (bits v 0 8) := by
  obtain rfl | rfl := a.eq_zero_or_eq_one <;> rfl

theorem decodeGlobal_undef16 (a : BitVec 1) : decodeGlobal (0x16 + a.toNat) v = .undef16 a (bits v 0 8) := by
  obtain rfl | rfl := a.eq_zero_or_eq_one <;> rfl

theorem decodeGlobal_undef1c (a : BitVec 2) : decodeGlobal (0x1C + a.toNat) v = .undef1c a (bits v 0 8) := by
  obtain rfl | rfl | rfl | rfl := bitVec_two_cases a <;> rfl

end

/-! ### Every instruction is read back -/

/-- Settles O1, by the constructors: the decoder's equation for the word's address, then each field read at its
place. -/
theorem decodeReadsBackEveryEncodedInstruction : Obligations.DecodeReadsBackEveryEncodedInstruction := by
  intro i hwf
  cases i with
  | test v | clka1 v | clkb v | lfrq v | undef00 v | undef09 v | undef0e v | undef13 v | undef15 v | undef1a v =>
    rw [encode, decode_globalWord (by decide) v.isLt]
    simp only [decodeGlobal, bits_toNat_self]
  | undef02 a v => rw [encode, decode_globalWord (by omega) v.isLt, decodeGlobal_undef02, bits_toNat_self]
  | undef04 a v => rw [encode, decode_globalWord (by omega) v.isLt, decodeGlobal_undef04, bits_toNat_self]
  | undef0a a v => rw [encode, decode_globalWord (by omega) v.isLt, decodeGlobal_undef0a, bits_toNat_self]
  | undef0c a v => rw [encode, decode_globalWord (by omega) v.isLt, decodeGlobal_undef0c, bits_toNat_self]
  | undef16 a v => rw [encode, decode_globalWord (by omega) v.isLt, decodeGlobal_undef16, bits_toNat_self]
  | undef1c a v => rw [encode, decode_globalWord (by omega) v.isLt, decodeGlobal_undef1c, bits_toNat_self]
  | kon ch m1 c1 m2 c2 =>
    have := ofBit_le m1; have := ofBit_le c1; have := ofBit_le m2; have := ofBit_le c2
    rw [encode, decode_globalWord (by decide) (by omega), decodeGlobal, chanAt_eq _ 0 ch, bit_eq _ 3 m1,
      bit_eq _ 4 c1, bit_eq _ 5 m2, bit_eq _ 6 c2] <;> omega
  | noise ne nfrq =>
    have := ofBit_le ne
    rw [encode, decode_globalWord (by decide) (by omega), decodeGlobal, bit_eq _ 7 ne, bits_eq _ 0 nfrq] <;> omega
  | clka2 lo =>
    rw [encode, decode_globalWord (by decide) (by omega), decodeGlobal, bits_toNat_self]
  | tctl csm clrB clrA runB runA =>
    have := ofBit_le csm; have := ofBit_le clrB; have := ofBit_le clrA; have := ofBit_le runB; have := ofBit_le runA
    rw [encode, decode_globalWord (by decide) (by omega), decodeGlobal, bit_eq _ 7 csm, bit_eq _ 5 clrB,
      bit_eq _ 4 clrA, bit_eq _ 1 runB, bit_eq _ 0 runA] <;> omega
  | ctw ct w =>
    rw [encode, decode_globalWord (by decide) (by omega), decodeGlobal, bits_eq _ 6 ct, bits_eq _ 0 w] <;> omega
  | pmd d =>
    rw [encode, decode_globalWord (by decide) (by omega), decodeGlobal_pmd (by omega), bits_eq _ 0 d (by omega)]
  | amd d =>
    rw [encode, decode_globalWord (by decide) (by omega), decodeGlobal_amd (by omega), bits_toNat_self]
  | rlfbcon c panR panL fb con =>
    have := ofBit_le panR; have := ofBit_le panL
    rw [encode, decode_rlfbcon c (by omega), bit_eq _ 7 panR, bit_eq _ 6 panL, bits_eq _ 3 fb,
      bits_eq _ 0 con] <;> omega
  | kc c code => rw [encode, decode_kc c (by omega), bits_eq _ 0 code (by omega)]
  | kf c frac => rw [encode, decode_kf c (by omega), bits_eq _ 2 frac (by omega)]
  | pmsams c pms ams => rw [encode, decode_pmsams c (by omega), bits_eq _ 4 pms, bits_eq _ 0 ams] <;> omega
  | dt1mul sl c dt1 mul => rw [encode, decode_dt1mul sl c (by omega), bits_eq _ 4 dt1, bits_eq _ 0 mul] <;> omega
  | tl sl c level => rw [encode, decode_tl sl c (by omega), bits_eq _ 0 level (by omega)]
  | ksar sl c ks ar => rw [encode, decode_ksar sl c (by omega), bits_eq _ 6 ks, bits_eq _ 0 ar] <;> omega
  | amsend1r sl c amsen d1r =>
    have := ofBit_le amsen
    rw [encode, decode_amsend1r sl c (by omega), bit_eq _ 7 amsen, bits_eq _ 0 d1r] <;> omega
  | dt2d2r sl c dt2 d2r => rw [encode, decode_dt2d2r sl c (by omega), bits_eq _ 6 dt2, bits_eq _ 0 d2r] <;> omega
  | d1lrr sl c d1l rr => rw [encode, decode_d1lrr sl c (by omega), bits_eq _ 4 d1l, bits_eq _ 0 rr] <;> omega
  | rds | rst => decide
  | tick n =>
    have hn : n < 65536 := of_decide_eq_true hwf
    have hw : (encode (.tick n)).toNat = 0x20000 + n := by
      simp only [encode, BitVec.toNat_ofNat]
      omega
    rw [decode_kind_tick (by omega), show (encode (.tick n)).toNat % 65536 = n by omega]

/-! ### The ignored bits of a word (30_encoding.md R73) -/

/-- A number with its bits from `lo` up to, but not including, `hi` cleared. -/
def clearBits (lo hi n : Nat) : Nat := 2 ^ hi * (n / 2 ^ hi) + n % 2 ^ lo

theorem testBit_clearBits {lo hi : Nat} (h : lo ≤ hi) (n i : Nat) :
    (clearBits lo hi n).testBit i = (n.testBit i && decide (i < lo ∨ hi ≤ i)) := by
  have hlow : n % 2 ^ lo < 2 ^ hi :=
    (Nat.mod_lt n (Nat.two_pow_pos lo)).trans_le (Nat.pow_le_pow_right (by decide) h)
  rw [clearBits, Nat.testBit_two_pow_mul_add _ hlow, Nat.testBit_mod_two_pow, Nat.testBit_div_two_pow]
  by_cases hi' : i < hi
  · simp [hi', Nat.not_le.2 hi', Bool.and_comm]
  · simp [hi', Nat.le_of_not_lt hi']

/-- Clearing bits of a word's number is masking the word with all other bits. -/
theorem ofNat_clearBits {lo hi : Nat} (h : lo ≤ hi) (n : Nat) :
    BitVec.ofNat 18 (clearBits lo hi n) = BitVec.ofNat 18 n &&& BitVec.ofNat 18 (clearBits lo hi (2 ^ 18 - 1)) := by
  refine BitVec.eq_of_getLsbD_eq fun i hi18 => ?_
  rw [BitVec.getLsbD_and]
  simp only [BitVec.getLsbD_ofNat, testBit_clearBits h, Nat.testBit_two_pow_sub_one, hi18, decide_true, Bool.true_and]

/-- A number with several runs of bits cleared. -/
def clearRuns (runs : List (Nat × Nat)) (n : Nat) : Nat := runs.foldr (fun r m => clearBits r.1 r.2 m) n

theorem ofNat_clearRuns (runs : List (Nat × Nat)) (h : ∀ r ∈ runs, r.1 ≤ r.2) (n : Nat) :
    BitVec.ofNat 18 (clearRuns runs n) = BitVec.ofNat 18 n &&& BitVec.ofNat 18 (clearRuns runs (2 ^ 18 - 1)) := by
  induction runs with
  | nil => exact BitVec.and_allOnes.symm
  | cons r runs ih =>
    obtain ⟨hr, hruns⟩ := List.forall_mem_cons.1 h
    have hcons (m : Nat) : clearRuns (r :: runs) m = clearBits r.1 r.2 (clearRuns runs m) := rfl
    rw [hcons, hcons, ofNat_clearBits hr, ih hruns, ofNat_clearBits hr (clearRuns runs _), BitVec.and_assoc]

/-- The runs of bits, each from its first up to but not including its second, that the word of an instruction
ignores: those that R71 gives to no field. -/
def ignoredRuns : Instr → List (Nat × Nat)
  | .kon _ _ _ _ _ | .kc _ _ | .dt1mul _ _ _ _ | .tl _ _ _ => [(7, 8)]
  | .noise _ _ | .amsend1r _ _ _ _ => [(5, 7)]
  | .ksar _ _ _ _ | .dt2d2r _ _ _ _ => [(5, 6)]
  | .clka2 _ => [(2, 8)]
  | .ctw _ _ => [(2, 6)]
  | .kf _ _ => [(0, 2)]
  | .tctl _ _ _ _ _ => [(2, 4), (6, 7)]
  | .pmsams _ _ _ => [(2, 4), (7, 8)]
  | _ => []

theorem ignoredRuns_ordered (i : Instr) : ∀ r ∈ ignoredRuns i, r.1 ≤ r.2 := by
  cases i <;> simp only [ignoredRuns] <;> decide

/-- The masks of the opcode table leave out the ignored bits and no others. -/
theorem usedBits_eq (i : Instr) : usedBits i = BitVec.ofNat 18 (clearRuns (ignoredRuns i) (2 ^ 18 - 1)) := by
  cases i <;> simp only [usedBits, rowMask, fieldMask, blockMask, ignoredRuns] <;> decide

/-- The word of the instruction is this word with the bits the instruction does not use cleared. -/
def EncodesUsedBits (w : TraceWord) (i : Instr) : Prop := encode i = w &&& usedBits i

/-- What is to show of one instruction: the number of its word is this number without the ignored runs. -/
theorem encodesUsedBits_of {i : Instr} {m n : Nat} (he : encode i = BitVec.ofNat 18 m)
    (h : m = clearRuns (ignoredRuns i) n) : EncodesUsedBits (BitVec.ofNat 18 n) i := by
  rw [EncodesUsedBits, he, h, ofNat_clearRuns _ (ignoredRuns_ordered i), usedBits_eq]

theorem encodesUsedBits_decodeGlobal {a v : Nat} (ha : a < 32) (hv : v < 256) :
    EncodesUsedBits (writeWord a v) (decodeGlobal a v) := by
  match a, ha with
  | 0x19, _ =>
    rcases Nat.mod_two_eq_zero_or_one (v / 2 ^ 7) with h | h
    · rw [decodeGlobal_amd h]
      refine encodesUsedBits_of rfl ?_
      simp only [ignoredRuns, clearRuns, List.foldr, bits_toNat]
      omega
    · rw [decodeGlobal_pmd h]
      refine encodesUsedBits_of rfl ?_
      simp only [ignoredRuns, clearRuns, List.foldr, bits_toNat]
      omega
  | 0x08, _ | 0x0F, _ | 0x11, _ | 0x14, _ | 0x1B, _ =>
    refine encodesUsedBits_of rfl ?_
    simp only [decodeGlobal, ignoredRuns, clearRuns, List.foldr, clearBits, ofBit_bit, chanAt_val, bits_toNat]
    omega
  | 0x00, _ | 0x01, _ | 0x02, _ | 0x03, _ | 0x04, _ | 0x05, _ | 0x06, _ | 0x07, _ | 0x09, _ | 0x0A, _ | 0x0B, _
  | 0x0C, _ | 0x0D, _ | 0x0E, _ | 0x10, _ | 0x12, _ | 0x13, _ | 0x15, _ | 0x16, _ | 0x17, _ | 0x18, _ | 0x1A, _
  | 0x1C, _ | 0x1D, _ | 0x1E, _ | 0x1F, _ =>
    refine encodesUsedBits_of rfl ?_
    simp only [decodeGlobal, ignoredRuns, clearRuns, List.foldr, bits_toNat]
    omega
  | n + 32, h => exact absurd h (by omega)

theorem encodesUsedBits_decodeChannel {a v : Nat} (ha : 32 ≤ a) (ha' : a < 64) (hv : v < 256) :
    EncodesUsedBits (writeWord a v) (decodeChannel a v) := by
  have hkind : a / 8 % 4 = 0 ∨ a / 8 % 4 = 1 ∨ a / 8 % 4 = 2 ∨ a / 8 % 4 = 3 := by omega
  rcases hkind with h | h | h | h
  all_goals
    simp only [decodeChannel, h]
    refine encodesUsedBits_of rfl ?_
    simp only [ignoredRuns, clearRuns, List.foldr, clearBits, ofBit_bit, chanAt_val, bits_toNat]
    omega

theorem encodesUsedBits_decodeOperator {a v : Nat} (ha : 64 ≤ a) (ha' : a < 256) (hv : v < 256) :
    EncodesUsedBits (writeWord a v) (decodeOperator a v) := by
  have hkind : a / 32 = 2 ∨ a / 32 = 3 ∨ a / 32 = 4 ∨ a / 32 = 5 ∨ a / 32 = 6 ∨ a / 32 = 7 := by omega
  rcases hkind with h | h | h | h | h | h
  all_goals
    simp only [decodeOperator, h]
    refine encodesUsedBits_of rfl ?_
    simp only [ignoredRuns, clearRuns, List.foldr, clearBits, operatorAddr, slotNumber_slotAt, ofBit_bit, chanAt_val,
      bits_toNat]
    omega

theorem encodesUsedBits_decodeWrite {a v : Nat} (ha : a < 256) (hv : v < 256) :
    EncodesUsedBits (writeWord a v) (decodeWrite a v) := by
  by_cases h32 : a < 32
  · rw [decodeWrite_global a v h32]
    exact encodesUsedBits_decodeGlobal h32 hv
  by_cases h64 : a < 64
  · rw [decodeWrite_channel a v (by omega) h64]
    exact encodesUsedBits_decodeChannel (by omega) h64 hv
  · rw [decodeWrite_operator a v (by omega) ha]
    exact encodesUsedBits_decodeOperator (by omega) ha hv

/-- What a word that decodes can be: the word of a register write, or of RDS, TICK or RST. -/
theorem decode_eq_ok {w : TraceWord} {i : Instr} (h : decode w = .ok i) :
    (∃ a v, a < 256 ∧ v < 256 ∧ w = writeWord a v ∧ i = decodeWrite a v) ∨
      (isWrite i = false ∧ i.wellFormed = true ∧ w = encode i) := by
  have hkind : w.toNat / 65536 = 0 ∨ w.toNat / 65536 = 1 ∨ w.toNat / 65536 = 2 ∨ w.toNat / 65536 = 3 := by omega
  rcases hkind with hk | hk | hk | hk
  · rw [decode_kind_write hk] at h
    refine .inl ⟨w.toNat / 256, w.toNat % 256, by omega, by omega, BitVec.eq_of_toNat_eq ?_, (Except.ok.inj h).symm⟩
    rw [writeWord_toNat _ _ (by omega) (by omega)]
    omega
  · rw [decode_kind_rds hk] at h
    split at h
    · cases h
      refine .inr ⟨rfl, rfl, BitVec.eq_of_toNat_eq ?_⟩
      show w.toNat = 0x10000
      omega
    · cases h
  · rw [decode_kind_tick hk] at h
    cases h
    refine .inr ⟨rfl, decide_eq_true (by omega), BitVec.eq_of_toNat_eq ?_⟩
    simp only [encode, BitVec.toNat_ofNat]
    omega
  · rw [decode_kind_rst hk] at h
    split at h
    · cases h
      refine .inr ⟨rfl, rfl, BitVec.eq_of_toNat_eq ?_⟩
      show w.toNat = 0x30000
      omega
    · cases h

theorem wellFormed_of_isWrite {i : Instr} (h : isWrite i = true) : i.wellFormed = true := by
  cases i with
  | rds | tick | rst => nomatch h
  | _ => rfl

theorem wellFormed_of_decode {w : TraceWord} {i : Instr} (h : decode w = .ok i) : i.wellFormed = true := by
  obtain ⟨a, v, -, -, -, rfl⟩ | ⟨-, hwf, -⟩ := decode_eq_ok h
  · exact wellFormed_of_isWrite (isWrite_decodeWrite a v)
  · exact hwf

theorem usedBits_of_not_isWrite {i : Instr} (h : isWrite i = false) : usedBits i = BitVec.allOnes 18 := by
  cases i with
  | rds | tick | rst => exact usedBits_eq _
  | _ => nomatch h

/-- Encoding what a word decodes to gives the word with its ignored bits cleared. -/
theorem encodesUsedBits_of_decode {w : TraceWord} {i : Instr} (h : decode w = .ok i) : EncodesUsedBits w i := by
  obtain ⟨a, v, ha, hv, rfl, rfl⟩ | ⟨hnot, -, rfl⟩ := decode_eq_ok h
  · exact encodesUsedBits_decodeWrite ha hv
  · rw [EncodesUsedBits, usedBits_of_not_isWrite hnot, BitVec.and_allOnes]

/-! ### The rows of the opcode table -/

/-- A row of the opcode table: the bits it fixes, their values, and the bits its instructions use. -/
structure OpcodeRow where
  mask : TraceWord
  fixed : TraceWord
  used : TraceWord

/-- The row of an instruction. -/
def opcodeRow (i : Instr) : OpcodeRow := ⟨rowMask i, rowMatch i, usedBits i⟩

/-- The rows of the opcode table, each of some instruction of it, in the order of the constructors. -/
def opcodeRows : List OpcodeRow :=
  [.test 0, .kon 0 false false false false, .noise false 0, .clka1 0, .clka2 0, .clkb 0,
    .tctl false false false false false, .lfrq 0, .ctw 0 0, .pmd 0, .amd 0, .rlfbcon 0 false false 0 0, .kc 0 0,
    .kf 0 0, .pmsams 0 0 0, .dt1mul .m1 0 0 0, .tl .m1 0 0, .ksar .m1 0 0 0, .amsend1r .m1 0 false 0,
    .dt2d2r .m1 0 0 0, .d1lrr .m1 0 0 0, .undef00 0, .undef02 0 0, .undef04 0 0, .undef09 0, .undef0a 0 0,
    .undef0c 0 0, .undef0e 0, .undef13 0, .undef15 0, .undef16 0 0, .undef1a 0, .undef1c 0 0, .rds, .tick 0,
    .rst].map opcodeRow

theorem opcodeRow_mem (i : Instr) : opcodeRow i ∈ opcodeRows :=
  List.mem_of_getElem? (i := i.ctorIdx) (by cases i <;> rfl)

/-- Two rows that no word carries both: they fix some bit to two values. -/
def RowsApart (r r' : OpcodeRow) : Prop := r.fixed &&& r'.mask ≠ r'.fixed &&& r.mask

theorem opcodeRows_apart : opcodeRows.Pairwise RowsApart := by
  unfold RowsApart
  decide

/-- A word that carries the fixed bits of two rows: they are one row (30_encoding.md R74, R79). -/
theorem opcodeRow_eq_of_match {w : TraceWord} {i j : Instr} (hi : w &&& rowMask i = rowMatch i)
    (hj : w &&& rowMask j = rowMatch j) : opcodeRow i = opcodeRow j := by
  have : Std.Symm RowsApart := ⟨fun _ _ h => h.symm⟩
  by_contra hne
  have hapart : rowMatch i &&& rowMask j ≠ rowMatch j &&& rowMask i :=
    opcodeRows_apart.forall (opcodeRow_mem i) (opcodeRow_mem j) hne
  refine hapart ?_
  rw [← hi, ← hj, BitVec.and_assoc, BitVec.and_assoc, BitVec.and_comm (rowMask i)]

open Laws.EncodeRow in
/-- The word of every instruction carries the fixed bits of its row. -/
theorem encode_carries_row (i : Instr) : encode i &&& rowMask i = rowMatch i := by
  cases i
  exacts [test _, kon _ _ _ _ _, noise _ _, clka1 _, clka2 _, clkb _, tctl _ _ _ _ _, lfrq _, ctw _ _, pmd _, amd _,
    rlfbcon _ _ _ _ _, kc _ _, kf _ _, pmsams _ _ _, dt1mul _ _ _ _, tl _ _ _, ksar _ _ _ _, amsend1r _ _ _ _,
    dt2d2r _ _ _ _, d1lrr _ _ _ _, undef00 _, undef02 _ _, undef04 _ _, undef09 _, undef0a _ _, undef0c _ _,
    undef0e _, undef13 _, undef15 _, undef16 _ _, undef1a _, undef1c _ _, rds, tick _, rst]

theorem usedBits_and_rowMask (i : Instr) : usedBits i &&& rowMask i = rowMask i := by
  unfold usedBits
  grind

/-- Words that agree on the bits an instruction uses agree on the bits its row fixes. -/
theorem and_rowMask_of_usedBits {i : Instr} {x w : TraceWord} (h : x &&& usedBits i = w &&& usedBits i) :
    x &&& rowMask i = w &&& rowMask i := by
  rw [← usedBits_and_rowMask, ← BitVec.and_assoc, h, BitVec.and_assoc]

/-- A word carries the fixed bits of the row of the instruction it decodes to. -/
theorem decode_carries_row {w : TraceWord} {i : Instr} (h : decode w = .ok i) : w &&& rowMask i = rowMatch i := by
  have he : encode i = w &&& usedBits i := encodesUsedBits_of_decode h
  rw [← encode_carries_row i, he, BitVec.and_assoc, usedBits_and_rowMask]

/-- Settles O3: a word carries the fixed bits of the row it decodes to, and rows a word carries both of are one. -/
theorem decodeFollowsTheOpcodeTable : Obligations.DecodeFollowsTheOpcodeTable := by
  intro w i j h
  have hj := decode_carries_row h
  constructor
  · intro hi
    have hrow := opcodeRow_eq_of_match hi hj
    exact ⟨congrArg OpcodeRow.mask hrow, congrArg OpcodeRow.fixed hrow⟩
  · rintro ⟨hmask, hmatch⟩
    rw [hmask, hmatch, hj]

/-! ### Words that differ in ignored bits only -/

theorem rowMask_fixes_kind (i : Instr) :
    rowMask i &&& BitVec.ofNat 18 (2 ^ 18 - 2 ^ 16) = BitVec.ofNat 18 (2 ^ 18 - 2 ^ 16) := by
  cases i <;> simp only [rowMask] <;> decide

/-- Every row fixes the kind of its words (30_encoding.md R68, R74). -/
theorem kind_eq_of_rowMask {i : Instr} {x w : TraceWord} (h : x &&& rowMask i = w &&& rowMask i) :
    x.toNat / 65536 = w.toNat / 65536 := by
  have hkind : x &&& BitVec.ofNat 18 (2 ^ 18 - 2 ^ 16) = w &&& BitVec.ofNat 18 (2 ^ 18 - 2 ^ 16) := by
    rw [← rowMask_fixes_kind i, ← BitVec.and_assoc, h, BitVec.and_assoc]
  rw [Laws.high_bits x 16 _ (by decide) rfl, Laws.high_bits w 16 _ (by decide) rfl] at hkind
  have hnum := congrArg BitVec.toNat hkind
  simp only [BitVec.toNat_ofNat] at hnum
  omega

/-- Ignored bits never make a word invalid. -/
theorem decode_of_same_usedBits {w x : TraceWord} {i : Instr} (h : decode w = .ok i)
    (hx : x &&& usedBits i = w &&& usedBits i) : ∃ j, decode x = .ok j := by
  obtain ⟨a, v, ha, hv, rfl, rfl⟩ | ⟨hnot, -, -⟩ := decode_eq_ok h
  · have hkind : x.toNat / 65536 = 0 := by
      rw [kind_eq_of_rowMask (and_rowMask_of_usedBits hx), writeWord_toNat a v ha hv]
      omega
    exact ⟨_, decode_kind_write hkind⟩
  · rw [usedBits_of_not_isWrite hnot, BitVec.and_allOnes, BitVec.and_allOnes] at hx
    exact ⟨i, hx ▸ h⟩

/-- Settles O4: the other word decodes to an instruction of the same row, whose encoding is the same; reading it back
gives the same instruction. -/
theorem ignoredBitsHaveNoEffect : Obligations.IgnoredBitsHaveNoEffect := by
  intro w i h
  have hi : encode i = w &&& usedBits i := encodesUsedBits_of_decode h
  refine ⟨hi, fun x hx => ?_⟩
  obtain ⟨j, hj⟩ := decode_of_same_usedBits h hx
  have hrow : opcodeRow j = opcodeRow i := opcodeRow_eq_of_match (decode_carries_row hj)
    ((and_rowMask_of_usedBits hx).trans (decode_carries_row h))
  have hused : usedBits j = usedBits i := congrArg OpcodeRow.used hrow
  have hsame : encode j = encode i :=
    calc encode j = x &&& usedBits j := encodesUsedBits_of_decode hj
      _ = w &&& usedBits i := by rw [hused, hx]
      _ = encode i := hi.symm
  have hread : decode (encode i) = .ok i :=
    decodeReadsBackEveryEncodedInstruction i (wellFormed_of_decode h)
  have hread' : decode (encode j) = .ok j :=
    decodeReadsBackEveryEncodedInstruction j (wellFormed_of_decode hj)
  rw [hj, ← hread', hsame, hread]

end Sys2Proof

/-! ## The attenuation and sine tables: proof of O40

Entry `2 * x + 512 * i` of `T.tl` is row entry `x` halved `i` times, and the entry after an even one is its negation.
The sine table is even over its first half and one larger half a table on, so the two lookups of opposite phases read
two neighbouring entries of `T.tl`. -/

namespace Sys2Proof.Machine

/-! ### The first tier of the attenuation table (40_tables.md R86, on integers) -/

section
variable {x m : Nat}

/-- The root comparison of R86 orders the roots: what lies at most at a bound is below what lies above it. -/
theorem lt_of_pow_mul_le_of_lt {a b n p bound : Nat} (ha : a ^ n * p ≤ bound) (hb : bound < b ^ n * p) : a < b :=
  lt_of_pow_lt_pow_left₀ n (Nat.zero_le b) (lt_of_mul_lt_mul_right (ha.trans_lt hb) (Nat.zero_le p))

/-- `r` is `4` times a whole number `q`, and `65536 / 2^((x+1)/256)` is at least `16 * (2 * q - 1)` and less than
`16 * (2 * q + 1)`: the interval that the roundings of R86 send to `q`. -/
def RoundsTo (x r : Nat) : Prop :=
  r % 4 = 0 ∧ (8 * r - 16) ^ 256 * 2 ^ (x + 1) ≤ 65536 ^ 256 ∧ 65536 ^ 256 < (8 * r + 16) ^ 256 * 2 ^ (x + 1)

/-- The literal entries of 48_table_values.md R290 are those of the formula. -/
theorem tlRows_roundsTo : ∀ x < 256, RoundsTo x (rowLookup tlRows x) := by
  unfold RoundsTo
  decide +kernel

/-- The roundings of R86 on the floor `m` of the root give the entry. -/
theorem eq_of_roundsTo {r : Nat} (hr : RoundsTo x r) (hle : m ^ 256 * 2 ^ (x + 1) ≤ 65536 ^ 256)
    (hlt : 65536 ^ 256 < (m + 1) ^ 256 * 2 ^ (x + 1)) : r = 4 * ((m / 16 + 1) / 2) := by
  obtain ⟨hfour, hlow, hhigh⟩ := hr
  have hbelow : 8 * r - 16 < m + 1 := lt_of_pow_mul_le_of_lt hlow hlt
  have habove : m < 8 * r + 16 := lt_of_pow_mul_le_of_lt hle hhigh
  omega

/-! ### The tiers and the signs (40_tables.md R87) -/

theorem tlTable_tier (hx : x < 256) (i : Nat) :
    tlTable (2 * x + 512 * i) = ((rowLookup tlRows x / 2 ^ i : Nat) : Int) := by
  have hstep : (2 * x + 512 * i) % 512 / 2 = x := by omega
  have htier : (2 * x + 512 * i) / 512 = i := by omega
  have heven : (2 * x + 512 * i) % 2 = 0 := by omega
  simp only [tlTable, hstep, htier, heven, if_true, Nat.shiftRight_eq_div_pow]

theorem tlTable_first (hx : x < 256) : tlTable (2 * x) = (rowLookup tlRows x : Int) := by
  simpa using tlTable_tier hx 0

theorem tlTable_tier_eq_div (hx : x < 256) (i : Nat) : tlTable (2 * x + 512 * i) = tlTable (2 * x) / 2 ^ i := by
  rw [tlTable_tier hx, tlTable_first hx]
  norm_cast

/-- The odd entry after an even one is of the same tier and step, with the sign turned. -/
theorem tlTable_succ {p : Nat} (hp : p % 2 = 0) : tlTable (p + 1) = -tlTable p := by
  have hstep : (p + 1) % 512 / 2 = p % 512 / 2 := by omega
  have htier : (p + 1) / 512 = p / 512 := by omega
  have hodd : ¬ (p + 1) % 2 = 0 := by omega
  simp only [tlTable, hstep, htier, hp, hodd, if_true, if_false]

end

/-! ### The sine table and the two half waves (40_tables.md R88, 45_mixer.md R192) -/

section
variable {k : Nat}

theorem getD_of_forall {α : Type} {P : α → Prop} {l : List α} {d : α} (h : ∀ x ∈ l, P x) (hd : P d) (i : Nat) :
    P (l.getD i d) := by
  by_cases hi : i < l.length
  · rw [List.getD_eq_getElem _ _ hi]; exact h _ (List.getElem_mem hi)
  · rwa [List.getD_eq_default _ _ (by omega)]

/-- What holds of every number in a table's rows, and of the default 0, holds of every entry looked up. -/
theorem rowLookup_of_forall {P : Nat → Prop} {rows : List (List Nat)} (h : ∀ r ∈ rows, ∀ x ∈ r, P x) (h0 : P 0)
    (i : Nat) : P (rowLookup rows i) :=
  getD_of_forall (getD_of_forall (P := fun r => ∀ x ∈ r, P x) h (by simp) (i / 16)) h0 (i % 16)

theorem sinRows_even : ∀ r ∈ sinRows, ∀ x ∈ r, x % 2 = 0 := by decide

theorem sinTable_of_lt (hk : k < 512) :
    sinTable k = rowLookup sinRows (if k < 256 then k else 511 - k) := by
  have hhalf : k % 512 = k := by omega
  have hsign : k / 512 = 0 := by omega
  simp only [sinTable, hhalf, hsign, Nat.add_zero]

theorem sinTable_add_half (hk : k < 512) : sinTable (k + 512) = sinTable k + 1 := by
  have hhalf : (k + 512) % 512 = k := by omega
  have hsign : (k + 512) / 512 = 1 := by omega
  rw [sinTable_of_lt hk]
  simp only [sinTable, hhalf, hsign]

theorem sinTable_even (hk : k < 512) : sinTable k % 2 = 0 := by
  rw [sinTable_of_lt hk]
  exact rowLookup_of_forall (P := fun x => x % 2 = 0) sinRows_even rfl _

/-- Both quarters of the first half fold to the same step. -/
theorem sinTable_mirror (hk : k < 512) : sinTable (511 - k) = sinTable k := by
  rw [sinTable_of_lt hk, sinTable_of_lt (by omega)]
  congr 1
  split <;> split <;> omega

/-- Half a table on, the position in the attenuation table is the odd one after an even one: the table's length is
even, so both are past its end or neither is. -/
theorem lookup_add_half (e : Nat) (hk : k < 512) : lookup e (k + 512) = -lookup e k := by
  have hpos : (e <<< 3) + sinTable (k + 512) = (e <<< 3) + sinTable k + 1 := by rw [sinTable_add_half hk, Nat.add_assoc]
  have heven : ((e <<< 3) + sinTable k) % 2 = 0 := by
    have hsin := sinTable_even hk
    rw [Nat.shiftLeft_eq]
    omega
  simp only [lookup, hpos]
  generalize (e <<< 3) + sinTable k = p at heven ⊢
  have hend : p + 1 ≥ tlTabLen ↔ p ≥ tlTabLen := by
    unfold tlTabLen
    omega
  by_cases hp : p ≥ tlTabLen
  · rw [if_pos (hend.mpr hp), if_pos hp, neg_zero]
  · rw [if_neg (mt hend.mp hp), if_neg hp, tlTable_succ heven]

end

/-- Settles O40: the literal first tier lies where R86's roundings put it, each tier and sign follows from the position
in the table, and a lookup half a wave on reads the neighbouring entry. -/
theorem sineHalfWavesAreOpposite : Obligations.SineHalfWavesAreOpposite := by
  refine ⟨⟨tlTable_first (x := 0) (by decide), tlTable_first (x := 255) (by decide), ?_⟩, ?_, ?_⟩
  · intro x m hx hle hlt
    rw [tlTable_first hx, eq_of_roundsTo (tlRows_roundsTo x hx) hle hlt]
    exact Nat.cast_mul 4 _
  · intro x i hx _
    have hodd : 2 * x + 1 + 512 * i = 2 * x + 512 * i + 1 := by omega
    rw [hodd, tlTable_succ (by omega), tlTable_tier_eq_div hx]
    exact ⟨rfl, rfl⟩
  · intro e k hk
    exact ⟨sinTable_add_half hk, sinTable_even hk, sinTable_mirror hk, lookup_add_half e hk⟩

end Sys2Proof.Machine

/-! ## Register writes and what only they change: proofs of O13 to O21, O53

A register write is one guarded update of one record. Its word is read back field by field at the places
30_encoding.md R71 gives; its effect is the rule of its update: what the record then holds and what the rest of the
state keeps. -/

namespace Sys2Proof.Machine

/-! ### Ticks and the fields that only writes change -/

/-- The results of `t` are those of `s` and `n` newer ones, each a sample pair. -/
def recordsPairs (n : Nat) (s t : State) : Prop :=
  ∃ l, t.observed = l ++ s.observed ∧ l.length = n ∧ ∀ o ∈ l, ∃ x y, o = .sample x y

theorem ticks_recordsPairs (n : Nat) (s : State) : recordsPairs n s (ticks n s) := by
  induction n with
  | zero => exact ⟨[], rfl, rfl, by simp⟩
  | succ n ih =>
    obtain ⟨l, hl, hlen, hpairs⟩ := ih
    refine ⟨.sample (tickSample (ticks n s)).1 (tickSample (ticks n s)).2 :: l, ?_, congrArg (· + 1) hlen,
      List.forall_mem_cons.2 ⟨⟨_, _, rfl⟩, hpairs⟩⟩
    rw [ticks_succ_last, tick_observed, hl, List.cons_append]

section
variable (n : Nat) (s : State)

theorem ticks_op_programmed (c : Chan) (sl : Slot) :
    ((ticks n s).opAt c sl).programmed = (s.opAt c sl).programmed :=
  iter_frame (view := fun t : State => (t.opAt c sl).programmed) (fun t => tick_op_programmed t c sl) n s

theorem ticks_ch_programmed (c : Chan) : ((ticks n s).chAt c).programmed = (s.chAt c).programmed :=
  iter_frame (view := fun t : State => (t.chAt c).programmed) (fun t => tick_ch_programmed t c) n s

theorem ticks_g_programmed : (ticks n s).g.programmed = s.g.programmed :=
  iter_frame (view := fun t : State => t.g.programmed) tick_g_programmed n s

end

/-- Settles O53: what one tick keeps, any number of ticks keeps, and each tick adds its pair to the results. -/
theorem ticksKeepWhatOnlyWritesChange : Obligations.TicksKeepWhatOnlyWritesChange := fun n s hready =>
  ⟨ticks n s, whenReady_ready hready, ticks_op_programmed n s, ticks_ch_programmed n s, ticks_g_programmed n s,
    ticks_h n s, ticks_params n s, ticks_pending n s, ticks_recordsPairs n s⟩

/-! ### The fields of a written value (00_scope.md R4, 30_encoding.md R71) -/

section
variable {w : Nat} (v : BitVec w)

theorem bits_toNat_eq_extractLsb' (lo n : Nat) : bits v.toNat lo n = v.extractLsb' lo n :=
  bits_eq _ lo _ (by rw [BitVec.extractLsb'_toNat, Nat.shiftRight_eq_div_pow])

theorem bit_toNat_eq_getLsbD (i : Nat) : bit v.toNat i = v.getLsbD i := by
  rw [BitVec.getLsbD, Nat.testBit_eq_decide_div_mod_eq]
  exact Bool.beq_eq_decide_eq _ _

theorem chanAt_toNat_eq_extractLsb' (lo : Nat) : chanAt v.toNat lo = (v.extractLsb' lo 3).toFin :=
  congrArg BitVec.toFin (bits_toNat_eq_extractLsb' v lo 3)

end

/-! ### The words of the global registers -/

section
variable (v : Byte)

theorem decode_konByte : decode (writeWord 0x08 v.toNat) =
    .ok (.kon (v.extractLsb' 0 3).toFin (v.getLsbD 3) (v.getLsbD 4) (v.getLsbD 5) (v.getLsbD 6)) := by
  rw [decode_globalWord (by decide) v.isLt]
  simp only [decodeGlobal, chanAt_toNat_eq_extractLsb', bit_toNat_eq_getLsbD]

theorem decode_noiseByte : decode (writeWord 0x0F v.toNat) = .ok (.noise (v.getLsbD 7) (v.extractLsb' 0 5)) := by
  rw [decode_globalWord (by decide) v.isLt]
  simp only [decodeGlobal, bit_toNat_eq_getLsbD, bits_toNat_eq_extractLsb']

theorem decode_clka2Byte : decode (writeWord 0x11 v.toNat) = .ok (.clka2 (v.extractLsb' 0 2)) := by
  rw [decode_globalWord (by decide) v.isLt]
  simp only [decodeGlobal, bits_toNat_eq_extractLsb']

theorem decode_tctlByte : decode (writeWord 0x14 v.toNat) =
    .ok (.tctl (v.getLsbD 7) (v.getLsbD 5) (v.getLsbD 4) (v.getLsbD 1) (v.getLsbD 0)) := by
  rw [decode_globalWord (by decide) v.isLt]
  simp only [decodeGlobal, bit_toNat_eq_getLsbD]

/-- The two registers at 0x19 (30_encoding.md R79). -/
theorem decode_depthByte : decode (writeWord 0x19 v.toNat) =
    .ok (if v.getLsbD 7 then .pmd (v.extractLsb' 0 7) else .amd (v.extractLsb' 0 7)) := by
  rw [decode_globalWord (by decide) v.isLt]
  simp only [decodeGlobal, bit_toNat_eq_getLsbD, bits_toNat_eq_extractLsb']

theorem decode_ctwByte : decode (writeWord 0x1B v.toNat) = .ok (.ctw (v.extractLsb' 6 2) (v.extractLsb' 0 2)) := by
  rw [decode_globalWord (by decide) v.isLt]
  simp only [decodeGlobal, bits_toNat_eq_extractLsb']

end

/-! ### The undefined addresses -/

/-- The addresses that no register has (41_register_writes.md R118). -/
def undefinedAddrs : List Nat :=
  [0x00, 0x02, 0x03, 0x04, 0x05, 0x06, 0x07, 0x09, 0x0A, 0x0B, 0x0C, 0x0D, 0x0E, 0x13, 0x15, 0x16, 0x17, 0x1A, 0x1C,
    0x1D, 0x1E, 0x1F]

theorem lt_of_mem_undefinedAddrs : ∀ a ∈ undefinedAddrs, a < 32 := by decide

theorem noRegister_ready {s : State} (hready : s.h.ready = true) (i : Instr) : noRegister i s = .next s :=
  whenReady_ready hready

theorem exec_decodeGlobal_undefined {s : State} (hready : s.h.ready = true) (v : Nat) :
    ∀ a ∈ undefinedAddrs, exec (decodeGlobal a v) s = .next s := by
  intro a ha
  unfold undefinedAddrs at ha
  fin_cases ha <;> exact noRegister_ready hready _

/-- Settles O13: no undefined address has a register, and a write to one is read as an instruction for one. -/
theorem undefinedAddressWritesDoNothing : Obligations.UndefinedAddressWritesDoNothing := by
  intro s hready
  have hnone := noRegister_ready hready
  refine ⟨fun _ => hnone _, fun _ _ => hnone _, fun _ _ => hnone _, fun _ => hnone _, fun _ _ => hnone _,
    fun _ _ => hnone _, fun _ => hnone _, fun _ => hnone _, fun _ => hnone _, fun _ _ => hnone _, fun _ => hnone _,
    fun _ _ => hnone _, fun a ha v => ⟨decodeGlobal a v.toNat, ?_, exec_decodeGlobal_undefined hready _ a ha⟩⟩
  exact decode_globalWord (lt_of_mem_undefinedAddrs a ha) v.isLt

/-! ### TEST -/

/-- Settles O14: the word is the one the encoder writes, and the write is one update of the global record. -/
theorem testWriteStoresItsByteAndClearsTheLfoPhase : Obligations.TestWriteStoresItsByteAndClearsTheLfoPhase :=
  fun v _ hready => ⟨decodeReadsBackEveryEncodedInstruction (.test v) rfl, whenReady_ready hready⟩

/-! ### KON -/

theorem onFour_onlyOperatorsOf (c : Chan) (f : Slot → Operator → Operator) (s : State) :
    onlyOperatorsOf c s (onFour c f s) := by
  refine ⟨fun d k hd => ?_, rfl, rfl, rfl, rfl, rfl, rfl⟩
  simp [onFour, hd]

/-- Settles O15: each operator of the channel gets the action of its own bit, and the others none. -/
theorem konKeysTheFourOperatorsOfItsChannel : Obligations.KonKeysTheFourOperatorsOfItsChannel := by
  refine ⟨decode_konByte, fun c m1 c1 m2 c2 s hready => ?_⟩
  rw [show exec (.kon c m1 c1 m2 c2) s = _ from execKon_eq m1 c1 m2 c2 s, whenReady_ready hready]
  refine ⟨_, rfl, onFour_onlyOperatorsOf c _ s, fun sl on hmem => ?_⟩
  have hon : on = konBit m1 c1 m2 c2 sl := by
    simp only [List.mem_cons, Prod.mk.injEq, List.not_mem_nil, or_false] at hmem
    obtain ⟨rfl, rfl⟩ | ⟨rfl, rfl⟩ | ⟨rfl, rfl⟩ | ⟨rfl, rfl⟩ := hmem <;> rfl
  rw [opAt_onFour, hon, konOp]

/-! ### The timer indices -/

theorem taIdxHigh_eq_append (idx : BitVec 10) (hi : BitVec 8) : taIdxHigh idx hi = hi ++ idx.extractLsb' 0 2 := by
  apply BitVec.eq_of_toNat_eq
  rw [BitVec.toNat_append, BitVec.extractLsb'_toNat, ← Nat.shiftLeft_add_eq_or_of_lt (Nat.mod_lt _ (by decide))]
  simp only [taIdxHigh, BitVec.toNat_ofNat, Nat.shiftLeft_eq, Nat.shiftRight_zero]
  omega

theorem taIdxLow_eq_append (idx : BitVec 10) (lo : BitVec 2) : taIdxLow idx lo = idx.extractLsb' 2 8 ++ lo := by
  apply BitVec.eq_of_toNat_eq
  rw [BitVec.toNat_append, BitVec.extractLsb'_toNat, ← Nat.shiftLeft_add_eq_or_of_lt lo.isLt]
  simp only [taIdxLow, BitVec.toNat_ofNat, Nat.shiftLeft_eq, Nat.shiftRight_eq_div_pow]
  omega

/-- Settles O16: the two parts of the Timer A index are put together as bit strings. -/
theorem timerIndexWritesReplaceTheirBits : Obligations.TimerIndexWritesReplaceTheirBits := by
  intro v hi lo s hready
  rw [← taIdxHigh_eq_append, ← taIdxLow_eq_append]
  exact ⟨decodeReadsBackEveryEncodedInstruction (.clka1 v) rfl, decode_clka2Byte v, whenReady_ready hready,
    whenReady_ready hready, decodeReadsBackEveryEncodedInstruction (.clkb v) rfl, whenReady_ready hready⟩

/-! ### TCTL -/

theorem onG_onlyGlobal (f : Global → Global) (s : State) : onlyGlobal s (onG f s) := ⟨rfl, rfl, rfl, rfl, rfl, rfl⟩

theorem clearedStatus_bitA (clrB clrA : Bool) (st : BitVec 2) :
    (clearedStatus clrB clrA st).getLsbD 0 = (st.getLsbD 0 && !clrA) := by
  revert clrB clrA st; decide

theorem clearedStatus_bitB (clrB clrA : Bool) (st : BitVec 2) :
    (clearedStatus clrB clrA st).getLsbD 1 = (st.getLsbD 1 && !clrB) := by
  revert clrB clrA st; decide

/-- Settles O17, by what the control byte makes of the global record. -/
theorem controlByteDrivesTimersAndStatus : Obligations.ControlByteDrivesTimersAndStatus := by
  refine ⟨decode_tctlByte, fun csm clrB clrA runB runA s hready => ?_⟩
  exact ⟨_, (execTctl_eq csm clrB clrA runB runA s).trans (whenReady_ready hready), onG_onlyGlobal _ s, rfl,
    clearedStatus_bitA clrB clrA s.g.status, clearedStatus_bitB clrB clrA s.g.status⟩

/-! ### Noise and LFO -/

/-- Settles O18: each write is one update of the global record. -/
theorem noiseAndLfoWritesStoreTheirFields : Obligations.NoiseAndLfoWritesStoreTheirFields := by
  refine ⟨fun v => ⟨decode_noiseByte v, decodeReadsBackEveryEncodedInstruction (.lfrq v) rfl, fun hpmd => ?_,
    fun hamd => ?_, decode_ctwByte v⟩, fun s hready => ?_⟩
  · rw [decode_depthByte, if_pos hpmd]
  · rw [decode_depthByte, if_neg (Bool.eq_false_iff.1 hamd)]
  · exact ⟨fun _ _ => whenReady_ready hready, fun _ => whenReady_ready hready, fun _ => whenReady_ready hready,
      fun _ => whenReady_ready hready, fun _ _ => ⟨_, whenReady_ready hready, rfl, rfl⟩⟩

/-! ### The channel registers -/

theorem onCh_onlyChannel (c : Chan) (f : Channel → Channel) (s : State) : onlyChannel c s (onCh c f s) := by
  refine ⟨rfl, fun d hd => ?_, rfl, rfl, rfl, rfl, rfl⟩
  rw [chAt_onCh, if_neg hd]

/-- A channel register's write changes the one channel and nothing else. -/
theorem whenReady_onCh {s : State} (hready : s.h.ready = true) (a : Attempt) (c : Chan) (f : Channel → Channel) :
    ∃ t, whenReady a s (onCh c f s) = .next t ∧ onlyChannel c s t ∧ t.chAt c = f (s.chAt c) :=
  ⟨onCh c f s, whenReady_ready hready, onCh_onlyChannel c f s, by rw [chAt_onCh, if_pos rfl]⟩

/-- Settles O19: the words by the address's kind and channel, the writes by the rule of one channel's update. -/
theorem channelWritesStoreTheirFields : Obligations.ChannelWritesStoreTheirFields := by
  intro c s hready
  refine ⟨fun v => ?_, fun _ _ _ _ => whenReady_onCh hready _ c _, fun _ => whenReady_onCh hready _ c _,
    fun _ => whenReady_onCh hready _ c _, fun _ _ => whenReady_onCh hready _ c _⟩
  rw [decode_rlfbcon c v.isLt, decode_kc c v.isLt, decode_kf c v.isLt, decode_pmsams c v.isLt]
  simp only [bits_toNat_eq_extractLsb', bit_toNat_eq_getLsbD, and_self]

/-! ### The operator registers -/

theorem onOp_onlyOperator (c : Chan) (sl : Slot) (f : Operator → Operator) (s : State) :
    onlyOperator c sl s (onOp c sl f s) := by
  refine ⟨fun d k hother => ?_, rfl, rfl, rfl, rfl, rfl, rfl⟩
  rw [opAt_onOp, if_neg hother]

/-- An operator register's write changes the one operator and nothing else. -/
theorem whenReady_onOp {s : State} (hready : s.h.ready = true) (a : Attempt) (c : Chan) (sl : Slot)
    (f : Operator → Operator) :
    ∃ t, whenReady a s (onOp c sl f s) = .next t ∧ onlyOperator c sl s t ∧ t.opAt c sl = f (s.opAt c sl) :=
  ⟨onOp c sl f s, whenReady_ready hready, onOp_onlyOperator c sl f s, by rw [opAt_onOp, if_pos ⟨rfl, rfl⟩]⟩

/-- Settles O20: the words by the address's kind, operator and channel, the writes by the rule of one operator's
update. -/
theorem operatorWritesStoreTheirFields : Obligations.OperatorWritesStoreTheirFields := by
  intro sl c s hready
  refine ⟨fun v => ?_, fun _ _ => whenReady_onOp hready _ c sl _, fun _ => whenReady_onOp hready _ c sl _,
    fun _ _ => whenReady_onOp hready _ c sl _, fun _ _ => whenReady_onOp hready _ c sl _,
    fun _ _ => whenReady_onOp hready _ c sl _, fun _ _ => whenReady_onOp hready _ c sl _⟩
  simp only [← bits_toNat_eq_extractLsb', ← bit_toNat_eq_getLsbD]
  exact ⟨decode_dt1mul sl c v.isLt, decode_tl sl c v.isLt, decode_ksar sl c v.isLt, decode_amsend1r sl c v.isLt,
    decode_dt2d2r sl c v.isLt, decode_d1lrr sl c v.isLt⟩

/-! ### The dynamic fields (41_register_writes.md R133) -/

/-- Every dynamic field is as before. -/
def keepsDynamic (s t : State) : Prop :=
  (∀ c sl, (t.opAt c sl).dynamic = (s.opAt c sl).dynamic) ∧ (∀ c, (t.chAt c).dynamic = (s.chAt c).dynamic) ∧
    t.g.dynamic = s.g.dynamic

section
variable {s : State} {c : Chan} {sl : Slot}

theorem keepsDynamic_refl (s : State) : keepsDynamic s s := ⟨fun _ _ => rfl, fun _ => rfl, rfl⟩

theorem onG_keepsDynamic {f : Global → Global} (hf : (f s.g).dynamic = s.g.dynamic) : keepsDynamic s (onG f s) :=
  ⟨fun _ _ => rfl, fun _ => rfl, hf⟩

theorem onCh_keepsDynamic {f : Channel → Channel} (hf : (f (s.chAt c)).dynamic = (s.chAt c).dynamic) :
    keepsDynamic s (onCh c f s) := by
  refine ⟨fun _ _ => rfl, fun d => ?_, rfl⟩
  rw [chAt_onCh]
  split
  next hsame =>
    subst hsame
    exact hf
  next => rfl

theorem onOp_keepsDynamic {f : Operator → Operator} (hf : (f (s.opAt c sl)).dynamic = (s.opAt c sl).dynamic) :
    keepsDynamic s (onOp c sl f s) := by
  refine ⟨fun d k => ?_, fun _ => rfl, rfl⟩
  rw [opAt_onOp]
  split
  next hsame =>
    obtain ⟨rfl, rfl⟩ := hsame
    exact hf
  next => rfl

end

/-- Settles O21: the other writes store control fields of one record, or nothing. -/
theorem storeOnlyWritesTouchNoDynamicField : Obligations.StoreOnlyWritesTouchNoDynamicField := by
  intro i s t hwrite hstore h
  cases i with
  | test | kon | tctl => nomatch hstore
  | rds | tick | rst => nomatch hwrite
  | noise | clka1 | clka2 | clkb | lfrq | ctw | pmd | amd =>
    obtain ⟨-, rfl⟩ := whenReady_eq_next.1 h
    exact onG_keepsDynamic rfl
  | rlfbcon | kc | kf | pmsams =>
    obtain ⟨-, rfl⟩ := whenReady_eq_next.1 h
    exact onCh_keepsDynamic rfl
  | dt1mul | tl | ksar | amsend1r | dt2d2r | d1lrr =>
    obtain ⟨-, rfl⟩ := whenReady_eq_next.1 h
    exact onOp_keepsDynamic rfl
  | undef00 | undef02 | undef04 | undef09 | undef0a | undef0c | undef0e | undef13 | undef15 | undef16 | undef1a
  | undef1c =>
    obtain ⟨-, rfl⟩ := whenReady_eq_next.1 h
    exact keepsDynamic_refl s

end Sys2Proof.Machine

/-! ## The envelope generator: proofs of O24 to O31

Key-on, key-off and the EG step are read through one equation each (`keyOn_unkeyed`, `keyOff_eq`, `egStep_eq_gated`),
which the facts about rates and increments then make concrete. -/

namespace Sys2Proof.Machine

/-! ### The rate lookup (42_envelope_generator.md R141 to R144) -/

theorem ksr_eq_div (kc : BitVec 7) (ks : BitVec 2) : ksr kc ks = kc.toNat / 2 ^ (5 - ks.toNat) :=
  Nat.shiftRight_eq_div_pow _ _

/-- Key scaling shifts by at least 2, whatever KS. -/
theorem ksr_le (kc : BitVec 7) (ks : BitVec 2) : ksr kc ks ≤ 31 := by
  have hks := ks.isLt
  have hkc := kc.isLt
  have hpow : 2 ^ 2 ≤ 2 ^ (5 - ks.toNat) := Nat.pow_le_pow_right (by decide) (by omega)
  calc ksr kc ks = kc.toNat / 2 ^ (5 - ks.toNat) := ksr_eq_div kc ks
    _ ≤ kc.toNat / 2 ^ 2 := Nat.div_le_div_left hpow (by decide)
    _ ≤ 31 := by omega

@[simp] theorem rateBase_zero : rateBase 0 = 0 := rfl

theorem rateBase_le (r : BitVec 5) : rateBase r ≤ 94 := by
  have := r.isLt
  unfold rateBase
  split <;> omega

/-- Settles O26: each index is the model's own, with the key scaling written as a division. -/
theorem rateLookupFollowsKeyScaling : Obligations.RateLookupFollowsKeyScaling := by
  intro kc o k hk
  obtain rfl : k = ksr kc o.ks := hk.trans (ksr_eq_div kc o.ks).symm
  have hksr := ksr_le kc o.ks
  have hindex (r : BitVec 5) : rateBase r + ksr kc o.ks ≤ 125 := Nat.add_le_add (rateBase_le r) hksr
  refine ⟨hksr, ?_, ?_, ?_, ?_, rfl⟩
  · rintro _ rfl
    exact ⟨hindex o.ar, rfl⟩
  · rintro _ rfl
    exact ⟨hindex o.d1r, rfl⟩
  · rintro _ rfl
    exact ⟨hindex o.d2r, rfl⟩
  · have := o.rr.isLt
    omega

/-! ### The gate and the increment of a rate (42_envelope_generator.md R149) -/

section
variable (cnt : BitVec 32) (kc : BitVec 7)

theorem rateInc_eq (r : Rate) : rateInc cnt r = egInc r.sel (cnt.toNat / 2 ^ r.sh % 8) := by
  unfold rateInc
  rw [Nat.shiftRight_eq_div_pow, Nat.and_two_pow_sub_one_eq_mod _ 3]

theorem rateApplies_iff (r : Rate) : rateApplies cnt r = true ↔ cnt.toNat % 2 ^ r.sh = 0 := by
  unfold rateApplies
  rw [Nat.one_shiftLeft, Nat.and_two_pow_sub_one_eq_mod, beq_iff_eq]

theorem egInc_zeroShape : ∀ i < 8, egInc 18 i = 0 := by decide

theorem egInc_instantShape : ∀ i < 8, egInc 17 i = 16 := by decide

/-- Every shape but the zero shape moves at the last position of its pattern. -/
theorem one_le_egInc_last : ∀ sel < 18, 1 ≤ egInc sel 7 := by decide

theorem egSel_lt {idx : Nat} (h : 32 ≤ idx) : egSel idx < 18 := by
  unfold egSel
  repeat' split
  all_goals omega

/-- With a rate field of 0 the index is the key scaling alone, which never reaches past the zero shape. -/
theorem rateInc_rateBase_zero (ks : BitVec 2) : rateInc cnt (tableRate (rateBase 0 + ksr kc ks)) = 0 := by
  have hidx : rateBase 0 + ksr kc ks < 32 := by
    have := ksr_le kc ks
    rw [rateBase_zero]
    omega
  have hsel : (tableRate (rateBase 0 + ksr kc ks)).sel = 18 := if_pos hidx
  rw [rateInc_eq, hsel]
  exact egInc_zeroShape _ (Nat.mod_lt _ (by decide))

theorem rateInc_instant {r : Rate} (h : r.sel = 17) : rateInc cnt r = 16 := by
  rw [rateInc_eq, h]
  exact egInc_instantShape _ (Nat.mod_lt _ (by decide))

/-- With AR = 0 the index stays below 94, where the attack would take the instant shape. -/
theorem attackRate_zero {o : Operator} (h : o.ar = 0) : attackRate kc o = tableRate (rateBase 0 + ksr kc o.ks) := by
  have := ksr_le kc o.ks
  unfold attackRate
  rw [h]
  exact if_neg (by rw [rateBase_zero]; omega)

end

/-! ### The step of each state (42_envelope_generator.md R150 to R153) -/

/-- The attack formula as R150 writes it. -/
theorem attackVolume_formula (v inc : Nat) : attackVolume v inc = v + ((-v - 1 : Int) * inc) / 16 := rfl

theorem attackStep_eq (inc : Nat) (o : Operator) :
    attackStep inc o =
      if attackVolume o.volume inc ≤ 0 then { o with volume := 0, env := .decay1 }
      else { o with volume := (attackVolume o.volume inc).toNat } := rfl

theorem decay1Step_eq (inc : Nat) (o : Operator) :
    decay1Step inc o =
      { o with
        volume := o.volume + inc
        env := if d1lTable o.d1l.toNat ≤ o.volume + inc then .decay2 else o.env } := by
  rcases decay1Step_cases inc o with ⟨hreached, h⟩ | ⟨hbelow, h⟩
  · rw [h, if_pos hreached]
  · rw [h, if_neg (Nat.not_le.2 hbelow)]

theorem decay1Step_volume (inc : Nat) (o : Operator) : (decay1Step inc o).volume = o.volume + inc :=
  congrArg Operator.volume (decay1Step_eq inc o)

theorem fallStep_eq (inc : Nat) (o : Operator) :
    fallStep inc o =
      { o with
        volume := min 1023 (o.volume + inc)
        env := if 1023 ≤ o.volume + inc then .off else o.env } := by
  rcases fallStep_cases inc o with ⟨hreached, h⟩ | ⟨hbelow, h⟩
  · rw [h, if_pos hreached, Nat.min_eq_left hreached]
  · rw [h, if_neg (Nat.not_le.2 hbelow), Nat.min_eq_right hbelow.le]

theorem fallStep_volume (inc : Nat) (o : Operator) : (fallStep inc o).volume = min 1023 (o.volume + inc) :=
  congrArg Operator.volume (fallStep_eq inc o)

/-- An attack without an increment stays where it is, above volume 0. -/
theorem attackStep_zero {o : Operator} (h : 1 ≤ o.volume) : attackStep 0 o = o := by
  have hv : attackVolume o.volume 0 = o.volume := by simp [attackVolume_formula]
  rw [attackStep_eq, hv, if_neg (by omega), Int.toNat_natCast]

theorem fallStep_zero {o : Operator} (h : o.volume < 1023) : fallStep 0 o = o := by
  rw [fallStep_eq, if_neg (by simpa using h), Nat.add_zero, Nat.min_eq_right h.le]

theorem attackStep_volume_le (inc : Nat) (o : Operator) : (attackStep inc o).volume ≤ o.volume := by
  rcases attackStep_cases inc o with ⟨_, h⟩ | ⟨_, v, _, hv, h⟩ <;> rw [h]
  · exact Nat.zero_le _
  · exact hv

/-- An attack with an increment progresses: it ends, or the volume falls. -/
theorem attackStep_progress {inc : Nat} (hinc : 1 ≤ inc) (o : Operator) :
    (attackStep inc o).volume < o.volume ∨
      ((attackStep inc o).volume = 0 ∧ (attackStep inc o).env = .decay1) := by
  rcases attackStep_cases inc o with ⟨_, h⟩ | ⟨_, v, hv, _, h⟩ <;> rw [h]
  · exact .inr ⟨rfl, rfl⟩
  · have hlt := attackVolume_lt o.volume inc hinc
    exact .inl (by simp only; omega)

/-- The instant shape ends the attack from any volume. -/
theorem attackStep_instant (o : Operator) : attackStep 16 o = { o with volume := 0, env := .decay1 } := by
  have hv : attackVolume o.volume 16 ≤ 0 := by
    rw [attackVolume_formula]
    omega
  rw [attackStep_eq, if_pos hv]

/-! ### One EG step (42_envelope_generator.md R149 to R154) -/

section
variable (cnt : BitVec 32) (kc : BitVec 7)

/-- The rate of the operator's state. Off has none; the Release rate stands in, and `envStep` ignores it. -/
def envRate (kc : BitVec 7) (o : Operator) : Rate :=
  match o.env with
  | .attack => attackRate kc o
  | .decay1 => decay1Rate kc o
  | .decay2 => decay2Rate kc o
  | .release | .off => releaseRate kc o

/-- The step of an envelope state at an increment. -/
def envStep : EnvState → Nat → Operator → Operator
  | .attack => attackStep
  | .decay1 => decay1Step
  | .decay2 | .release => fallStep
  | .off => fun _ o => o

/-- The EG step is the step of the operator's state behind the gate of that state's rate. -/
theorem egStep_eq_gated (o : Operator) : egStep cnt kc o = gated cnt (envRate kc o) (envStep o.env) o := by
  unfold egStep envRate
  cases o.env with
  | off => exact (ite_self o).symm
  | attack | decay1 | decay2 | release => rfl

theorem egStep_not_applies {o : Operator} (h : rateApplies cnt (envRate kc o) = false) : egStep cnt kc o = o := by
  rw [egStep_eq_gated, gated, h]
  exact if_neg Bool.false_ne_true

theorem egStep_applies {o : Operator} (h : rateApplies cnt (envRate kc o) = true) :
    egStep cnt kc o = envStep o.env (rateInc cnt (envRate kc o)) o := by
  rw [egStep_eq_gated, gated, if_pos h]

/-- A step, gated or not, keeps what the state's step keeps at the increment of its rate. -/
theorem egStep_of_envStep {P : Operator → Prop} {o : Operator} (h : P o)
    (hstep : P (envStep o.env (rateInc cnt (envRate kc o)) o)) : P (egStep cnt kc o) := by
  cases happlies : rateApplies cnt (envRate kc o) with
  | false => rwa [egStep_not_applies cnt kc happlies]
  | true => rwa [egStep_applies cnt kc happlies]

theorem egStep_of_inc_zero {P : Operator → Prop} {o : Operator} (hinc : rateInc cnt (envRate kc o) = 0) (h : P o)
    (hstep : P (envStep o.env 0 o)) : P (egStep cnt kc o) :=
  egStep_of_envStep cnt kc h (by rwa [hinc])

/-- In Attack, Decay1 or Decay2 with the state's rate field at 0 there is no increment. -/
theorem rateInc_envRate_zero {o : Operator}
    (h : (o.env = .attack ∧ o.ar = 0) ∨ (o.env = .decay1 ∧ o.d1r = 0) ∨ (o.env = .decay2 ∧ o.d2r = 0)) :
    rateInc cnt (envRate kc o) = 0 := by
  have hrate : envRate kc o = tableRate (rateBase 0 + ksr kc o.ks) := by
    rcases h with ⟨he, hr⟩ | ⟨he, hr⟩ | ⟨he, hr⟩
    · simp only [envRate, he, attackRate_zero kc hr]
    · simp only [envRate, he, decay1Rate, hr]
    · simp only [envRate, he, decay2Rate, hr]
  rw [hrate, rateInc_rateBase_zero]

end

/-- Settles O28: the gate, the increment and the state's step by their equations. -/
theorem egStepFollowsTheStateMachine : Obligations.EgStepFollowsTheStateMachine := by
  intro cnt kc o r inc
  refine ⟨egStep_off cnt kc o, fun hrate hinc => ?_⟩
  obtain rfl : r = envRate kc o := by
    rcases hrate with ⟨he, rfl⟩ | ⟨he, rfl⟩ | ⟨he, rfl⟩ | ⟨he, rfl⟩ <;> simp only [envRate, he]
  obtain rfl : inc = rateInc cnt (envRate kc o) := hinc.trans (rateInc_eq cnt _).symm
  refine ⟨fun hclosed => ?_, fun hopen => ?_⟩
  · exact egStep_not_applies cnt kc (Bool.eq_false_iff.2 fun h => hclosed ((rateApplies_iff cnt _).1 h))
  · rw [egStep_applies cnt kc ((rateApplies_iff cnt _).2 hopen)]
    refine ⟨fun he v hv => ?_, fun he => ?_, fun he => ?_⟩
    · have hstep : envStep o.env = attackStep := congrArg envStep he
      rw [hstep, attackStep_eq, attackVolume_formula, ← hv]
    · have hstep : envStep o.env = decay1Step := congrArg envStep he
      rw [hstep, decay1Step_eq, he]
    · have hstep : envStep o.env = fallStep := he.elim (congrArg envStep) (congrArg envStep)
      rw [hstep, fallStep_eq]

/-- Settles O27: a rate of 0 has no increment, and a step without an increment leaves the volume as it is; the
release index starts past the zero shape. -/
theorem zeroRatesHoldAndReleaseMoves : Obligations.ZeroRatesHoldAndReleaseMoves := by
  intro cnt kc o
  refine ⟨fun hr he hv => ?_, fun hr he hv => ?_, fun hr he => ?_, 7, by decide, ?_⟩
  · have hinc := rateInc_envRate_zero cnt kc (.inl ⟨he, hr⟩)
    exact egStep_of_inc_zero cnt kc (P := (· = o)) hinc rfl (by rw [he]; exact attackStep_zero hv)
  · have hinc := rateInc_envRate_zero cnt kc (.inr (.inr ⟨he, hr⟩))
    exact egStep_of_inc_zero cnt kc (P := (· = o)) hinc rfl (by rw [he]; exact fallStep_zero hv)
  · have hinc := rateInc_envRate_zero cnt kc (.inr (.inl ⟨he, hr⟩))
    exact egStep_of_inc_zero cnt kc (P := fun o' => o'.volume = o.volume) hinc rfl
      (by rw [he]; exact decay1Step_volume 0 o)
  · exact one_le_egInc_last _ (egSel_lt (by omega))

/-! ### Monotone and bounded (42_envelope_generator.md R150, R156) -/

theorem egStep_volume_le_of_attack (cnt : BitVec 32) (kc : BitVec 7) {o : Operator} (he : o.env = .attack) :
    (egStep cnt kc o).volume ≤ o.volume := by
  refine egStep_of_envStep cnt kc (P := fun o' => o'.volume ≤ o.volume) le_rfl ?_
  rw [he]
  exact attackStep_volume_le _ o

/-- Outside Attack the volume never falls, up to the clamp at 1023. -/
theorem le_egStep_volume (cnt : BitVec 32) (kc : BitVec 7) {o : Operator} (hle : o.volume ≤ 1023)
    (he : o.env ≠ .attack) : o.volume ≤ (egStep cnt kc o).volume := by
  refine egStep_of_envStep cnt kc (P := fun o' => o.volume ≤ o'.volume) le_rfl ?_
  generalize rateInc cnt (envRate kc o) = inc
  cases h : o.env with
  | attack => exact absurd h he
  | decay1 =>
    rw [envStep, decay1Step_volume]
    exact Nat.le_add_right _ _
  | decay2 | release =>
    rw [envStep, fallStep_volume]
    exact le_min hle (Nat.le_add_right _ _)
  | off => exact le_rfl

theorem egStep_attack_applies {cnt : BitVec 32} {kc : BitVec 7} {o : Operator} (he : o.env = .attack)
    (h : rateApplies cnt (attackRate kc o) = true) :
    egStep cnt kc o = attackStep (rateInc cnt (attackRate kc o)) o := by
  have hrate : envRate kc o = attackRate kc o := by simp only [envRate, he]
  rw [← hrate] at h ⊢
  rw [egStep_applies cnt kc h, he, envStep]

/-- Settles O29: the bound is the operator's invariant; an applied attack step progresses, and the instant shape
ends the attack. -/
theorem envelopeIsMonotoneAndBounded : Obligations.EnvelopeIsMonotoneAndBounded := by
  intro cnt kc o hok
  have ⟨hle, _⟩ := hok
  have ⟨hbound, _⟩ := egStep_ok cnt kc o hok
  refine ⟨hbound, le_egStep_volume cnt kc hle, fun he =>
    ⟨egStep_volume_le_of_attack cnt kc he, fun happlies hinc => ?_⟩⟩
  rw [egStep_attack_applies he happlies]
  refine ⟨attackStep_progress hinc o, fun hsel => ?_⟩
  rw [rateInc_instant cnt hsel, attackStep_instant]
  exact ⟨rfl, rfl⟩

/-! ### Key-on and key-off (42_envelope_generator.md R146, R147) -/

theorem setKey_zero (b : KeySource) : setKey b 0 = keyBit b := by cases b <;> rfl

/-- A key-on of an operator that is not keyed on: the source's bit is its key mask, and the attack formula decides
between Decay1 at volume 0 and Attack above it. -/
theorem keyOn_unkeyed (cnt : BitVec 32) (kc : BitVec 7) (b : KeySource) {o : Operator} (h : o.key = 0) {v : Int}
    (hv : v = attackVolume o.volume (rateInc cnt (attackRate kc o))) :
    keyOn cnt kc b o =
      if v ≤ 0 then { o with key := keyBit b, phase := 0, volume := 0, env := .decay1 }
      else { o with key := keyBit b, phase := 0, volume := v.toNat, env := .attack } := by
  obtain ⟨o', ho', hkeyOn⟩ := keyOn_fresh cnt kc b o h
  rw [hkeyOn, ho', attackStep_eq, ← hv]
  split <;> simp only [h, setKey_zero]

/-- Settles O24: an operator that is keyed on gets the key bit only; any other restarts by the attack formula. -/
theorem keyOnRestartsAnUnkeyedOperator : Obligations.KeyOnRestartsAnUnkeyedOperator := by
  intro cnt kc b o
  refine ⟨keyOn_held cnt kc b o, fun hkey inc v hinc hv => ?_, rfl, rfl⟩
  obtain rfl : inc = rateInc cnt (attackRate kc o) := hinc.trans (rateInc_eq cnt _).symm
  exact keyOn_unkeyed cnt kc b hkey (hv.trans (attackVolume_formula _ _).symm)

theorem aboveRelease_iff (e : EnvState) : aboveRelease e = true ↔ e = .attack ∨ e = .decay1 ∨ e = .decay2 := by
  cases e <;> decide

theorem keyOff_eq (b : KeySource) (o : Operator) :
    keyOff b o =
      { o with
        key := clearKey b o.key
        env := if clearKey b o.key = 0 ∧ (o.env = .attack ∨ o.env = .decay1 ∨ o.env = .decay2) then .release
          else o.env } := by
  rcases keyOff_cases b o with ⟨hkey, habove, h⟩ | ⟨hnot, h⟩
  · rw [h, if_pos ⟨hkey, (aboveRelease_iff o.env).1 habove⟩]
  · rw [aboveRelease_iff] at hnot
    rw [h, if_neg hnot]

/-- Settles O25, by the equation of key-off. -/
theorem keyOffReleasesFromStatesAboveRelease : Obligations.KeyOffReleasesFromStatesAboveRelease := by
  rintro b o _ rfl
  exact keyOff_eq b o

/-! ### The edges of the state diagram (42_envelope_generator.md R155) -/

/-- The edges of the EG step, each under its condition. -/
theorem egStep_edges (cnt : BitVec 32) (kc : BitVec 7) (o : Operator) :
    (egStep cnt kc o).env = o.env ∨
    (o.env = .attack ∧ (egStep cnt kc o).env = .decay1 ∧ (egStep cnt kc o).volume = 0) ∨
    (o.env = .decay1 ∧ (egStep cnt kc o).env = .decay2 ∧ d1lTable o.d1l.toNat ≤ (egStep cnt kc o).volume) ∨
    ((o.env = .decay2 ∨ o.env = .release) ∧ (egStep cnt kc o).env = .off ∧ (egStep cnt kc o).volume = 1023) := by
  rcases egStep_cases cnt kc o with h | ⟨he, inc, _, h⟩ | ⟨he, inc, _, h⟩ | ⟨he, inc, _, h⟩ <;> rw [h]
  · exact .inl rfl
  · rcases attackStep_cases inc o with ⟨_, h⟩ | ⟨_, _, _, _, h⟩ <;> rw [h]
    · exact .inr (.inl ⟨he, rfl, rfl⟩)
    · exact .inl rfl
  · rcases decay1Step_cases inc o with ⟨hreached, h⟩ | ⟨_, h⟩ <;> rw [h]
    · exact .inr (.inr (.inl ⟨he, rfl, hreached⟩))
    · exact .inl rfl
  · rcases fallStep_cases inc o with ⟨_, h⟩ | ⟨_, h⟩ <;> rw [h]
    · exact .inr (.inr (.inr ⟨he, rfl, rfl⟩))
    · exact .inl rfl

/-- Where a key-on takes an operator that is not keyed on. -/
theorem keyOn_unkeyed_edges (cnt : BitVec 32) (kc : BitVec 7) (b : KeySource) {o : Operator} (h : o.key = 0) :
    (keyOn cnt kc b o).phase = 0 ∧
      (((keyOn cnt kc b o).env = .attack ∧ 0 < (keyOn cnt kc b o).volume) ∨
        ((keyOn cnt kc b o).env = .decay1 ∧ (keyOn cnt kc b o).volume = 0)) := by
  rw [keyOn_unkeyed cnt kc b h rfl]
  split
  next => exact ⟨rfl, .inr ⟨rfl, rfl⟩⟩
  next hpos => exact ⟨rfl, .inl ⟨rfl, Int.pos_iff_toNat_pos.1 (not_le.1 hpos)⟩⟩

/-- The one edge of key-off. -/
theorem keyOff_edges (b : KeySource) (o : Operator) :
    (keyOff b o).env = o.env ∨
      ((o.env = .attack ∨ o.env = .decay1 ∨ o.env = .decay2) ∧ (keyOff b o).env = .release ∧
        (keyOff b o).key = 0) := by
  rcases keyOff_cases b o with ⟨hkey, habove, h⟩ | ⟨_, h⟩ <;> rw [h]
  · exact .inr ⟨(aboveRelease_iff o.env).1 habove, rfl, hkey⟩
  · exact .inl rfl

/-- Settles O30: the edges of the EG step and of key-off hold of every operator; the invariant is what says that an
operator that is not keyed on is in Off or Release. -/
theorem envelopeTransitionsAreComplete : Obligations.EnvelopeTransitionsAreComplete := by
  rintro cnt kc b o _ _ _ ⟨_, _, _, hunkeyed⟩ rfl rfl rfl
  refine ⟨egStep_edges cnt kc o, ?_, keyOff_edges b o⟩
  by_cases hkey : o.key = 0
  · exact .inr ⟨hkey, hunkeyed hkey, keyOn_unkeyed_edges cnt kc b hkey⟩
  · exact .inl ⟨hkey, by rw [keyOn_held cnt kc b o hkey]⟩

/-! ### The EG clock (42_envelope_generator.md R148) -/

/-- An operator after `k` passes: each pass is one EG step with the counter one higher than at the pass before. -/
theorem iter_egPass_opAt (k : Nat) (s : State) (c : Chan) (sl : Slot) :
    (iter egPass k s).opAt c sl =
      (List.range k).foldl (fun o n => egStep (s.g.egCnt + BitVec.ofNat 32 (n + 1)) (s.chAt c).kc o)
        (s.opAt c sl) := by
  induction k with
  | zero => rfl
  | succ k ih =>
    have hcnt : s.g.egCnt + BitVec.ofNat 32 k + 1 = s.g.egCnt + BitVec.ofNat 32 (k + 1) := by
      rw [BitVec.add_assoc, BitVec.ofNat_add]
      rfl
    have hch : (iter egPass k s).chAt c = s.chAt c := iter_frame (view := fun s => s.chAt c) (egPass_chAt · c) k s
    rw [iter_succ_last, egPass_opAt, iter_egPass_g, hcnt, hch, ih, List.range_succ, List.foldl_append]
    rfl

/-- An operator after the EG tick: one EG step for each overflow that the accumulator holds. -/
theorem egTick_opAt (s : State) (c : Chan) (sl : Slot) :
    (egTick s).opAt c sl =
      (List.range ((s.g.egTimer + egTimerAdd s.params) / egTimerOverflow)).foldl
        (fun o n => egStep (s.g.egCnt + BitVec.ofNat 32 (n + 1)) (s.chAt c).kc o) (s.opAt c sl) := by
  simp only [egTick, iter_egPass_opAt, onG_g, onG_opAt, onG_chAt]

/-- Settles O31: the overflows and the remainder are the quotient and the rest of the division by an overflow. -/
theorem egClockStepsOncePerOverflow : Obligations.EgClockStepsOncePerOverflow := by
  intro s k r hsum hr
  have htotal : s.g.egTimer + egTimerAdd s.params = k * egTimerOverflow + r := hsum
  have hdiv : (s.g.egTimer + egTimerAdd s.params) / egTimerOverflow = k := by
    rw [htotal, egTimerOverflow]
    omega
  have hmod : (s.g.egTimer + egTimerAdd s.params) % egTimerOverflow = r := by
    rw [htotal, egTimerOverflow]
    omega
  refine ⟨?_, fun c sl => ?_, egTick_ch s, egTick_h s, egTick_params s, egTick_pending s, egTick_observed s⟩
  · rw [egTick_g, hdiv, hmod]
  · rw [egTick_opAt, hdiv]

end Sys2Proof.Machine

/-! ## The low-frequency oscillator: proofs of O32 to O35

The phase step is read through the three cases of R161 and R162, the waveforms through one equation each, and a tick's
LFO through the phase step of the state before it: the clocks that run first leave what the LFO reads. -/

namespace Sys2Proof.Machine

/-! ### The rate accumulator (43_lfo.md R161, R162) -/

section
variable (p : Params) (g : Global)

theorem lfoOverflow_eq (lfrq : BitVec 8) : lfoOverflow lfrq = 2 ^ (28 - lfrq.toNat / 16) := by
  have hexp : 18 - lfrq.toNat / 16 + 10 = 28 - lfrq.toNat / 16 := by omega
  rw [lfoOverflow, Nat.shiftRight_eq_div_pow, Nat.one_shiftLeft, Nat.shiftLeft_eq, ← pow_add, hexp]

/-- The threshold is lowest at the highest `LFRQ >> 4`, which is 15. -/
theorem le_lfoOverflow (lfrq : BitVec 8) : 8192 ≤ lfoOverflow lfrq := by
  rw [lfoOverflow_eq]
  have hexp : 13 ≤ 28 - lfrq.toNat / 16 := by
    have := lfrq.isLt
    omega
  exact Nat.pow_le_pow_right (by decide : 0 < 2) hexp

/-- The bound on the rate that R279 (b) rests on. -/
theorem lfoTimerAdd_lt (h : p.clock < 512 * p.rate) : lfoTimerAdd p < 8192 :=
  Nat.div_lt_of_lt_mul (by omega)

theorem lfoPhaseStep_held (h : g.test.getLsbD 1 = true) : lfoPhaseStep p g = { g with lfoPhase := 0 } := if_pos h

theorem lfoPhaseStep_waits (h : g.test.getLsbD 1 = false) (hlt : g.lfoTimer + lfoTimerAdd p < lfoOverflow g.lfrq) :
    lfoPhaseStep p g = { g with lfoTimer := g.lfoTimer + lfoTimerAdd p } := by
  rw [lfoPhaseStep, h, if_neg Bool.false_ne_true]
  exact if_neg (Nat.not_le.2 hlt)

theorem lfoPhaseStep_overflows (h : g.test.getLsbD 1 = false)
    (hle : lfoOverflow g.lfrq ≤ g.lfoTimer + lfoTimerAdd p) :
    lfoPhaseStep p g =
      { g with
        lfoTimer := g.lfoTimer + lfoTimerAdd p - lfoOverflow g.lfrq
        lfoPhase := g.lfoPhase + BitVec.ofNat 8 ((g.lfoCounter + 16 + g.lfrq.toNat % 16) / 16)
        lfoCounter := (g.lfoCounter + 16 + g.lfrq.toNat % 16) % 16 } := by
  have hmask (n : Nat) : n &&& 15 = n % 16 := Nat.and_two_pow_sub_one_eq_mod n 4
  have hshift (n : Nat) : n >>> 4 = n / 16 := Nat.shiftRight_eq_div_pow n 4
  rw [lfoPhaseStep, h, if_neg Bool.false_ne_true, ← hshift, ← hmask, ← hmask]
  exact if_pos hle

/-- A counter within its range carries one sixteenth-step into the phase at an overflow, or two. -/
theorem lfoCounter_carry {counter : Nat} (lfrq : BitVec 8) (h : counter < 16) :
    (counter + 16 + lfrq.toNat % 16) / 16 = 1 ∨ (counter + 16 + lfrq.toNat % 16) / 16 = 2 := by
  omega

end

/-- Settles O32: the held phase, the overflow and the wait are the three cases of the phase step. -/
theorem lfoPhaseIsHeldOrAdvanced : Obligations.LfoPhaseIsHeldOrAdvanced := by
  rintro p g _ _ _ rfl rfl rfl
  rw [← lfoOverflow_eq]
  cases htest : g.test.getLsbD 1 with
  | true => exact lfoPhaseStep_held p g htest
  | false =>
    rw [if_neg Bool.false_ne_true]
    split
    next hle => exact lfoPhaseStep_overflows p g htest hle
    next hlt => exact lfoPhaseStep_waits p g htest (Nat.not_le.1 hlt)

/-- Settles O33: an overflow carries 1 or 2 into the phase, and it takes from the timer at least what a tick adds. -/
theorem lfoPhaseMovesByAtMostTwo : Obligations.LfoPhaseMovesByAtMostTwo := by
  rintro p g _ rfl htest hcounter
  rw [← lfoOverflow_eq]
  rcases Nat.lt_or_ge (g.lfoTimer + lfoTimerAdd p) (lfoOverflow g.lfrq) with hlt | hle
  · rw [lfoPhaseStep_waits p g htest hlt]
    exact ⟨.inl rfl, hcounter, fun _ _ => hlt⟩
  · rw [lfoPhaseStep_overflows p g htest hle]
    refine ⟨.inr ?_, Nat.mod_lt _ (by decide), fun hrate htimer => ?_⟩
    · exact (lfoCounter_carry g.lfrq hcounter).imp (congrArg (g.lfoPhase + BitVec.ofNat 8 ·))
        (congrArg (g.lfoPhase + BitVec.ofNat 8 ·))
    · have hadd : lfoTimerAdd p < lfoOverflow g.lfrq := (lfoTimerAdd_lt p hrate).trans_le (le_lfoOverflow g.lfrq)
      show g.lfoTimer + lfoTimerAdd p - lfoOverflow g.lfrq < lfoOverflow g.lfrq
      omega

/-! ### The waveforms (43_lfo.md R163 to R166) -/

section
variable (ph : BitVec 8)

theorem lfoRawAm_saw : (lfoRawAm 0 ph : Int) = 255 - ph.toNat := by
  have := ph.isLt
  show ((255 - ph.toNat : Nat) : Int) = _
  omega

theorem lfoRawAm_square : (lfoRawAm 1 ph : Int) = if (ph.toNat : Int) < 128 then 255 else 0 := by
  show ((if ph.toNat < 128 then 255 else 0 : Nat) : Int) = _
  split <;> split <;> omega

theorem lfoRawAm_triangle :
    (lfoRawAm 2 ph : Int) = if (ph.toNat : Int) < 128 then 255 - 2 * (ph.toNat : Int) else 2 * ph.toNat - 256 := by
  show ((if ph.toNat < 128 then 255 - 2 * ph.toNat else 2 * ph.toNat - 256 : Nat) : Int) = _
  split <;> split <;> omega

end

/-- Settles O34: PM and the noise read as the rules write them; AM is a natural number in the model, whose
subtractions never fall below 0. -/
theorem lfoWaveformsFollowTheirFormulas : Obligations.LfoWaveformsFollowTheirFormulas := by
  rintro ph _ rfl
  exact ⟨⟨lfoRawAm_saw ph, rfl⟩, ⟨lfoRawAm_square ph, rfl⟩, ⟨lfoRawAm_triangle ph, rfl⟩, rfl, rfl⟩

/-! ### The LFO in a tick (43_lfo.md R160, R167) -/

/-- The control fields that the LFO reads. -/
theorem lfoControls_of_programmed {g k : Global} (h : g.programmed = k.programmed) :
    g.test = k.test ∧ g.lfrq = k.lfrq ∧ g.w = k.w ∧ g.amd = k.amd ∧ g.pmd = k.pmd :=
  ⟨(congrArg Global.test h :), (congrArg Global.lfrq h :), (congrArg Global.w h :), (congrArg Global.amd h :),
    (congrArg Global.pmd h :)⟩

section
variable (s : State)

/-- The EG tick and the timers, which run before the LFO, leave every field its phase step reads. -/
theorem tick_lfoPhaseStep :
    (tick s).g.lfoPhase = (lfoPhaseStep s.params s.g).lfoPhase ∧
      (tick s).g.lfoTimer = (lfoPhaseStep s.params s.g).lfoTimer ∧
      (tick s).g.lfoCounter = (lfoPhaseStep s.params s.g).lfoCounter := by
  have hprog : (timerBStep s.params (timerAStep s.params (egTick s).g)).programmed = s.g.programmed := by
    rw [timerBStep_programmed, timerAStep_programmed, egTick_g]
    rfl
  obtain ⟨htest, hlfrq, -⟩ := lfoControls_of_programmed hprog
  rw [tick_g]
  refine lfoPhaseStep_congr s.params (x := timerBStep s.params (timerAStep s.params (egTick s).g)) ?_ ?_ ?_ htest hlfrq
  · rw [timerBStep_lfoPhase, timerAStep_lfoPhase, egTick_g]
  · rw [timerBStep_lfoTimer, timerAStep_lfoTimer, egTick_g]
  · rw [timerBStep_lfoCounter, timerAStep_lfoCounter, egTick_g]

/-- The AM output after a tick, from the waveform and the depth as they were before it. -/
theorem tick_lfa : (tick s).g.lfa = lfoRawAm s.g.w (tick s).g.lfoPhase * s.g.amd.toNat / 128 := by
  obtain ⟨-, -, hw, hamd, -⟩ := lfoControls_of_programmed (tick_g_programmed s)
  rw [← hw, ← hamd, tick_g]
  rfl

theorem tick_lfp : (tick s).g.lfp = Int.tdiv (lfoRawPm s.g.w (tick s).g.lfoPhase * s.g.pmd.toNat) 128 := by
  obtain ⟨-, -, hw, -, hpmd⟩ := lfoControls_of_programmed (tick_g_programmed s)
  rw [← hw, ← hpmd, tick_g]
  rfl

end

/-- Settles O35: the tick's phase step and outputs, and the ranges of every scaled raw value. -/
theorem lfoOutputsAreScaledAndBounded : Obligations.LfoOutputsAreScaledAndBounded := by
  intro s t _ h
  obtain ⟨-, rfl⟩ := whenReady_eq_next.1 h
  obtain ⟨hphase, htimer, hcounter⟩ := tick_lfoPhaseStep s
  refine ⟨hphase, htimer, hcounter, tick_lfa s, tick_lfp s, ?_, ?_⟩
  · exact (tick_lfa s).trans_le (lfa_le _ _ _)
  · show -127 ≤ (tick s).g.lfp ∧ (tick s).g.lfp ≤ 126
    rw [tick_lfp]
    exact lfp_range _ _ _

end Sys2Proof.Machine

/-! ## The phase generator: proofs of O36 to O38, O50

The terms of the increment have one equation each, the index into the frequency table one range per term. In a tick an
operator's phase is its advance, whatever the envelope, unless a CSM key-on finds it not keyed on; what the resolution
of a CSM request can change of an operator is said once, request by request. -/

namespace Sys2Proof.Machine

/-! ### The terms of the increment (44_phase_generator.md R176 to R179, R182) -/

section
variable (p : Params) (ch : Channel) (o : Operator) (lfp : Int)

theorem kcIndex_eq : kcIndex ch = 768 + (ch.kc.toNat - ch.kc.toNat / 4) * 64 + ch.kf.toNat := by
  rw [kcIndex, Nat.shiftRight_eq_div_pow]

theorem dt1Delta_eq {delta : Nat} (h : delta = dt1Table p (32 * (o.dt1.toNat % 4) + ch.kc.toNat / 4)) :
    dt1Delta p ch o = if o.dt1.getLsbD 2 then -(delta : Int) else delta := by
  have hrow : o.dt1.toNat &&& 3 = o.dt1.toNat % 4 := Nat.and_two_pow_sub_one_eq_mod _ 2
  have hcolumn : ch.kc.toNat >>> 2 = ch.kc.toNat / 4 := Nat.shiftRight_eq_div_pow _ 2
  rw [dt1Delta, hrow, hcolumn, ← h]

theorem incAt_eq (x : Int) :
    incAt p ch o x = ((freqTable p (x + dt2Table o.dt2.toNat).toNat + dt1Delta p ch o) * mulFactor o) / 2 := rfl

theorem pmOffset_none (h : ch.pms = 0) : pmOffset ch lfp = 0 := by
  rw [pmOffset, h]
  rfl

theorem pmOffset_right (h : 1 ≤ ch.pms.toNat) (h' : ch.pms.toNat ≤ 5) :
    pmOffset ch lfp = lfp / 2 ^ (6 - ch.pms.toNat) := by
  rw [pmOffset, if_neg (Nat.one_le_iff_ne_zero.1 h), if_pos h', shr]

theorem pmOffset_left (h : 6 ≤ ch.pms.toNat) : pmOffset ch lfp = lfp * 2 ^ (ch.pms.toNat - 5) := by
  rw [pmOffset, if_neg (by omega), if_neg (by omega), shl]

end

/-- Settles O36: each term by its equation. -/
theorem phaseIncrementFollowsItsFormula : Obligations.PhaseIncrementFollowsItsFormula := by
  rintro p ch o x lfp _ delta rfl hdelta
  exact ⟨kcIndex_eq ch, dt1Delta_eq p ch o hdelta, rfl, incAt_eq p ch o x, pmOffset_none ch lfp,
    pmOffset_right ch lfp, pmOffset_left ch lfp⟩

/-! ### The index into the frequency table (44_phase_generator.md R183) -/

theorem kcIndex_range (ch : Channel) : 768 ≤ kcIndex ch ∧ kcIndex ch ≤ 6975 := by
  have hkc := ch.kc.isLt
  have hkf := ch.kf.isLt
  rw [kcIndex_eq]
  omega

theorem dt2Table_le (i : Nat) : dt2Table i ≤ 608 := getD_le (by decide) i

/-- A floor division by a power of two brings a number no further from a range that holds 0. -/
theorem ediv_two_pow_range {a b x : Int} (k : Nat) (ha : a ≤ 0) (hb : 0 ≤ b) (hax : a ≤ x) (hxb : x ≤ b) :
    a ≤ x / 2 ^ k ∧ x / 2 ^ k ≤ b := by
  have hpow : (1 : Int) ≤ 2 ^ k := one_le_pow₀ (by decide)
  constructor
  · exact Int.le_ediv_of_mul_le (by positivity) (by nlinarith)
  · exact Int.ediv_le_of_le_mul (by positivity) (by nlinarith)

theorem pmOffset_range (ch : Channel) {lfp : Int} (hlo : -127 ≤ lfp) (hhi : lfp ≤ 126) :
    -508 ≤ pmOffset ch lfp ∧ pmOffset ch lfp ≤ 504 := by
  rcases Nat.lt_or_ge 5 ch.pms.toNat with hleft | hright
  · have hpms := ch.pms.isLt
    rw [pmOffset_left ch lfp hleft]
    obtain h | h : ch.pms.toNat = 6 ∨ ch.pms.toNat = 7 := by omega
    · rw [h]
      omega
    · rw [h]
      omega
  · rcases Nat.eq_zero_or_pos ch.pms.toNat with hnone | hpos
    · rw [pmOffset_none ch lfp (BitVec.eq_of_toNat_eq hnone)]
      decide
    · rw [pmOffset_right ch lfp hpos hright]
      have := ediv_two_pow_range (6 - ch.pms.toNat) (by decide) (by decide) hlo hhi
      omega

/-- Settles O37: the sum of the ranges of the three terms. -/
theorem frequencyIndexStaysInTheTable : Obligations.FrequencyIndexStaysInTheTable := by
  intro ch o lfp hlo hhi
  have hkc := kcIndex_range ch
  have hpm := pmOffset_range ch hlo hhi
  have hdt2 := dt2Table_le o.dt2.toNat
  omega

/-! ### The resolution of a CSM request on one operator (46_timers_csm.md R219, R220) -/

section
variable {r : CsmReq} {o : Operator} (cnt : BitVec 32) (kc : BitVec 7)

/-- Only a key-on of an operator that is not keyed on touches the phase. -/
theorem csmOp_phase (h : r ≠ .keyOnPending ∨ o.key ≠ 0) : (csmOp r cnt kc o).phase = o.phase := by
  cases r with
  | idle => rfl
  | keyOffPending => exact keyOff_phase .csm o
  | keyOnPending =>
    have hkey : o.key ≠ 0 := h.resolve_left (· rfl)
    rw [csmOp, keyOn_held cnt kc .csm o hkey]

theorem setKey_csm_konBit (k : BitVec 2) : (setKey .csm k).getLsbD 0 = k.getLsbD 0 := by revert k; decide
theorem clearKey_csm_konBit (k : BitVec 2) : (clearKey .csm k).getLsbD 0 = k.getLsbD 0 := by revert k; decide

theorem ne_zero_of_konBit {k : BitVec 2} (h : k.getLsbD 0 = true) : k ≠ 0 := by
  rintro rfl
  nomatch h

/-- A request resolved on an operator held by the register KON leaves its state and volume, and the operator held. -/
theorem csmOp_held (r : CsmReq) (h : o.key.getLsbD 0 = true) :
    (csmOp r cnt kc o).env = o.env ∧ (csmOp r cnt kc o).volume = o.volume ∧
      (csmOp r cnt kc o).key.getLsbD 0 = true := by
  cases r with
  | idle => exact ⟨rfl, rfl, h⟩
  | keyOffPending =>
    have hbit : (clearKey .csm o.key).getLsbD 0 = true := (clearKey_csm_konBit o.key).trans h
    rcases keyOff_cases .csm o with ⟨hzero, -⟩ | ⟨-, hkeyOff⟩
    · exact absurd hzero (ne_zero_of_konBit hbit)
    · rw [csmOp, hkeyOff]
      exact ⟨rfl, rfl, hbit⟩
  | keyOnPending =>
    rw [csmOp, keyOn_held cnt kc .csm o (ne_zero_of_konBit h)]
    exact ⟨rfl, rfl, (setKey_csm_konBit o.key).trans h⟩

end

/-- Timer A requests a key-on only when it reaches zero with CSM enabled. -/
theorem timerAStep_csmReq_of_not_due (p : Params) {g : Global}
    (h : ¬ (g.taRun = true ∧ g.csmEn = true ∧ g.taVal ≤ 65536)) : (timerAStep p g).csmReq = g.csmReq := by
  rcases timerAStep_cases p g with e | ⟨-, -, e⟩ | ⟨hrun, hexpired, e⟩ <;> rw [e]
  exact if_neg fun hcsm => h ⟨hrun, hcsm, by omega⟩

/-! ### The phase advance in a tick (44_phase_generator.md R181) -/

@[simp] theorem phaseStep_key (p : Params) (lfp : Int) (ch : Channel) (o : Operator) :
    (phaseStep p lfp ch o).key = o.key := rfl

theorem phaseStep_phase_toNat (p : Params) (lfp : Int) (ch : Channel) (o : Operator) :
    ((phaseStep p lfp ch o).phase.toNat : Int) = (o.phase.toNat + tickInc p lfp ch o) % 2 ^ 32 := by
  show ((o.phase + BitVec.ofInt 32 (tickInc p lfp ch o)).toNat : Int) = _
  rw [BitVec.toNat_add, BitVec.toNat_ofInt]
  omega

/-- The increment reads programmable fields of its operator only. -/
theorem tickInc_of_programmed {o o' : Operator} (h : o.programmed = o'.programmed) (p : Params) (lfp : Int)
    (ch : Channel) : tickInc p lfp ch o = tickInc p lfp ch o' :=
  (congrArg (tickInc p lfp ch) h :)

section
variable {s : State} {c : Chan} {sl : Slot}

/-- The phase after a tick: the old one advanced, unless the request that the tick resolves is a key-on and the operator
was not keyed on. -/
theorem tick_phase (h : (timerAStep s.params s.g).csmReq ≠ .keyOnPending ∨ (s.opAt c sl).key ≠ 0) :
    (((tick s).opAt c sl).phase.toNat : Int) =
      ((s.opAt c sl).phase.toNat + tickInc s.params (tick s).g.lfp (s.chAt c) (s.opAt c sl)) % 2 ^ 32 := by
  have hlfp : (tick s).g.lfp = (clocks s.params (egTick s).g).lfp := by rw [tick_g]
  rw [tick_opAt, tick_csmReq_resolved, csmOp_phase _ _ (by rwa [phaseStep_key, egTick_key]), phaseStep_phase_toNat,
    egTick_phase, tickInc_of_programmed (egTick_programmed s c sl), hlfp]

/-- An operator held by the register KON, after a tick: what the EG tick made of it, and still held. -/
theorem tick_held (h : (s.opAt c sl).key.getLsbD 0 = true) :
    ((tick s).opAt c sl).env = ((egTick s).opAt c sl).env ∧
      ((tick s).opAt c sl).volume = ((egTick s).opAt c sl).volume ∧
      ((tick s).opAt c sl).key.getLsbD 0 = true := by
  rw [tick_opAt]
  exact csmOp_held _ _ _ (by rwa [phaseStep_key, egTick_key])

/-- An operator after a tick that resolves no request: what the EG tick made of it, and its key mask. -/
theorem tick_idle (h : (timerAStep s.params s.g).csmReq = .idle) :
    ((tick s).opAt c sl).key = (s.opAt c sl).key ∧
      ((tick s).opAt c sl).env = ((egTick s).opAt c sl).env ∧
      ((tick s).opAt c sl).volume = ((egTick s).opAt c sl).volume := by
  rw [tick_opAt, tick_csmReq_resolved, h]
  exact ⟨egTick_key s c sl, rfl, rfl⟩

end

/-- Settles O38: with Timer A not due and no key-on pending, the tick resolves no key-on. -/
theorem tickAdvancesEveryPhase : Obligations.TickAdvancesEveryPhase := by
  intro s t _ h hnotDue hpending c sl
  obtain ⟨-, rfl⟩ := whenReady_eq_next.1 h
  exact tick_phase (.inl (by rwa [timerAStep_csmReq_of_not_due s.params hnotDue]))

/-- Settles O50: the held operator, the phase of a keyed one, and the tick that resolves no request. -/
theorem heldOperatorsIgnoreCsm : Obligations.HeldOperatorsIgnoreCsm := by
  intro s t _ h c sl
  obtain ⟨-, rfl⟩ := whenReady_eq_next.1 h
  exact ⟨tick_held, fun hkey => tick_phase (.inr hkey), fun hnotDue hidle =>
    tick_idle ((timerAStep_csmReq_of_not_due s.params hnotDue).trans hidle)⟩

end Sys2Proof.Machine

/-! ## The mixer: proofs of O39, O41 to O45

An operator's output is a lookup at a moved phase, or the noise value in its place. The routing is read apart from what
the operators give: the nodes of a channel are those of a row of the routing table, the delay cell, M1's previous output
and three functions of an input node; the eight algorithms and the bound on the output are facts about these nodes. -/

namespace Sys2Proof.Machine

/-! ### The attenuation and the two reads of the lookup (45_mixer.md R191 to R195, R199) -/

theorem attenuation_eq (lfa : Nat) (ch : Channel) (o : Operator) :
    attenuation lfa ch o =
      8 * o.tl.toNat + o.volume + (if ch.ams ≠ 0 ∧ o.amsen = true then lfa * 2 ^ (ch.ams.toNat - 1) else 0) := by
  rw [attenuation, amTerm, Nat.shiftLeft_eq, Nat.shiftLeft_eq, Nat.mul_comm _ (2 ^ 3)]

/-- AMS shifts the LFO output by at most two places. -/
theorem amTerm_le (ch : Channel) (o : Operator) {lfa : Nat} (h : lfa ≤ 253) : amTerm lfa ch o ≤ 1012 := by
  have hams : ch.ams.toNat - 1 ≤ 2 := by omega
  have hpow : 2 ^ (ch.ams.toNat - 1) ≤ 4 := Nat.pow_le_pow_right (by decide : 0 < 2) hams
  unfold amTerm
  split
  · rw [Nat.shiftLeft_eq]
    exact Nat.mul_le_mul h hpow
  · exact Nat.zero_le _

theorem attenuation_le (ch : Channel) {o : Operator} {lfa : Nat} (hvol : o.volume ≤ 1023) (hlfa : lfa ≤ 253) :
    attenuation lfa ch o ≤ 3051 := by
  have ham := amTerm_le ch o hlfa
  have htl := o.tl.isLt
  rw [attenuation, Nat.shiftLeft_eq]
  omega

theorem lookup_eq (e k : Nat) :
    lookup e k = if 6656 ≤ 8 * e + sinTable k then 0 else tlTable (8 * e + sinTable k) := by
  rw [lookup, Nat.shiftLeft_eq, Nat.mul_comm e]
  rfl

/-- The fraction of the phase is cleared, so an odd modulation loses its half step to the floor. -/
theorem sineIndex_phaseInt (o : Operator) (pm : Int) :
    sineIndex (phaseInt o + pm * 32768) = (((o.phase.toNat / 65536 : Nat) + pm / 2) % 1024).toNat := by
  have hshift : shr (phaseInt o + pm * 32768) 16 = (o.phase.toNat / 65536 : Nat) + pm / 2 := by
    unfold shr phaseInt
    omega
  rw [sineIndex, hshift]

theorem opOut_eq (e : Nat) (o : Operator) (pm : Int) :
    opOut e o pm = lookup e (((o.phase.toNat / 65536 : Nat) + pm / 2) % 1024).toNat := by
  rw [opOut, sineIndex_phaseInt]

theorem opOut_within (e : Nat) (o : Operator) (pm : Int) : within 8168 (opOut e o pm) := lookup_within _ _

theorem opOutFb_within (e : Nat) (o : Operator) (pmf : Int) : within 8168 (opOutFb e o pmf) := lookup_within _ _

theorem m1Output_sounding {lfa : Nat} {ch : Channel} {o : Operator} (h : attenuation lfa ch o < envQuiet) :
    m1Output lfa ch o =
      opOutFb (attenuation lfa ch o) o (feedbackOffset ch.fb (ch.fbPrev + ch.fbCurr)) := if_pos h

/-- Settles O39: the attenuation, the lookup and the moved phase by their equations, the ranges by their parts. -/
theorem operatorAttenuationAndOutput : Obligations.OperatorAttenuationAndOutput := by
  refine ⟨fun lfa ch o => ⟨attenuation_eq lfa ch o, attenuation_le ch⟩, fun e k _ => ?_, by decide +kernel, opOut_eq⟩
  exact ⟨lookup_eq e k, lookup_within e k⟩

/-- Settles O42: what the channel computation stores in M1's history, quiet or sounding. -/
theorem feedbackOperatorShiftsItsHistory : Obligations.FeedbackOperatorShiftsItsHistory := by
  rintro s c ch ch' pmf rfl rfl rfl
  rw [mixerTick_chAt, chanStore_fbPrev, chanStore_fbCurr]
  exact ⟨rfl, m1Output_quiet, m1Output_sounding⟩

/-! ### The noise value (45_mixer.md R205) -/

theorem xor_1023 {e : Nat} (h : e < 1024) : e ^^^ 1023 = 1023 - e := by
  apply Nat.eq_of_testBit_eq
  intro i
  have hsub : (1023 - e).testBit i = (decide (i < 10) && !e.testBit i) :=
    (congrArg (Nat.testBit · i) (by omega)).trans (Nat.testBit_two_pow_sub_succ (n := 10) h i)
  rw [hsub, Nat.testBit_xor, show 1023 = 2 ^ 10 - 1 from rfl, Nat.testBit_two_pow_sub_one]
  by_cases hi : i < 10
  · simp [hi]
  · have hhigh : e.testBit i = false :=
      Nat.testBit_lt_two_pow (h.trans_le (Nat.pow_le_pow_right (by decide : 0 < 2) (Nat.le_of_not_lt hi)))
    simp [hi, hhigh]

/-- The complement in ten bits is the distance from 1023; above, the truncated distance and the level are both 0. -/
theorem noiseLevel_eq (e : Nat) : noiseLevel e = 2 * (1023 - e : Nat) := by
  unfold noiseLevel
  split
  · rw [xor_1023 (by omega)]
    omega
  · omega

theorem noiseOut_within (e : Nat) (rng : BitVec 17) : within 2046 (noiseOut e rng) := by
  have hlevel : within 2046 (noiseLevel e) := by
    rw [noiseLevel_eq]
    unfold within
    omega
  unfold noiseOut
  split
  · exact hlevel
  · exact within_neg hlevel

theorem c2Output_eq {g : Global} {ch : Channel} {o : Operator} {n : Int}
    (hn : n = 2 * (1023 - attenuation g.lfa ch o : Nat)) (c : Chan) (pm : Int) :
    c2Output g c ch o pm =
      if c = 7 ∧ g.ne = true then (if g.noiseRng.getLsbD 16 then n else -n)
      else gatedOut (attenuation g.lfa ch o) o pm := by
  rw [c2Output, noiseOut, noiseLevel_eq, hn]

theorem within_mono {a b x : Int} (hab : a ≤ b) (hx : within a x) : within b x := by
  unfold within at *
  omega

/-- C2 stays in the range of an operator output on the noise path too. -/
theorem c2Output_within (g : Global) (c : Chan) (ch : Channel) (o : Operator) (pm : Int) :
    within 8168 (c2Output g c ch o pm) := by
  unfold c2Output
  dsimp only
  split
  · exact within_mono (by decide) (noiseOut_within _ _)
  · exact gatedOut_within _ _ _

/-- Settles O43: the noise path of C2's equation. -/
theorem noiseReplacesC2OfChannelSeven : Obligations.NoiseReplacesC2OfChannelSeven := by
  intro g ch o pm n hne hn
  rw [c2Output_eq hn, if_pos ⟨rfl, hne⟩]

/-! ### The noise shift register (45_mixer.md R206) -/

theorem noiseAdvance_eq (p : Params) (g : Global) :
    noiseAdvance p g =
      { g with
        noiseP := (g.noiseP + noiseTable p g.nfrq.toNat) % 65536
        noiseRng := iter noiseShift ((g.noiseP + noiseTable p g.nfrq.toNat) / 65536) g.noiseRng } := by
  have hmask (n : Nat) : n &&& 65535 = n % 65536 := Nat.and_two_pow_sub_one_eq_mod n 16
  have hshift (n : Nat) : n >>> 16 = n / 65536 := Nat.shiftRight_eq_div_pow n 16
  rw [noiseAdvance, hmask, hshift]

section
variable (r : BitVec 17)

/-- Bit `i` of a shifted register: of the new top bit, moved to 16, or of the old register moved down. -/
theorem noiseShift_getLsbD {i : Nat} (hi : i < 17) :
    (noiseShift r).getLsbD i =
      (decide (16 ≤ i) && (((r.toNat ^^^ (r.toNat >>> 3)) &&& 1) ^^^ 1).testBit (i - 16) || r.getLsbD (i + 1)) := by
  rw [noiseShift, BitVec.getLsbD_ofNat, decide_eq_true hi, Bool.true_and, Nat.testBit_or, Nat.testBit_shiftLeft,
    Nat.testBit_shiftRight, Nat.add_comm 1 i]
  rfl

theorem noiseShift_top : (noiseShift r).getLsbD 16 = !(r.getLsbD 0 ^^ r.getLsbD 3) := by
  have hold : r.getLsbD 17 = false := BitVec.getLsbD_of_ge r 17 (le_refl 17)
  rw [noiseShift_getLsbD r (by decide), hold, Nat.testBit_xor, Nat.testBit_and, Nat.testBit_xor, Nat.testBit_shiftRight]
  simp [BitVec.getLsbD]

theorem noiseShift_below {i : Nat} (hi : i < 16) : (noiseShift r).getLsbD i = r.getLsbD (i + 1) := by
  rw [noiseShift_getLsbD r (by omega), decide_eq_false (by omega : ¬ 16 ≤ i), Bool.false_and, Bool.false_or]

end

/-- Settles O44: the advance of the accumulator and the bits of one shift. -/
theorem noiseRegisterShiftsByItsRate : Obligations.NoiseRegisterShiftsByItsRate := by
  rintro s p rfl
  refine ⟨?_, fun r => ⟨noiseShift_top r, fun i => noiseShift_below r⟩⟩
  rw [noiseTick, onG, noiseAdvance_eq]

/-! ### The routing, for any three operator functions (45_mixer.md R196 to R204) -/

/-- The nodes of a channel computation: the row of the routing table, the delay cell, M1's previous output, and what
M2, C1 and C2 give at their input nodes. -/
def nodesOf (r : Route) (mem fb : Int) (m2 c1 c2 : Int → Int) : Nodes :=
  let n := addNodes r.m1Targets fb (addNode r.memTarget mem nodesZero)
  let n := addNode r.m2Target (m2 n.m2) n
  let n := addNode r.c1Target (c1 n.c1) n
  addNode .out (c2 n.c2) n

theorem chanNodes_eq (g : Global) (c : Chan) (ch : Channel) (ops : Four Operator) :
    chanNodes g c ch ops =
      nodesOf (route ch.con) ch.mem ch.fbCurr (gatedOut (attenuation g.lfa ch ops.m2) ops.m2)
        (gatedOut (attenuation g.lfa ch ops.c1) ops.c1) (c2Output g c ch ops.c2) := rfl

section
variable (mem fb : Int) (m2 c1 c2 : Int → Int)

/-- The channel output and the new MEM of each algorithm, written out (45_mixer.md R196). -/
def algorithm (con : BitVec 3) : Int × Int :=
  match con.toNat with
  | 0 => (c2 (m2 mem), c1 fb)
  | 1 => (c2 (m2 mem), fb + c1 0)
  | 2 => (c2 (fb + m2 mem), c1 0)
  | 3 => (c2 (mem + m2 0), c1 fb)
  | 4 => (c1 fb + c2 (m2 0), mem)
  | 5 => (m2 fb + c1 fb + c2 mem, fb)
  | 6 => (m2 0 + c1 fb + c2 0, mem)
  | _ => (fb + m2 0 + c1 0 + c2 0, mem)

theorem bitVec_three_cases :
    ∀ con : BitVec 3, con = 0 ∨ con = 1 ∨ con = 2 ∨ con = 3 ∨ con = 4 ∨ con = 5 ∨ con = 6 ∨ con = 7 := by decide

/-- One case per row: the four values added in the order of the channel computation, from nodes that are 0. -/
theorem nodesOf_route (con : BitVec 3) :
    ((nodesOf (route con) mem fb m2 c1 c2).out, (nodesOf (route con) mem fb m2 c1 c2).mem) =
      algorithm mem fb m2 c1 c2 con := by
  rcases bitVec_three_cases con with rfl | rfl | rfl | rfl | rfl | rfl | rfl | rfl <;>
    simp [algorithm, nodesOf, route, addNodes, addNode, nodesZero]

end

/-- Settles O41: the operators' outputs are those of the model's nodes, and each algorithm is a row of the table. -/
theorem algorithmsRouteTheFourOperators : Obligations.AlgorithmsRouteTheFourOperators := by
  rintro s c e n m2 c1 c2 ch rfl he hn hm2 hc1 hc2
  have hm2' : m2 = gatedOut (attenuation s.g.lfa (s.chAt c) (s.opAt c .m2)) (s.opAt c .m2) :=
    funext fun x => by rw [hm2, he]; rfl
  have hc1' : c1 = gatedOut (attenuation s.g.lfa (s.chAt c) (s.opAt c .c1)) (s.opAt c .c1) :=
    funext fun x => by rw [hc1, he]; rfl
  have hc2' : c2 = c2Output s.g c (s.chAt c) (s.opAt c .c2) :=
    funext fun x => by rw [hc2, c2Output_eq (hn.trans (by rw [he])), he]; rfl
  have row (con : BitVec 3) (hcon : (s.chAt c).con = con) :
      chanOut s c = (algorithm (s.chAt c).mem (s.chAt c).fbCurr m2 c1 c2 con).1 ∧
        ((mixerTick s).chAt c).mem = (algorithm (s.chAt c).mem (s.chAt c).fbCurr m2 c1 c2 con).2 := by
    subst hcon hm2' hc1' hc2'
    rw [mixerTick_chAt, chanStore_mem, ← nodesOf_route]
    exact ⟨rfl, rfl⟩
  exact ⟨row 0, row 1, row 2, row 3, row 4, row 5, row 6, row 7⟩

/-! ### The ranges (45_mixer.md R207) -/

theorem addNode_out (t : Node) (v : Int) (n : Nodes) :
    (addNode t v n).out = n.out + if t = .out then v else 0 := by
  cases t <;> simp [addNode]

theorem addNodes_out (ts : List Node) (v : Int) (n : Nodes) :
    (addNodes ts v n).out = n.out + ts.count .out * v := by
  induction ts generalizing n with
  | nil => simp [addNodes]
  | cons t ts ih =>
    have hcons : addNodes (t :: ts) v n = addNodes ts v (addNode t v n) := rfl
    rw [hcons, ih, addNode_out, List.count_cons]
    by_cases ht : t = .out
    · simp only [ht, if_true, beq_self_eq_true]
      push_cast
      ring
    · simp [ht]

theorem route_memTarget_ne_out (con : BitVec 3) : (route con).memTarget ≠ .out := by revert con; decide

theorem route_m1Targets_count_out (con : BitVec 3) : (route con).m1Targets.count .out ≤ 1 := by revert con; decide

theorem addNode_out_within {a b v : Int} {n : Nodes} (t : Node) (hn : within a n.out) (hv : within b v) :
    within (a + b) (addNode t v n).out := by
  rw [addNode_out]
  unfold within at *
  split <;> omega

/-- The delay cell never reaches the output, and each of the four operators does at most once. -/
theorem nodesOf_out_within (con : BitVec 3) (mem : Int) {b fb : Int} {m2 c1 c2 : Int → Int} (hfb : within b fb)
    (hm2 : ∀ x, within b (m2 x)) (hc1 : ∀ x, within b (c1 x)) (hc2 : ∀ x, within b (c2 x)) :
    within (b + b + b + b) (nodesOf (route con) mem fb m2 c1 c2).out := by
  have hm1 : within b (addNodes (route con).m1Targets fb (addNode (route con).memTarget mem nodesZero)).out := by
    have hcount := route_m1Targets_count_out con
    have hdelay : (addNode (route con).memTarget mem nodesZero).out = 0 := by
      rw [addNode_out, if_neg (route_memTarget_ne_out con)]
      rfl
    rw [addNodes_out, hdelay, zero_add]
    obtain h | h : (route con).m1Targets.count .out = 0 ∨ (route con).m1Targets.count .out = 1 := by omega
    · rw [h, Nat.cast_zero, zero_mul]
      unfold within at *
      omega
    · rwa [h, Nat.cast_one, one_mul]
  exact addNode_out_within .out (addNode_out_within _ (addNode_out_within _ hm1 (hm2 _)) (hc1 _)) (hc2 _)

theorem chanOut_within {s : State} {c : Chan} (h : within 8168 (s.chAt c).fbCurr) : within 32672 (chanOut s c) :=
  nodesOf_out_within (s.chAt c).con (s.chAt c).mem h (gatedOut_within _ _) (gatedOut_within _ _)
    (c2Output_within _ _ _ _)

/-- Settles O45: each operator output is a lookup, the histories and MEM are in the invariant, and the channel output
sums at most four operators. -/
theorem mixerOutputsAreBounded : Obligations.MixerOutputsAreBounded := by
  refine ⟨fun e o x => ?_, noiseOut_within, fun s hs c => ?_⟩
  · obtain ⟨hlow, hhigh⟩ := opOut_within e o x
    exact ⟨hlow, hhigh, opOutFb_within e o x⟩
  · obtain ⟨hprev, hcurr, hmem⟩ := hs.chs c
    exact ⟨hprev, hcurr, hmem, chanOut_within hcurr⟩

end Sys2Proof.Machine

/-! ## The timers, the status bits and CSM: proofs of O46 to O49

A timer that is due in a tick is one that runs and has at most one tick left. Each timer's step is one equation over
this condition; the tick's rules for its value, its status bit and the request latch follow, and the run of a timer from
its load on is a recurrence of its value and its bit that both timers meet. -/

namespace Sys2Proof.Machine

/-! ### One tick of a timer (46_timers_csm.md R216, R217) -/

/-- Timer A reaches zero in this tick. -/
def timerADue (g : Global) : Bool := g.taRun && decide (g.taVal ≤ 65536)

/-- Timer B reaches zero in this tick. -/
def timerBDue (g : Global) : Bool := g.tbRun && decide (g.tbVal ≤ 65536)

section
variable (p : Params) (g : Global)

theorem timerAStep_eq :
    timerAStep p g =
      { g with
        taVal :=
          if g.taRun then g.taVal - 65536 + (if timerADue g then (timATable p g.taIdx.toNat : Int) else 0)
          else g.taVal
        status := g.status ||| (if timerADue g then 1#2 else 0#2)
        csmReq := if timerADue g && g.csmEn then .keyOnPending else g.csmReq } := by
  rcases Bool.eq_false_or_eq_true g.taRun with hrun | hrun
  · rcases lt_or_ge 65536 g.taVal with hv | hv
    · rw [timerAStep_waits p g hrun hv]
      simp [timerADue, hrun, not_le.2 hv]
    · rw [timerAStep_expires p g hrun hv]
      simp [timerADue, hrun, hv]
  · rw [timerAStep_stopped p g hrun]
    cases g
    simp_all [timerADue]

theorem timerBStep_eq :
    timerBStep p g =
      { g with
        tbVal :=
          if g.tbRun then g.tbVal - 65536 + (if timerBDue g then (timBTable p g.tbIdx.toNat : Int) else 0)
          else g.tbVal
        status := g.status ||| (if timerBDue g then 2#2 else 0#2) } := by
  rcases Bool.eq_false_or_eq_true g.tbRun with hrun | hrun
  · rcases lt_or_ge 65536 g.tbVal with hv | hv
    · rw [timerBStep_waits p g hrun hv]
      simp [timerBDue, hrun, not_le.2 hv]
    · rw [timerBStep_expires p g hrun hv]
      simp [timerBDue, hrun, hv]
  · rw [timerBStep_stopped p g hrun]
    cases g
    simp_all [timerBDue]

end

/-- Settles O46: the two steps one after the other; Timer A's writes none of the fields that Timer B's reads. -/
theorem timersCountDownAndReload : Obligations.TimersCountDownAndReload := by
  rintro s _ _ rfl rfl
  simp only [sub_nonpos]
  rw [timersTick, onG, timerAStep_eq, timerBStep_eq]
  rfl

/-! ### The timers and the latch through a tick -/

section
variable (s : State)

theorem tick_statusA : (tick s).g.status.getLsbD 0 = (s.g.status.getLsbD 0 || timerADue s.g) := by
  obtain ⟨-, -, hstatus, -, -⟩ := tick_g_fields s
  rw [hstatus, timerAStep_eq]
  cases timerADue s.g <;> simp

theorem tick_statusB : (tick s).g.status.getLsbD 1 = (s.g.status.getLsbD 1 || timerBDue s.g) := by
  obtain ⟨-, -, -, hstatus, -⟩ := tick_g_fields s
  rw [hstatus, timerBStep_eq]
  cases timerBDue s.g <;> simp

theorem tick_taVal (h : s.g.taRun = true) :
    (tick s).g.taVal =
      s.g.taVal - 65536 + (if s.g.taVal ≤ 65536 then (timATable s.params s.g.taIdx.toNat : Int) else 0) := by
  obtain ⟨htaVal, -⟩ := tick_g_fields s
  rw [htaVal, timerAStep_eq]
  simp [timerADue, h]

theorem tick_tbVal (h : s.g.tbRun = true) :
    (tick s).g.tbVal =
      s.g.tbVal - 65536 + (if s.g.tbVal ≤ 65536 then (timBTable s.params s.g.tbIdx.toNat : Int) else 0) := by
  obtain ⟨-, htbVal, -⟩ := tick_g_fields s
  rw [htbVal, timerBStep_eq]
  simp [timerBDue, h]

theorem tick_csmReq : (tick s).g.csmReq = csmNext (timerAStep s.params s.g).csmReq := by
  obtain ⟨-, -, -, -, hcsmReq⟩ := tick_g_fields s
  exact hcsmReq

end

/-! ### The run of a timer from its load on (46_timers_csm.md R218) -/

/-- The values `x` and the status bits `b` of a timer, tick by tick, that starts with its table value `V` loaded and
runs on. -/
structure CountsDown (V : Nat) (x : Nat → Int) (b : Nat → Bool) : Prop where
  start : x 0 = V
  value : ∀ n, x (n + 1) = x n - 65536 + (if x n ≤ 65536 then (V : Int) else 0)
  bit : ∀ n, b (n + 1) = (b n || decide (x n ≤ 65536))

section
variable {V : Nat} {x : Nat → Int} {b : Nat → Bool}

/-- Until the timer reaches zero nothing is added to its value. -/
theorem CountsDown.value_before (h : CountsDown V x b) {n : Nat} (hn : 65536 * n < V) :
    x n = (V : Int) - 65536 * n := by
  induction n with
  | zero => simpa using h.start
  | succ n ih =>
    have hx := ih (by omega)
    rw [h.value, if_neg (by omega), hx]
    omega

/-- The bit is set from the first tick on that brings the timer to zero. -/
theorem CountsDown.bit_iff (h : CountsDown V x b) (hV : 1 ≤ V) (hb : b 0 = false) (n : Nat) :
    b n = true ↔ V ≤ 65536 * n := by
  induction n with
  | zero => simp only [hb, Bool.false_eq_true, false_iff]; omega
  | succ n ih =>
    rw [h.bit, Bool.or_eq_true, decide_eq_true_iff, ih]
    rcases lt_or_ge (65536 * n) V with hn | hn
    · rw [h.value_before hn]
      omega
    · omega

/-- With a period of a tick or more, one reload brings the value back to at least 0, so that the elapsed time is
kept modulo the period. -/
theorem CountsDown.value_mod (h : CountsDown V x b) (hV : 65536 ≤ V) (n : Nat) :
    x n = (V : Int) - (65536 * n % V : Nat) := by
  induction n with
  | zero => simpa using h.start
  | succ n ih =>
    have hlt : 65536 * n % V < V := Nat.mod_lt _ (by omega)
    have hnext : 65536 * (n + 1) % V = (65536 * n % V + 65536) % V := by rw [Nat.mul_succ, Nat.mod_add_mod]
    rw [h.value, ih, hnext]
    generalize 65536 * n % V = r at hlt
    rcases lt_or_ge (r + 65536) V with hr | hr
    · rw [Nat.mod_eq_of_lt hr, if_neg (by omega)]
      omega
    · rw [Nat.mod_eq_sub_mod hr, Nat.mod_eq_of_lt (by omega), if_pos (by omega)]
      omega

end

/-- Ticks change no control field, so that a running Timer A runs on with the same table value. -/
theorem timerA_countsDown {s : State} (hrun : s.g.taRun = true)
    (hload : s.g.taVal = timATable s.params s.g.taIdx.toNat) :
    CountsDown (timATable s.params s.g.taIdx.toNat) (fun n => (ticks n s).g.taVal)
      (fun n => (ticks n s).g.status.getLsbD 0) := by
  have hrun' (n : Nat) : (ticks n s).g.taRun = true :=
    (congrArg Global.taRun (ticks_g_programmed n s) :).trans hrun
  have hidx (n : Nat) : (ticks n s).g.taIdx = s.g.taIdx := (congrArg Global.taIdx (ticks_g_programmed n s) :)
  refine ⟨hload, fun n => ?_, fun n => ?_⟩
  · rw [ticks_succ_last, tick_taVal _ (hrun' n), ticks_params, hidx]
  · rw [ticks_succ_last, tick_statusA, timerADue, hrun' n, Bool.true_and]

/-- The same of Timer B. -/
theorem timerB_countsDown {s : State} (hrun : s.g.tbRun = true)
    (hload : s.g.tbVal = timBTable s.params s.g.tbIdx.toNat) :
    CountsDown (timBTable s.params s.g.tbIdx.toNat) (fun n => (ticks n s).g.tbVal)
      (fun n => (ticks n s).g.status.getLsbD 1) := by
  have hrun' (n : Nat) : (ticks n s).g.tbRun = true :=
    (congrArg Global.tbRun (ticks_g_programmed n s) :).trans hrun
  have hidx (n : Nat) : (ticks n s).g.tbIdx = s.g.tbIdx := (congrArg Global.tbIdx (ticks_g_programmed n s) :)
  refine ⟨hload, fun n => ?_, fun n => ?_⟩
  · rw [ticks_succ_last, tick_tbVal _ (hrun' n), ticks_params, hidx]
  · rw [ticks_succ_last, tick_statusB, timerBDue, hrun' n, Bool.true_and]

/-- Settles O47: both timers meet the recurrence, and the first overflow and the period are facts about it. -/
theorem timersOverflowAtTheirPeriod : Obligations.TimersOverflowAtTheirPeriod := by
  intro s t n _ h
  obtain ⟨-, rfl⟩ := whenReady_eq_next.1 h
  refine ⟨?_, ?_⟩
  · rintro V rfl hV hrun hload
    have hcount := timerA_countsDown hrun hload
    exact ⟨fun hclear => hcount.bit_iff hV hclear n, fun hperiod => hcount.value_mod hperiod n⟩
  · rintro V rfl hV hrun hload
    have hcount := timerB_countsDown hrun hload
    exact ⟨fun hclear => hcount.bit_iff hV hclear n, fun hperiod => hcount.value_mod hperiod n⟩

/-! ### The status bits (46_timers_csm.md R221) -/

theorem ticks_statusA (n : Nat) {s : State} (h : statusA s.g = true) : statusA (ticks n s).g = true :=
  iter_keeps (P := fun s : State => statusA s.g = true)
    (fun s hs => by rw [statusA, tick_statusA, ← statusA, hs, Bool.true_or]) n h

theorem ticks_statusB (n : Nat) {s : State} (h : statusB s.g = true) : statusB (ticks n s).g = true :=
  iter_keeps (P := fun s : State => statusB s.g = true)
    (fun s hs => by rw [statusB, tick_statusB, ← statusB, hs, Bool.true_or]) n h

/-- What an instruction can do to the status bits. -/
theorem exec_status_cases {i : Instr} {s t : State} (h : exec i s = .next t) :
    (∃ n, i = .tick n ∧ t = ticks n s) ∨ (i = .rst ∧ t.g.status = 0#2) ∨
    (∃ csm clrB clrA runB runA,
      i = .tctl csm clrB clrA runB runA ∧ t.g.status = clearedStatus clrB clrA s.g.status) ∨
    t.g.status = s.g.status := by
  cases i with
  | tick n =>
    obtain ⟨-, rfl⟩ := whenReady_eq_next.1 h
    exact .inl ⟨n, rfl, rfl⟩
  | rst =>
    obtain ⟨-, rfl⟩ := execRst_eq_next.1 h
    exact .inr (.inl ⟨rfl, rfl⟩)
  | tctl csm clrB clrA runB runA =>
    obtain ⟨-, rfl⟩ := whenReady_eq_next.1 ((execTctl_eq csm clrB clrA runB runA s).symm.trans h)
    exact .inr (.inr (.inl ⟨csm, clrB, clrA, runB, runA, rfl, rfl⟩))
  | _ =>
    obtain ⟨-, rfl⟩ := whenReady_eq_next.1 h
    exact .inr (.inr (.inr rfl))

/-- A clear bit never sets its status bit, and is 1 where it clears it. -/
theorem clearBit_changes :
    ∀ old clr : Bool, (old = false → (old && !clr) = false) ∧ (old = true → (old && !clr) = false → clr = true) := by
  decide

/-- Settles O48: ticks never clear a bit, a reset never sets one, and the control byte clears those it names. -/
theorem statusBitsChangeOnlyAsStated : Obligations.StatusBitsChangeOnlyAsStated := by
  intro i s t h
  unfold statusA statusB
  obtain ⟨n, rfl, rfl⟩ | ⟨rfl, hstatus⟩ | ⟨csm, clrB, clrA, runB, runA, rfl, hstatus⟩ | hstatus := exec_status_cases h
  · exact ⟨⟨fun _ _ => ⟨n, rfl⟩, fun hwas hclear => absurd (ticks_statusA n hwas) (Bool.eq_false_iff.1 hclear)⟩,
      fun _ _ => ⟨n, rfl⟩, fun hwas hclear => absurd (ticks_statusB n hwas) (Bool.eq_false_iff.1 hclear)⟩
  · rw [hstatus]
    exact ⟨⟨fun _ hset => absurd hset (by decide), fun _ _ => .inl rfl⟩, fun _ hset => absurd hset (by decide),
      fun _ _ => .inl rfl⟩
  · rw [hstatus, clearedStatus_bitA, clearedStatus_bitB]
    obtain ⟨hneverA, honlyA⟩ := clearBit_changes (s.g.status.getLsbD 0) clrA
    obtain ⟨hneverB, honlyB⟩ := clearBit_changes (s.g.status.getLsbD 1) clrB
    exact ⟨⟨fun hwas hset => absurd hset (Bool.eq_false_iff.1 (hneverA hwas)),
        fun hwas hclear => .inr ⟨csm, clrB, runB, runA, by rw [honlyA hwas hclear]⟩⟩,
      fun hwas hset => absurd hset (Bool.eq_false_iff.1 (hneverB hwas)),
      fun hwas hclear => .inr ⟨csm, clrA, runB, runA, by rw [honlyB hwas hclear]⟩⟩
  · rw [hstatus]
    exact ⟨⟨fun hwas hset => absurd hset (Bool.eq_false_iff.1 hwas),
        fun hwas hclear => absurd hwas (Bool.eq_false_iff.1 hclear)⟩,
      fun hwas hset => absurd hset (Bool.eq_false_iff.1 hwas),
      fun hwas hclear => absurd hwas (Bool.eq_false_iff.1 hclear)⟩

/-! ### The CSM key-on and key-off (46_timers_csm.md R219) -/

theorem timerAStep_csmReq_of_due (p : Params) {g : Global} (hrun : g.taRun = true) (hcsm : g.csmEn = true)
    (hv : g.taVal ≤ 65536) : (timerAStep p g).csmReq = .keyOnPending := by
  rw [timerAStep_expires p g hrun hv]
  exact if_pos hcsm

section
variable {s : State} (c : Chan) (sl : Slot)

/-- An operator after a tick that resolves a key-on: the CSM bit is set, and an operator that was not keyed on has
restarted after its phase advance. -/
theorem tick_csmKeyOn (h : (timerAStep s.params s.g).csmReq = .keyOnPending) :
    ((tick s).opAt c sl).key = setKey .csm (s.opAt c sl).key ∧
      ((s.opAt c sl).key = 0 → ((tick s).opAt c sl).phase = 0 ∧
        (((tick s).opAt c sl).env = .attack ∨ ((tick s).opAt c sl).env = .decay1)) := by
  rw [tick_opAt, tick_csmReq_resolved, h, csmOp, keyOn_key, phaseStep_key, egTick_key]
  refine ⟨rfl, fun hkey => ?_⟩
  obtain ⟨hphase, henv⟩ := keyOn_unkeyed_edges (clocks s.params (egTick s).g).egCnt (s.chAt c).kc .csm
    (o := phaseStep s.params (clocks s.params (egTick s).g).lfp (s.chAt c) ((egTick s).opAt c sl))
    (by rw [phaseStep_key, egTick_key, hkey])
  exact ⟨hphase, henv.imp And.left And.left⟩

/-- An operator after a tick that resolves a key-off: the CSM bit is cleared, and an operator no longer keyed on is
not above Release. -/
theorem tick_csmKeyOff (h : (timerAStep s.params s.g).csmReq = .keyOffPending) :
    ((tick s).opAt c sl).key = clearKey .csm (s.opAt c sl).key ∧
      (((tick s).opAt c sl).key = 0 → aboveRelease ((tick s).opAt c sl).env = false) := by
  rw [tick_opAt, tick_csmReq_resolved, h, csmOp, keyOff_key]
  exact ⟨by rw [phaseStep_key, egTick_key], keyOff_not_aboveRelease⟩

end

theorem aboveRelease_eq_false_iff (e : EnvState) : aboveRelease e = false ↔ e = .release ∨ e = .off := by
  cases e <;> decide

/-- Settles O49: the first tick resolves the key-on that Timer A requests and leaves the key-off pending; the second,
with Timer A not due, resolves that. -/
theorem csmKeysAllOperatorsForOneTick : Obligations.CsmKeysAllOperatorsForOneTick := by
  intro s t u _ ht hu hrun hcsm hv
  obtain ⟨-, rfl⟩ := whenReady_eq_next.1 ht
  obtain ⟨-, rfl⟩ := whenReady_eq_next.1 hu
  have hkeyOn := timerAStep_csmReq_of_due s.params hrun hcsm hv
  have hpending : (tick s).g.csmReq = .keyOffPending := by rw [tick_csmReq, hkeyOn]; rfl
  refine ⟨hpending, fun c sl => tick_csmKeyOn c sl hkeyOn, fun hnotDue => ?_⟩
  have hkeyOff : (timerAStep (tick s).params (tick s).g).csmReq = .keyOffPending :=
    (timerAStep_csmReq_of_not_due _ fun ⟨_, _, hdue⟩ => not_lt.2 hdue hnotDue).trans hpending
  refine ⟨(tick_csmReq (tick s)).trans (congrArg csmNext hkeyOff), fun c sl => ?_⟩
  obtain ⟨hkey, henv⟩ := tick_csmKeyOff c sl hkeyOff
  exact ⟨hkey, fun hzero => (aboveRelease_eq_false_iff _).1 (henv hzero)⟩

end Sys2Proof.Machine

/-! ## Ticks, frames, faults and the reset: proofs of O8, O9, O11, O12, O51, O52, O54, O55, O57, O58, O59

A frame is the ticks of `TICK FRAME` with another host record, and its buffer reads at the two indices of each tick the
pair of that tick. With no pan bit set every pair is `(0, 0)`, and ticks set none. -/

namespace Sys2Proof.Machine

/-! ### The ticks of one instruction (47_sample_tick.md R230, R241) -/

theorem exec_tick {s : State} (hready : s.h.ready = true) (n : Nat) : exec (.tick n) s = .next (ticks n s) :=
  whenReady_ready hready

theorem ticks_ready {s : State} (hready : s.h.ready = true) (n : Nat) : (ticks n s).h.ready = true := by
  rwa [ticks_h]

/-- Settles O54: the loops of the two instructions compose. -/
theorem ticksCompose : Obligations.TicksCompose := by
  intro m n s hready
  refine ⟨exec_tick hready 0, ticks m s, exec_tick hready m, ?_⟩
  rw [exec_tick (ticks_ready hready m), exec_tick hready, ticks_add]

/-- Settles O52: `TICK 1` is one tick, whose definition is the order of the steps. -/
theorem tickPerformsItsStepsInOrder : Obligations.TickPerformsItsStepsInOrder := fun _ hready =>
  exec_tick hready 1

/-! ### The sample pair (47_sample_tick.md R233, R234) -/

theorem clip_eq_max_min (x : Int) : clip x = max (-32768) (min 32767 x) := by
  unfold clip
  split
  · omega
  · split <;> omega

theorem outSample_eq (p : Params) (x : Int) :
    outSample p x = Int.tdiv (max (-32768) (min 32767 x) * p.gainNum) p.gainDen := by
  rw [outSample, clip_eq_max_min]

theorem sumChans_eq_sum (f : Chan → Int) : sumChans f = ∑ c : Fin 8, f c := (Fin.sum_univ_eight f).symm

/-- Settles O55: the two samples by the clip's equation, the two sums as sums over the channels. -/
theorem samplePairIsPannedClippedAndScaled : Obligations.SamplePairIsPannedClippedAndScaled := by
  intro s
  refine ⟨?_, sumChans_eq_sum _, sumChans_eq_sum _⟩
  rw [samplePair, outSample_eq, outSample_eq]

/-! ### The frame (47_sample_tick.md R240) -/

theorem storePair_eq_setHost (n : Nat) (out : Sample × Sample) (s : State) :
    storePair n out s = setHost (storePair n out s).h s := rfl

theorem storePair_read (n : Nat) (out : Sample × Sample) (s : State) (i : Nat) :
    Memory.read (storePair n out s).h.buffer i =
      if i = 2 * n + 1 then some out.2 else if i = 2 * n then some out.1 else Memory.read s.h.buffer i := by
  show Memory.read (Memory.write (Memory.write s.h.buffer (2 * n) out.1) (2 * n + 1) out.2) i = _
  rw [Memory.read_write, Memory.read_write]

section
variable (n k : Nat) (s : State)

theorem frameFrom_succ : frameFrom n (k + 1) s = frameFrom (n + 1) k (storePair n (tickSample s) (tick s)) := rfl

/-- A frame is its ticks, the host's record apart: the ticks do not read what the loop stores. -/
theorem frameFrom_eq_setHost : frameFrom n k s = setHost (frameFrom n k s).h (ticks k s) := by
  induction k generalizing n s with
  | zero => rfl
  | succ k ih =>
    rw [frameFrom_succ, ih, storePair_eq_setHost, ticks_setHost]
    rfl

/-- The loop writes only the indices of its own ticks. -/
theorem frameFrom_read_outside {i : Nat} (hi : i < 2 * n ∨ 2 * (n + k) ≤ i) :
    Memory.read (frameFrom n k s).h.buffer i = Memory.read s.h.buffer i := by
  induction k generalizing n s with
  | zero => rfl
  | succ k ih =>
    rw [frameFrom_succ, ih (n + 1) _ (by omega), storePair_read, if_neg (by omega), if_neg (by omega), tick_h]

/-- The pair of the tick that follows `j` ticks stands at the indices of that tick. -/
theorem frameFrom_read_pair {j : Nat} (hj : j < k) :
    Memory.read (frameFrom n k s).h.buffer (2 * (n + j)) = some (tickSample (ticks j s)).1 ∧
      Memory.read (frameFrom n k s).h.buffer (2 * (n + j) + 1) = some (tickSample (ticks j s)).2 := by
  induction k generalizing n s j with
  | zero => omega
  | succ k ih =>
    rw [frameFrom_succ]
    cases j with
    | zero =>
      rw [frameFrom_read_outside _ _ _ (by omega), frameFrom_read_outside _ _ _ (by omega), storePair_read,
        storePair_read, if_neg (by omega), if_pos (by omega), if_pos (by omega)]
      exact ⟨rfl, rfl⟩
    | succ j =>
      have hlater := ih (n + 1) (storePair n (tickSample s) (tick s)) (Nat.lt_of_succ_lt_succ hj)
      rwa [storePair_eq_setHost, ticks_setHost, tickSample_setHost, ← storePair_eq_setHost, ← ticks_succ,
        Nat.add_right_comm, Nat.add_assoc] at hlater

end

theorem execFrame_ready {s : State} (hready : s.h.ready = true) :
    execFrame s = .next (frameFrom 0 (frameLen s.params) s) := whenReady_ready hready

/-- Settles O57: the frame is its ticks with another host record, and the buffer by the two reads of the loop. -/
theorem frameFillsTheBufferAsTicks : Obligations.FrameFillsTheBufferAsTicks := by
  intro s hready
  have hframe := frameFrom_eq_setHost 0 (frameLen s.params) s
  obtain ⟨hready', hparams, hpending⟩ := frameFrom_keepsRun 0 (frameLen s.params) s
  refine ⟨_, _, execFrame_ready hready, exec_tick hready _, (congrArg State.op hframe :), (congrArg State.ch hframe :),
    (congrArg State.g hframe :), hparams, hpending, hready'.trans hready, fun n hn => ⟨_, exec_tick hready n, ?_⟩,
    fun i hi => frameFrom_read_outside 0 _ s (.inr (by rwa [Nat.zero_add]))⟩
  have hpair := frameFrom_read_pair 0 _ s hn
  rwa [Nat.zero_add] at hpair

/-! ### Silence (47_sample_tick.md R235)

The reset clears the pan bits, so that no channel enters a sum, whatever its operators give. -/

/-- No channel is routed to an output. -/
def unpanned (s : State) : Prop := ∀ c, (s.chAt c).panL = false ∧ (s.chAt c).panR = false

theorem resetAll_unpanned (s : State) : unpanned (resetAll s) := fun c => by
  rw [resetAll_chAt]
  exact ⟨rfl, rfl⟩

section
variable {s : State} (h : unpanned s)
include h

/-- The pan bits are programmed fields, which ticks leave alone. -/
theorem ticks_unpanned (n : Nat) : unpanned (ticks n s) := fun c => by
  have hch := ticks_ch_programmed n s c
  obtain ⟨hleft, hright⟩ := h c
  exact ⟨(congrArg Channel.panL hch :).trans hleft, (congrArg Channel.panR hch :).trans hright⟩

theorem samplePair_unpanned : samplePair s = (0, 0) := by
  have hleft : sumLeft s = 0 := by simp [sumLeft, sumChans, fun c => (h c).1]
  have hright : sumRight s = 0 := by simp [sumRight, sumChans, fun c => (h c).2]
  have hzero : outSample s.params 0 = 0 := by simp [outSample, clip]
  rw [samplePair, hleft, hright, hzero]

theorem tickSample_unpanned : tickSample s = (0, 0) :=
  samplePair_unpanned fun c => by rw [egTick_chAt]; exact h c

theorem ticks_observed_unpanned (n : Nat) :
    (ticks n s).observed = List.replicate n (.sample 0 0) ++ s.observed := by
  induction n with
  | zero => rfl
  | succ n ih =>
    rw [ticks_succ_last, tick_observed, tickSample_unpanned (ticks_unpanned h n), ih, List.replicate_succ,
      List.cons_append]

/-- Every index of a frame is the left or the right one of some tick. -/
theorem frameFrom_read_unpanned {k i : Nat} (hi : i < 2 * k) :
    Memory.read (frameFrom 0 k s).h.buffer i = some 0 := by
  obtain ⟨hleft, hright⟩ := frameFrom_read_pair 0 k s (j := i / 2) (by omega)
  rw [Nat.zero_add, tickSample_unpanned (ticks_unpanned h (i / 2))] at hleft hright
  obtain hi' | hi' : 2 * (i / 2) = i ∨ 2 * (i / 2) + 1 = i := by omega
  · rwa [hi'] at hleft
  · rwa [hi'] at hright

end

theorem getBufferAt_of_read {s : State} {i : Nat} {v : Sample} (h : Memory.read s.h.buffer i = some v) :
    getBufferAt s i = v := by rw [getBufferAt, h]

theorem getBuffer_eq_replicate {s : State} {v : Sample}
    (h : ∀ i < 2 * frameLen s.params, Memory.read s.h.buffer i = some v) :
    getBuffer s = List.replicate (2 * frameLen s.params) v := by
  refine List.eq_replicate_iff.2 ⟨by simp [getBuffer], fun x hx => ?_⟩
  obtain ⟨i, hi, rfl⟩ := List.mem_map.1 hx
  exact getBufferAt_of_read (h i (List.mem_range.1 hi))

/-- Settles O58: after the reset no pan bit is set, so that every pair of every tick is `(0, 0)`. -/
theorem silenceAfterReset : Obligations.SilenceAfterReset := by
  intro s t h
  obtain ⟨-, rfl⟩ := execRst_eq_next.1 h
  have hpan := resetAll_unpanned s
  refine ⟨fun n => ⟨_, exec_tick rfl n, ticks_observed_unpanned hpan n⟩, _, execFrame_ready rfl, ?_⟩
  obtain ⟨-, hparams, -⟩ := frameFrom_keepsRun 0 (frameLen (resetAll s).params) (resetAll s)
  rw [getBuffer_eq_replicate (v := 0) (fun i hi => frameFrom_read_unpanned hpan (by rwa [hparams] at hi)), hparams]

/-! ### Faults and completion (60_exceptions.md R250, R255, R256) -/

theorem not_paramsAccepted_iff (p : Params) :
    ¬ paramsAccepted p ↔ p.rate = 0 ∨ p.fps = 0 ∨ p.clock = 0 ∨ p.rate < p.fps := by
  unfold paramsAccepted
  omega

theorem execRst_fault {s : State} (h : ¬ paramsAccepted s.params) :
    ∃ bad, execRst s = .fault (.configError bad) := by
  unfold execRst
  cases hbad : badParameter s.params with
  | none => exact absurd (badParameter_eq_none.1 hbad) h
  | some bad => exact ⟨bad, rfl⟩

theorem exec_rst {s : State} (hp : paramsAccepted s.params) : exec .rst s = .next (resetAll s) :=
  execRst_eq_next.2 ⟨hp, rfl⟩

/-- Settles O8: every instruction but `RST` has the guard of a ready machine, and `RST` its parameter check. -/
theorem theTwoFaultsAndTheirConditions : Obligations.TheTwoFaultsAndTheirConditions := by
  intro s
  rw [← not_paramsAccepted_iff, not_not]
  refine ⟨fun hready => ⟨fun i hi => ?_, whenReady_not_ready hready⟩, execRst_fault,
    fun hp => ⟨resetAll s, exec_rst hp⟩⟩
  obtain ⟨t, ht, -⟩ := exec_eq_whenReady hi s
  exact ht.trans (whenReady_not_ready hready)

/-- Settles O9: the guard lets every operation of a ready machine pass, and none clears the ready flag. -/
theorem everyOperationCompletesAfterReset : Obligations.EveryOperationCompletesAfterReset := by
  intro s hready
  refine ⟨fun i hi => ?_, ?_⟩
  · obtain ⟨t, ht, hh, -⟩ := exec_eq_whenReady hi s
    exact ⟨t, ht.trans (whenReady_ready hready), by rwa [hh]⟩
  · obtain ⟨hready', -⟩ := frameFrom_keepsRun 0 (frameLen s.params) s
    exact ⟨_, execFrame_ready hready, hready'.trans hready⟩

/-! ### The status read (60_exceptions.md R252, R253) -/

theorem status_ne_zero_eq_or : ∀ st : BitVec 2, (st != 0) = (st.getLsbD 0 || st.getLsbD 1) := by decide

theorem statusByte_toNat (g : Global) :
    (statusByte g).toNat = 2 * (g.status.getLsbD 1).toNat + (g.status.getLsbD 0).toNat := by
  have hbits : ∀ st : BitVec 2, (st.setWidth 8).toNat = 2 * (st.getLsbD 1).toNat + (st.getLsbD 0).toNat := by decide
  exact hbits g.status

/-- Settles O51: the guard of the status read, and the byte and the level of the two bits. -/
theorem statusReadReturnsTheTwoBits : Obligations.StatusReadReturnsTheTwoBits := fun s =>
  ⟨whenReady_not_ready, status_ne_zero_eq_or s.g.status, fun hready =>
    ⟨statusByte s.g, whenReady_ready hready, statusByte_toNat s.g⟩⟩

/-! ### The reset (70_reset_and_hazards.md R270 to R273) -/

theorem resetAll_resetAll (s : State) : resetAll (resetAll s) = resetAll s := rfl

/-- Settles O11: the state that `RST` leads to, read field by field. -/
theorem resetSetsEveryField : Obligations.ResetSetsEveryField := fun s hp =>
  ⟨resetAll s, exec_rst hp, resetAll_opAt s, resetAll_chAt s, resetAll_g s, rfl, resetAll_params s,
    resetAll_pending s, resetAll_observed s⟩

/-- Settles O12: the reset reads of the state before only the host's part, and a second one finds nothing to change. -/
theorem resetForgetsTheRunBefore : Obligations.ResetForgetsTheRunBefore := by
  refine ⟨fun p hp => exec_rst hp, fun s u hsame hp => ?_⟩
  have hagain : exec .rst (resetAll s) = .next (resetAll s) := by
    rw [exec_rst (s := resetAll s) hp, resetAll_resetAll]
  exact ⟨resetAll s, resetAll u, exec_rst hp, exec_rst (hsame ▸ hp), rfl, rfl, rfl, rfl, hagain⟩

/-- Settles O59: the reset state is what a reset of it leads to, and a reset establishes the invariant. -/
theorem resetStateHasTheInvariant : Obligations.ResetStateHasTheInvariant :=
  resetAll_inv (s := State.reset) Memory.wf_reset

end Sys2Proof.Machine
